-- ==== Sys2Proof/Word.lean ====
section
/-! DEFINITION. The two word types of the block: the byte and the 16-bit flash address (spec/00_scope.md R6, R9). -/

namespace Sys2Proof

/-- The unit of every serial and flash transfer: 8 bits, unsigned (spec/00_scope.md R6, R9). -/
abbrev Byte := BitVec 8

/-- A flash address, and the width of the address cursor: 16 bits, unsigned (spec/00_scope.md R6). -/
abbrev Addr := BitVec 16

end Sys2Proof
end

