-- ==== Sys2Proof/Syntax.lean ====
section
/-! DEFINITION. The instructions of the block: one constructor per row of spec/opcode_table.json, and a command frame
as an instruction with its argument bytes (spec/30_encoding.md R100, R114). -/

namespace Sys2Proof

/-- The ten commands (spec/30_encoding.md R114). The table gives each row its opcode byte and no operand field:
the argument bytes are taken from `rx` by the command's own steps (log 1). -/
inductive Instr where
  | getSync
  | getDevice
  | chipErase
  | loadAddress
  | progFlash
  | readFlash
  | progMulti
  | readMulti
  | paramErase
  | reboot
  deriving DecidableEq, Repr

/-- A command frame less its opcode byte and its terminator: the command and the argument bytes between them, in the
order sent (spec/30_encoding.md R100, R103 to R108; for `PROG_MULTI` the count byte and then the data). -/
structure Frame where
  instr : Instr
  args : List Byte
  deriving DecidableEq, Repr

end Sys2Proof
end

