-- ==== Sys2Proof/WellFormed.lean ====
section
/-! DEFINITION. Frame formats, terminator regimes, abort causes, and when a frame's argument bytes fit its format
(spec/30_encoding.md R103 to R108, R117; spec/60_exceptions.md R250). -/

namespace Sys2Proof

/-- The six frame formats (spec/30_encoding.md R103 to R108). -/
inductive Format where
  /-- `[op][EOC]` (R103). -/
  | z
  /-- `[op][lo][hi][EOC]` (R104). -/
  | a16
  /-- `[op][d][EOC]` (R105). -/
  | d8
  /-- `[op][N][d_0]..[d_(N-1)][EOC]` (R106). -/
  | nd
  /-- `[op][N][EOC]` (R107). -/
  | n
  /-- `[op]` (R108). -/
  | b
  deriving DecidableEq, Repr

/-- Where a frame's terminator is checked (spec/30_encoding.md R117). -/
inductive Regime where
  | precheck
  | handler
  | none
  deriving DecidableEq, Repr

/-- The four framing errors (spec/60_exceptions.md R250). -/
inductive AbortCause where
  | invalidOpcode
  | precheckEoc
  | handlerEoc
  | oversize
  deriving DecidableEq, Repr

/-- The format of each command (spec/30_encoding.md R114). -/
def Instr.format : Instr → Format
  | .getSync => .z
  | .getDevice => .z
  | .chipErase => .z
  | .loadAddress => .a16
  | .progFlash => .d8
  | .readFlash => .z
  | .progMulti => .nd
  | .readMulti => .n
  | .paramErase => .z
  | .reboot => .b

/-- The terminator regime of a format (spec/30_encoding.md R117). -/
def Format.regime : Format → Regime
  | .z => .precheck
  | .a16 => .handler
  | .d8 => .handler
  | .nd => .handler
  | .n => .handler
  | .b => .none

/-- Whether `args` are the argument bytes of a well-formed frame of this format, for a transfer buffer of `cap` bytes
(spec/30_encoding.md R103 to R108; the bound on the count is R106). -/
def Format.argsOk (cap : Nat) : Format → List Byte → Bool
  | .z, args => args.isEmpty
  | .a16, args => args.length == 2
  | .d8, args => args.length == 1
  | .nd, [] => false
  | .nd, count :: payload => payload.length == count.toNat && decide (count.toNat ≤ cap)
  | .n, args => args.length == 1
  | .b, args => args.isEmpty

/-- A frame is well formed when its argument bytes fit its command's format. -/
def Frame.wf (cap : Nat) (f : Frame) : Bool := f.instr.format.argsOk cap f.args

end Sys2Proof
end

