-- ==== Sys2Proof/Config.lean ====
section
/-! DEFINITION. The parameters of the block (spec/00_scope.md R6) as plain data, and the functions and values the spec
leaves open as constants without a body, so that nothing can be proved of what they are. -/

namespace Sys2Proof

/-- What makes the device reset (spec/60_exceptions.md R255; `platform` is "whatever else the platform resets on"). -/
inductive ResetKind where
  | powerUp
  | external
  | software
  | flashFault
  | platform
  deriving DecidableEq, Repr

/-- The three named bits of the reset-cause register `RC` (spec/10_state.md R44). -/
structure ResetCause where
  flashFault : Bool
  swReset : Bool
  forceToApp : Bool
  deriving DecidableEq, Repr, Inhabited

/-- A range of flash addresses, both ends included. -/
structure Range where
  lo : Addr
  hi : Addr
  deriving DecidableEq, Repr

/-- A set of flash addresses, the union of its ranges (spec/20_memory.md R71). -/
abbrev Region := List Range

/-- The parameter `FLASH_PROGRAM` (spec/00_scope.md R6, spec/92_eei_decisions.md D15) as data. -/
inductive ProgramLaw where
  /-- The default: `FLASH_PROGRAM(a, old, new) = new`. -/
  | overwrite
  /-- Flash that only clears bits: `old AND new` (spec/20_memory.md R73). -/
  | clearBits
  /-- Any other function: the open constant `Config.flashProgram`. -/
  | uninterpreted
  deriving DecidableEq, Repr

/-- The parameter `IMAGE_VALID` (spec/00_scope.md R6, spec/92_eei_decisions.md D19) as data. -/
inductive ImageLaw where
  /-- The test vectors' example form: valid when the byte at `a` differs from `v` (spec/95_test_vectors.md). -/
  | byteDiffers (a : Addr) (v : Byte)
  /-- Any other predicate: the open constant `Config.imageValid`. -/
  | uninterpreted
  deriving DecidableEq, Repr

/-- The parameter `RC_AFTER_RESET` (spec/00_scope.md R6, spec/92_eei_decisions.md D20) as data. -/
inductive ResetCauseLaw where
  /-- The controller records the cause of this reset in the two cause bits (spec/10_state.md R60,
  spec/70_reset_and_hazards.md R282) and leaves `FORCE_TO_APP`. -/
  | recordCause
  /-- The controller leaves the register as it was. -/
  | keep
  /-- Any other function: the open constant `Config.rcAfterReset`. -/
  | uninterpreted
  deriving DecidableEq, Repr

/-- The parameters of the block, constant for its whole life (spec/00_scope.md R6, R7). `FLASH0` is the start value
of the state's flash. -/
structure Params where
  opGetSync : Byte
  opGetDevice : Byte
  opChipErase : Byte
  opLoadAddress : Byte
  opProgFlash : Byte
  opReadFlash : Byte
  opProgMulti : Byte
  opReadMulti : Byte
  opParamErase : Byte
  opReboot : Byte
  /-- `EOC`, the terminator byte. -/
  eoc : Byte
  /-- `IN_SYNC`, the first acknowledgement byte. -/
  inSync : Byte
  /-- `OK`, the second acknowledgement byte. -/
  okByte : Byte
  /-- `CAP`, the capacity of the transfer buffer. -/
  cap : Nat
  boardId : Byte
  boardFreq : Byte
  blVersion : Byte
  /-- `APP_ENTRY`, a platform code address. -/
  appEntry : Nat
  appRegion : Region
  paramRegion : Region
  erasedByte : Byte
  programLaw : ProgramLaw
  imageLaw : ImageLaw
  rcLaw : ResetCauseLaw
  /-- `RC_FLASH_FAULT_BIT` and `RC_SW_RESET_BIT`, bit indices in the reset-cause register. -/
  rcFlashFaultBit : Nat
  rcSwResetBit : Nat
  /-- `SC_FREQ_ADDR` and `SC_VER_ADDR`, platform register addresses. -/
  scFreqAddr : Nat
  scVerAddr : Nat
  rxSurvivesReset : Bool
  laEarlyCommit : Bool
  deriving DecidableEq, Repr

/-- OPEN (spec/92_eei_decisions.md D15): what the flash driver's program request leaves, for `ProgramLaw.uninterpreted`. -/
opaque Config.flashProgram : Addr → Byte → Byte → Byte

/-- OPEN (spec/92_eei_decisions.md D19): the verdict on the flash contents, for `ImageLaw.uninterpreted`. -/
opaque Config.imageValid : List (Nat × Byte) → Bool

/-- OPEN (spec/92_eei_decisions.md D20): what the reset controller leaves in `RC`, for `ResetCauseLaw.uninterpreted`. -/
opaque Config.rcAfterReset : ResetKind → ResetCause → ResetCause

/-- Free value (spec/10_state.md R60, "unspecified"): what the `n`-th reset leaves in the byte register or buffer
slot numbered `slot`. -/
opaque Config.resetByte : (n slot : Nat) → Byte

/-- Free value (spec/10_state.md R60, "unspecified"): what the `n`-th reset leaves in the 16-bit register `slot`. -/
opaque Config.resetWord : (n slot : Nat) → Addr

end Sys2Proof
end

