-- ==== Sys2Proof/Machine/Launch.lean ====
section
/-! DEFINITION. The parameter values the model starts with, and the launch premise on parameters
(spec/00_scope.md R6, R8; spec/70_reset_and_hazards.md R282). -/

namespace Sys2Proof

/-- The spec's default parameter values and, where it leaves a value OPEN, the example of its test vectors
(spec/00_scope.md R6, spec/95_test_vectors.md; log 3). -/
def Params.default : Params where
  opGetSync := 0x21
  opGetDevice := 0x22
  opChipErase := 0x23
  opLoadAddress := 0x24
  opProgFlash := 0x25
  opReadFlash := 0x26
  opProgMulti := 0x27
  opReadMulti := 0x28
  opParamErase := 0x29
  opReboot := 0x30
  eoc := 0x20
  inSync := 0x12
  okByte := 0x10
  cap := 32
  boardId := 0xB1
  boardFreq := 0xF2
  blVersion := 0x07
  appEntry := 0x0400
  appRegion := [⟨0x0400, 0xF7FF⟩]
  paramRegion := [⟨0xF800, 0xFBFF⟩]
  erasedByte := 0xFF
  programLaw := .overwrite
  imageLaw := .byteDiffers 0x0400 0xFF
  rcLaw := .recordCause
  rcFlashFaultBit := 0
  rcSwResetBit := 1
  scFreqAddr := 0
  scVerAddr := 1
  rxSurvivesReset := true
  laEarlyCommit := false

/-- Whether address `a` lies in the region (spec/20_memory.md R71). -/
def Region.has (r : Region) (a : Nat) : Bool := r.any fun g => decide (g.lo.toNat ≤ a) && decide (a ≤ g.hi.toNat)

/-- Two ranges share no address: one ends below the other, or one is empty. -/
def Range.apart (g h : Range) : Bool := decide (g.hi < h.lo) || decide (h.hi < g.lo) || decide (g.hi < g.lo) || decide (h.hi < h.lo)

/-- Two regions are disjoint (spec/20_memory.md R71). -/
def Region.apart (r q : Region) : Bool := r.all fun g => q.all fun h => g.apart h

/-- The opcode byte of each command (spec/30_encoding.md R114). -/
def Params.opcode (p : Params) : Instr → Byte
  | .getSync => p.opGetSync
  | .getDevice => p.opGetDevice
  | .chipErase => p.opChipErase
  | .loadAddress => p.opLoadAddress
  | .progFlash => p.opProgFlash
  | .readFlash => p.opReadFlash
  | .progMulti => p.opProgMulti
  | .readMulti => p.opReadMulti
  | .paramErase => p.opParamErase
  | .reboot => p.opReboot

/-- All ten commands, in the order of spec/30_encoding.md R114. -/
def Instr.all : List Instr :=
  [.getSync, .getDevice, .chipErase, .loadAddress, .progFlash, .readFlash, .progMulti, .readMulti, .paramErase, .reboot]

/-- The launch premise on the parameters (spec/70_reset_and_hazards.md R282 (a)): the ten opcodes and `EOC` are
pairwise distinct (spec/00_scope.md R8), `1 <= CAP <= 255`, the two regions are disjoint and the two side-channel
registers are distinct (spec/00_scope.md R6). -/
def Params.wf (p : Params) : Bool :=
  decide (p.eoc :: Instr.all.map p.opcode).Nodup && decide (1 ≤ p.cap) && decide (p.cap ≤ 255)
    && p.appRegion.apart p.paramRegion && decide (p.scFreqAddr ≠ p.scVerAddr)

end Sys2Proof
end

