-- ==== Sys2Proof/Decode.lean ====
section
/-! DEFINITION. Reading bytes as commands: the classification of a first byte (spec/30_encoding.md R102), the reading of
a whole frame (R103 to R109), and the encoder of a frame (R118). -/

namespace Sys2Proof

/-- `classify` of spec/30_encoding.md R102: the command of a frame's first byte, `none` for INVALID (R115). -/
def Params.classify (p : Params) (b : Byte) : Option Instr :=
  if b = p.opGetSync then some .getSync
  else if b = p.opGetDevice then some .getDevice
  else if b = p.opChipErase then some .chipErase
  else if b = p.opParamErase then some .paramErase
  else if b = p.opReadFlash then some .readFlash
  else if b = p.opLoadAddress then some .loadAddress
  else if b = p.opProgFlash then some .progFlash
  else if b = p.opProgMulti then some .progMulti
  else if b = p.opReadMulti then some .readMulti
  else if b = p.opReboot then some .reboot
  else none

/-- What a byte string holds at its front: a whole frame, a frame that aborts (with its cause), or too few bytes to
say; with what follows. -/
inductive Decoded where
  | frame (f : Frame) (rest : List Byte)
  | abort (cause : AbortCause) (rest : List Byte)
  | more
  deriving DecidableEq, Repr

/-- The byte at the terminator's offset: exact equality with `EOC`, else the regime's abort (spec/41_framing_dispatch.md
R154, R156). -/
def decodeEoc (p : Params) (cause : AbortCause) (f : Frame) : List Byte → Decoded
  | [] => .more
  | t :: rest => if t = p.eoc then .frame f rest else .abort cause rest

/-- The bytes after the opcode, by the command's format (spec/30_encoding.md R103 to R108). -/
def decodeArgs (p : Params) (i : Instr) : Format → List Byte → Decoded
  | .z, bytes => decodeEoc p .precheckEoc ⟨i, []⟩ bytes
  | .a16, lo :: hi :: bytes => decodeEoc p .handlerEoc ⟨i, [lo, hi]⟩ bytes
  | .a16, _ => .more
  | .d8, d :: bytes => decodeEoc p .handlerEoc ⟨i, [d]⟩ bytes
  | .d8, [] => .more
  | .nd, count :: bytes =>
    if p.cap < count.toNat then .abort .oversize bytes
    else if bytes.length < count.toNat then .more
    else decodeEoc p .handlerEoc ⟨i, count :: bytes.take count.toNat⟩ (bytes.drop count.toNat)
  | .nd, [] => .more
  | .n, count :: bytes => decodeEoc p .handlerEoc ⟨i, [count]⟩ bytes
  | .n, [] => .more
  | .b, bytes => .frame ⟨i, []⟩ bytes

/-- The frame at the front of a byte string (spec/30_encoding.md R100 to R109): total, every rejection named by its
abort cause (spec/60_exceptions.md R250). -/
def decode (p : Params) : List Byte → Decoded
  | [] => .more
  | b :: bytes =>
    match p.classify b with
    | some i => decodeArgs p i i.format bytes
    | none => .abort .invalidOpcode bytes

/-- The terminator bytes of a format: one `EOC`, none for `REBOOT` (spec/30_encoding.md R108, R117). -/
def Params.terminator (p : Params) (fmt : Format) : List Byte :=
  match fmt.regime with
  | .precheck => [p.eoc]
  | .handler => [p.eoc]
  | .none => []

/-- The bytes of a frame (spec/30_encoding.md R103 to R108, R118). -/
def encode (p : Params) (f : Frame) : List Byte := p.opcode f.instr :: f.args ++ p.terminator f.instr.format

/-- The bytes of a word as spec/opcode_table.json numbers its bits: the first byte is bits 7..0. -/
def tableBytes (n w : Nat) : List Byte :=
  match n with
  | 0 => []
  | n + 1 => BitVec.ofNat 8 w :: tableBytes n (w / 256)

/-- The command the block reads from a table word, by the opcode values of `Params.default`. -/
def decodeTableWord (nbits w : Nat) : Option Instr :=
  match tableBytes (nbits / 8) w with
  | [] => none
  | b :: _ => Params.default.classify b

end Sys2Proof
end

