-- ==== Sys2Proof/Machine/State.lean ====
section
/-! DEFINITION. The state of the block as plain data: its registers, the external state it reads and writes through its
ports, the ports' own state, and the state after reset (spec/10_state.md R30 to R61). -/

namespace Sys2Proof.Machine

/-- Flash contents as address and byte pairs, in canonical form (`Memory.wf`). -/
abbrev Memory := List Host.Cell

/-- `CS`, the command-state register: the 34 values of spec/10_state.md R32. -/
inductive CommandState where
  | bgFault | bgValid | bgForce | bgScFreq | bgScVer | bgJump | bgEnterCmd
  | idle | preEoc
  | gdId | gdFreq
  | ceErase | peErase
  | rfRead | rfSend
  | laLo | laHi | laEoc
  | pfData | pfEoc | pfWrite
  | pmCount | pmData | pmEoc | pmWrite
  | rmCount | rmEoc | rmRead | rmSend
  | rbSet
  | ackInsync | ackOk
  | handedOff | resetPending
  deriving DecidableEq, Repr

/-- The four modes (spec/10_state.md R31). -/
inductive Mode where
  | boot
  | cmd
  | handedOff
  | resetPending
  deriving DecidableEq, Repr

/-- The two regions an erase can name (spec/20_memory.md R74). -/
inductive RegionName where
  | app
  | param
  deriving DecidableEq, Repr

/-- The ports on which the block makes transactions (spec/10_state.md R50). `board` carries constants and `reset` is no
transaction of the block. -/
inductive Port where
  | rx
  | tx
  | flash
  | rstcause
  | force
  | sc
  | handoff
  deriving DecidableEq, Repr

/-- What the model observes (spec/00_scope.md R12, R13): a completed port transaction, an abort with its cause, or a
reset. The register transactions carry the platform's bit index or register address (spec/60_exceptions.md R259). -/
inductive Event where
  | rx (b : Byte)
  | tx (b : Byte)
  | memRead (a : Addr) (b : Byte)
  | memWrite (a : Addr) (v : Byte)
  | flashErase (r : RegionName)
  | imageValid (v : Bool)
  | sampleFlashFault (bit : Nat) (f : Bool)
  | sampleForce (k : Bool)
  | setSwReset (bit : Nat)
  | writeSc (register : Nat) (v : Byte)
  | handoff (entry : Nat)
  | abort (cause : AbortCause)
  | reset (kind : ResetKind)
  deriving DecidableEq, Repr

/-- What the environment does between two steps of the block (spec/60_exceptions.md R262, spec/70_reset_and_hazards.md
R285; log 4). -/
inductive EnvAction where
  /-- Let the block take one step. -/
  | run
  /-- The host sends a byte; the transport holds it until the block takes it. -/
  | hostSends (b : Byte)
  /-- The output transport becomes able, or unable, to accept a byte. -/
  | setTxReady (ready : Bool)
  /-- The flash driver becomes able, or unable, to complete a request. -/
  | setFlashReady (ready : Bool)
  /-- The force-bootloader input goes to, or leaves, its active level. -/
  | setForce (active : Bool)
  /-- The device is reset. -/
  | reset (kind : ResetKind)
  deriving DecidableEq, Repr

/-- The ways a step can stop. The block has no fault outcome (spec/00_scope.md R15): each of these is raised only in a
state that the spec's rules never reach (log 10), where they give no step. -/
inductive Fault where
  /-- Raised by a command's meaning when `CS` is none of that command's steps. Safe: the model stops. -/
  | outOfSequence
  /-- Raised in `PRE_EOC` when `OP` holds no opcode at all (spec/41_framing_dispatch.md R152 says it always holds one).
  Safe: the model stops. -/
  | preEocOpcode
  /-- Raised by `PROG_MULTI` when `IDX` lies outside `BUF` (spec/45_multi.md R223 says it never does). Safe: the model
  stops. -/
  | bufferIndex
  deriving DecidableEq, Repr

/-- The refusals. -/
inductive Refusal where
  /-- Raised by `exec` for an instruction that has no meaning yet. Safe: the model stops. -/
  | notModelled (mnemonic : String)
  /-- Raised by `step` when the parameters break the launch premise `Params.wf` (spec/00_scope.md R8,
  spec/92_eei_decisions.md D5: "refused as a launch premise"). Safe: the model stops. -/
  | launchPremise
  deriving DecidableEq, Repr

/-- The state of the machine. -/
structure State where
  /-- The parameters, constant for the whole life of the hardware (spec/00_scope.md R6, R7; log 2). -/
  params : Params
  /-- `CS` (spec/10_state.md R32). -/
  cs : CommandState
  /-- `CUR`, the address cursor (spec/10_state.md R33). -/
  cur : Addr
  /-- `BUF`, the transfer buffer, `CAP` bytes (spec/10_state.md R34). -/
  buf : List Byte
  /-- `CNT` (spec/10_state.md R35). -/
  cnt : Byte
  /-- `IDX` (spec/10_state.md R36). -/
  idx : Byte
  /-- `ARG` (spec/10_state.md R37). -/
  arg : Addr
  /-- `DATA` (spec/10_state.md R38). -/
  data : Byte
  /-- `OP` (spec/10_state.md R39). -/
  op : Byte
  /-- `FLASH` (spec/20_memory.md R70). -/
  flash : Memory
  /-- `RC`, the reset-cause register (spec/10_state.md R44). -/
  rc : ResetCause
  /-- `SC_FREQ` (spec/10_state.md R45). -/
  scFreq : Byte
  /-- `SC_VER` (spec/10_state.md R45). -/
  scVer : Byte
  /-- The pending software-reset request (spec/10_state.md R30, R54). -/
  resetRequest : Bool
  /-- The force-bootloader input, true at its active level (spec/10_state.md R55). -/
  force : Bool
  /-- The bytes the host has sent and the block has not taken, oldest first (spec/10_state.md R51). -/
  rx : List Byte
  /-- Whether the output transport would accept a byte now (spec/10_state.md R52). -/
  txReady : Bool
  /-- Whether the flash driver would complete a request now (spec/60_exceptions.md R261). -/
  flashReady : Bool
  /-- The model's observation, oldest first (spec/00_scope.md R13; log 14); its `tx` events are the output stream. -/
  trace : List Event
  /-- The environment's pending actions, next first (log 4). -/
  env : List EnvAction
  /-- How many resets have happened: the index of the free values (log 7). -/
  draws : Nat
  deriving DecidableEq, Repr

/-- The machine right after a power-up reset: `CS = BG_FAULT` (spec/10_state.md R60); the values the spec leaves
unspecified or OPEN are those of logs 3 to 8. -/
def State.reset : State where
  params := Params.default
  cs := .bgFault
  cur := 0
  buf := List.replicate Params.default.cap 0
  cnt := 0
  idx := 0
  arg := 0
  data := 0
  op := 0
  flash := []
  rc := ⟨false, false, false⟩
  scFreq := 0
  scVer := 0
  resetRequest := false
  force := false
  rx := []
  txReady := true
  flashReady := true
  trace := []
  env := []
  draws := 0

end Sys2Proof.Machine
end

