-- ==== Sys2Proof/Machine/Operands.lean ====
section
/-! DEFINITION. Operand forms: how the address and count operands are assembled from frame bytes, and the operands of a
frame (spec/30_encoding.md R104 to R112). -/

namespace Sys2Proof.Machine

/-- The address operand `zext_16(lo) | (zext_16(hi) << 8)`, little-endian (spec/30_encoding.md R110). -/
def assemble (lo hi : Byte) : Addr := lo.zeroExtend 16 ||| (hi.zeroExtend 16 <<< 8)

/-- `ARG[7:0] <- b` (spec/44_cursor_single.md R200, step `LA_LO`). -/
def setLowByte (a : Addr) (b : Byte) : Addr := a.extractLsb' 8 8 ++ b

/-- `ARG[15:8] <- b` (spec/44_cursor_single.md R200, step `LA_HI`). -/
def setHighByte (a : Addr) (b : Byte) : Addr := b ++ a.extractLsb' 0 8

/-- The mode is a function of `CS` (spec/10_state.md R31). -/
def CommandState.mode : CommandState → Mode
  | .bgFault | .bgValid | .bgForce | .bgScFreq | .bgScVer | .bgJump | .bgEnterCmd => .boot
  | .handedOff => .handedOff
  | .resetPending => .resetPending
  | _ => .cmd

end Sys2Proof.Machine

namespace Sys2Proof

/-- The address operand of a frame of format A16 (spec/30_encoding.md R104). -/
def Frame.address (f : Frame) : Option Addr :=
  match f.instr.format, f.args with
  | .a16, [lo, hi] => some (Machine.assemble lo hi)
  | _, _ => none

/-- The count operand of a frame of format ND or N: frame byte 1, unsigned (spec/30_encoding.md R111). -/
def Frame.count (f : Frame) : Option Nat :=
  match f.instr.format, f.args with
  | .nd, count :: _ => some count.toNat
  | .n, count :: _ => some count.toNat
  | _, _ => none

/-- The data bytes of a frame of format D8 or ND, taken as they are (spec/30_encoding.md R112). -/
def Frame.payload (f : Frame) : List Byte :=
  match f.instr.format, f.args with
  | .d8, bytes => bytes
  | .nd, _ :: bytes => bytes
  | _, _ => []

/-- How many bytes a well-formed frame has on the wire (spec/30_encoding.md R109). -/
def Frame.wireLength (f : Frame) : Nat :=
  match f.instr.format with
  | .z => 2
  | .a16 => 4
  | .d8 => 3
  | .nd => 3 + f.payload.length
  | .n => 3
  | .b => 1

/-- `LOAD_ADDRESS A` of spec/30_encoding.md R118: the frame whose argument bytes are `A`'s low byte and high byte. -/
def loadAddressFrame (a : Addr) : Frame := ⟨.loadAddress, [a.extractLsb' 0 8, a.extractLsb' 8 8]⟩

/-- `PROG_FLASH d` of spec/30_encoding.md R118. -/
def progFlashFrame (d : Byte) : Frame := ⟨.progFlash, [d]⟩

/-- `PROG_MULTI d_0, ..., d_(N-1)` of spec/30_encoding.md R118, R119: the count is the number of listed bytes. -/
def progMultiFrame (payload : List Byte) : Frame := ⟨.progMulti, BitVec.ofNat 8 payload.length :: payload⟩

/-- `READ_MULTI N` of spec/30_encoding.md R118. -/
def readMultiFrame (count : Byte) : Frame := ⟨.readMulti, [count]⟩

end Sys2Proof
end

