-- ==== Sys2Proof/Machine/Flags.lean ====
section
/-! DEFINITION. The block has no status flags, condition codes or predicates (spec/10_state.md R47). What its steps test
instead are the comparisons of this file. -/

namespace Sys2Proof.Machine

/-- The terminator test: exact equality of all 8 bits with `EOC` (spec/41_framing_dispatch.md R154). -/
def State.isEoc (s : State) (t : Byte) : Bool := t == s.params.eoc

/-- The capacity test of `PROG_MULTI`: the count is strictly greater than `CAP` (spec/45_multi.md R220). -/
def State.oversize (s : State) (count : Byte) : Bool := decide (s.params.cap < count.toNat)

/-- `IDX + 1 == CNT`, with `IDX` as it was before the step: this is the last byte (spec/45_multi.md R220). -/
def State.lastByte (s : State) : Bool := s.idx + 1 == s.cnt

/-- `IDX == CNT`, with `IDX` already incremented: all bytes have been sent (spec/45_multi.md R221). -/
def State.allSent (s : State) : Bool := s.idx == s.cnt

end Sys2Proof.Machine
end

