-- ==== Sys2Proof/Machine/Ops.lean ====
section
/-! DEFINITION. The named operations: flash contents, register updates, the port primitives of spec/00_scope.md R12, the
abort (the block's one synchronous exception) and the reset (its one asynchronous event). -/

namespace Sys2Proof.Machine

/-- The three outcomes of a step of this machine. -/
abbrev Outcome := Host.Outcome State Fault Refusal

/-! ### Flash contents -/

/-- What an address that no entry lists reads as: the first contents of flash, `FLASH0`, which the spec leaves OPEN
(spec/92_eei_decisions.md D37; log 5). -/
def Memory.blank : Byte := 0xFF

/-- The canonical form: addresses strictly rising, inside the 2^16-byte flash space (spec/20_memory.md R70), no entry
equal to what an unlisted address reads as. -/
abbrev Memory.wf (m : Memory) : Prop :=
  m.Pairwise (fun x y => x.1 < y.1) ∧ ∀ c ∈ m, c.1 < 65536 ∧ c.2 ≠ Memory.blank

/-- `FLASH[a]` (spec/20_memory.md R72). -/
def Memory.read : Memory → Nat → Byte
  | [], _ => Memory.blank
  | (b, w) :: m, a => if a = b then w else Memory.read m a

/-- `FLASH[a] <- v`, keeping the canonical form. -/
def Memory.write : Memory → Nat → Byte → Memory
  | [], a, v => if v = Memory.blank then [] else [(a, v)]
  | (b, w) :: m, a, v =>
    if a < b then (if v = Memory.blank then (b, w) :: m else (a, v) :: (b, w) :: m)
    else if a = b then (if v = Memory.blank then m else (a, v) :: m)
    else (b, w) :: Memory.write m a v

/-- `FLASH[a] <- v` for every `a` in the region, and no other address (spec/20_memory.md R74). -/
def Memory.fill (m : Memory) (r : Region) (v : Byte) : Memory :=
  if v = Memory.blank then m.filter fun c => !r.has c.1
  else (List.range 65536).filterMap fun a =>
    let b := if r.has a then v else m.read a
    if b = Memory.blank then none else some (a, b)

/-! ### The parameters that are functions -/

/-- `FLASH_PROGRAM(a, old, new)` (spec/00_scope.md R6, spec/20_memory.md R73). -/
def Params.flashProgram (p : Params) (a : Addr) (old new : Byte) : Byte :=
  match p.programLaw with
  | .overwrite => new
  | .clearBits => old &&& new
  | .uninterpreted => Config.flashProgram a old new

/-- `IMAGE_VALID(FLASH)` (spec/00_scope.md R6, spec/20_memory.md R75). -/
def Params.imageValid (p : Params) (m : Memory) : Bool :=
  match p.imageLaw with
  | .byteDiffers a v => m.read a.toNat != v
  | .uninterpreted => Config.imageValid m

/-- `RC_AFTER_RESET(kind, RC)` (spec/00_scope.md R6, spec/92_eei_decisions.md D20). -/
def Params.rcAfterReset (p : Params) (kind : ResetKind) (rc : ResetCause) : ResetCause :=
  match p.rcLaw with
  | .recordCause => ⟨kind == .flashFault, kind == .software, rc.forceToApp⟩
  | .keep => rc
  | .uninterpreted => Config.rcAfterReset kind rc

/-- The region a region name stands for (spec/20_memory.md R71). -/
def Params.region (p : Params) : RegionName → Region
  | .app => p.appRegion
  | .param => p.paramRegion

/-! ### Register and port updates -/

/-- `CS <- c` (spec/00_scope.md R11). -/
def State.goto (s : State) (c : CommandState) : State := { s with cs := c }

/-- The model observes an event. -/
def State.emit (s : State) (e : Event) : State := { s with trace := s.trace ++ [e] }

/-- `MemWrite(a, 1, v)` on the flash contents: `FLASH[a] <- FLASH_PROGRAM(a, FLASH[a], v)` (spec/20_memory.md R73). -/
def State.programByte (s : State) (a : Addr) (v : Byte) : State :=
  { s with flash := s.flash.write a.toNat (Params.flashProgram s.params a (s.flash.read a.toNat) v) }

/-- `FlashErase(r)` on the flash contents (spec/20_memory.md R74). -/
def State.eraseRegion (s : State) (r : RegionName) : State :=
  { s with flash := s.flash.fill (Params.region s.params r) s.params.erasedByte }

/-- Which port a transaction is on; aborts and resets are none (spec/10_state.md R50). -/
def Event.port : Event → Option Port
  | .rx _ => some .rx
  | .tx _ => some .tx
  | .memRead _ _ => some .flash
  | .memWrite _ _ => some .flash
  | .flashErase _ => some .flash
  | .imageValid _ => some .flash
  | .sampleFlashFault _ _ => some .rstcause
  | .setSwReset _ => some .rstcause
  | .sampleForce _ => some .force
  | .writeSc _ _ => some .sc
  | .handoff _ => some .handoff
  | .abort _ => none
  | .reset _ => none

/-- The byte an event gives to the output stream. -/
def Event.sentByte : Event → Option Byte
  | .tx b => some b
  | _ => none

/-- The serial output stream: every byte given to `tx`, in order (spec/10_state.md R52, spec/20_memory.md R76). -/
def State.sent (s : State) : List Byte := s.trace.filterMap Event.sentByte

/-! ### Port primitives (spec/00_scope.md R12)

Each takes what the block does with the transaction's result. A step whose port cannot complete holds: it answers the
state unchanged (spec/00_scope.md R15, R16; log 9). -/

/-- A step that takes no transaction and ends in `CS = c`. -/
def goTo (c : CommandState) (s : State) : Outcome := .next (s.goto c)

/-- A hold: nothing changes (spec/00_scope.md R15). -/
def hold (s : State) : Outcome := .next s

/-- `b <- RxByte()`: take the next byte of the serial input, or hold (spec/10_state.md R51). -/
def rxByte (k : Byte → State → Outcome) (s : State) : Outcome :=
  match s.rx with
  | [] => hold s
  | b :: rest => k b ({ s with rx := rest }.emit (.rx b))

/-- `TxByte(b)`: give a byte to the serial output, or hold (spec/10_state.md R52). -/
def txByte (b : Byte) (k : State → Outcome) (s : State) : Outcome :=
  if s.txReady then k (s.emit (.tx b)) else hold s

/-- `b <- MemRead(a, 1)`, or hold (spec/20_memory.md R72). -/
def memRead (a : Addr) (k : Byte → State → Outcome) (s : State) : Outcome :=
  if s.flashReady then k (s.flash.read a.toNat) (s.emit (.memRead a (s.flash.read a.toNat))) else hold s

/-- `MemWrite(a, 1, v)`, or hold (spec/20_memory.md R73). -/
def memWrite (a : Addr) (v : Byte) (k : State → Outcome) (s : State) : Outcome :=
  if s.flashReady then k ((s.programByte a v).emit (.memWrite a v)) else hold s

/-- `FlashErase(r)`, or hold (spec/20_memory.md R74). -/
def flashErase (r : RegionName) (k : State → Outcome) (s : State) : Outcome :=
  if s.flashReady then k ((s.eraseRegion r).emit (.flashErase r)) else hold s

/-- `v <- ImageValid()`, or hold (spec/20_memory.md R75). -/
def imageValid (k : Bool → State → Outcome) (s : State) : Outcome :=
  if s.flashReady then
    k (Params.imageValid s.params s.flash) (s.emit (.imageValid (Params.imageValid s.params s.flash)))
  else hold s

/-- `f <- SampleFlashFault()` (spec/10_state.md R54). -/
def sampleFlashFault (k : Bool → State → Outcome) (s : State) : Outcome :=
  k s.rc.flashFault (s.emit (.sampleFlashFault s.params.rcFlashFaultBit s.rc.flashFault))

/-- `k <- SampleForce()` (spec/10_state.md R55). -/
def sampleForce (k : Bool → State → Outcome) (s : State) : Outcome := k s.force (s.emit (.sampleForce s.force))

/-- `SetSwReset()`: sets `RC.SW_RESET` and asserts the software-reset request (spec/10_state.md R54). -/
def setSwReset (k : State → Outcome) (s : State) : Outcome :=
  k ({ s with rc := { s.rc with swReset := true }, resetRequest := true }.emit (.setSwReset s.params.rcSwResetBit))

/-- `WriteSC(FREQ, v)` (spec/10_state.md R57). -/
def writeScFreq (v : Byte) (k : State → Outcome) (s : State) : Outcome :=
  k ({ s with scFreq := v }.emit (.writeSc s.params.scFreqAddr v))

/-- `WriteSC(VER, v)` (spec/10_state.md R57). -/
def writeScVer (v : Byte) (k : State → Outcome) (s : State) : Outcome :=
  k ({ s with scVer := v }.emit (.writeSc s.params.scVerAddr v))

/-- `Handoff(APP_ENTRY)` (spec/10_state.md R58). -/
def handoff (k : State → Outcome) (s : State) : Outcome := k (s.emit (.handoff s.params.appEntry))

/-! ### The abort: the block's synchronous exception -/

/-- `raise Abort(cause)`: `CS <- IDLE` and nothing else; no state is saved, and there is no return from it
(spec/41_framing_dispatch.md R156, spec/60_exceptions.md R251, R252). The cause goes to the observation only
(spec/00_scope.md R13). -/
def abort (cause : AbortCause) (s : State) : Outcome := .next ((s.emit (.abort cause)).goto .idle)

/-- A terminator step: receive a byte, abort unless it is `EOC` (spec/41_framing_dispatch.md R152 to R154). -/
def takeEoc (cause : AbortCause) (k : State → Outcome) (s : State) : Outcome :=
  rxByte (fun t s => if s.isEoc t then k s else abort cause s) s

/-! ### Steps that commands share -/

/-- Step `PRE_EOC` of a zero-argument command whose handler starts at `c` (spec/41_framing_dispatch.md R152). -/
def preEoc (c : CommandState) (s : State) : Outcome := takeEoc .precheckEoc (goTo c) s

/-- Step `ACK_INSYNC` (spec/41_framing_dispatch.md R159). -/
def ackInsync (s : State) : Outcome := txByte s.params.inSync (goTo .ackOk) s

/-- Step `ACK_OK` (spec/41_framing_dispatch.md R159). -/
def ackOk (s : State) : Outcome := txByte s.params.okByte (goTo .idle) s

/-- `CUR <- CUR + 1`, modulo 2^16 (spec/20_memory.md R83). -/
def State.advance (s : State) : State := { s with cur := s.cur + 1 }

/-- A command asked for a step that is none of its own (log 10). -/
def outOfSequence : Outcome := .fault .outOfSequence

/-! ### The reset: the block's asynchronous event -/

/-- A reset (spec/70_reset_and_hazards.md R280, spec/10_state.md R60): `CS` becomes `BG_FAULT`, the other registers of
the block and the side-channel registers become unspecified (free values, log 7), flash is kept, the reset controller
writes `RC`, and the input stream is kept or lost as `RX_SURVIVES_RESET` says. -/
def takeReset (kind : ResetKind) (s : State) : State :=
  { s with
    cs := .bgFault
    cur := Config.resetWord s.draws 0
    arg := Config.resetWord s.draws 1
    cnt := Config.resetByte s.draws 0
    idx := Config.resetByte s.draws 1
    data := Config.resetByte s.draws 2
    op := Config.resetByte s.draws 3
    scFreq := Config.resetByte s.draws 4
    scVer := Config.resetByte s.draws 5
    buf := (List.range s.params.cap).map fun j => Config.resetByte s.draws (6 + j)
    rc := Params.rcAfterReset s.params kind s.rc
    resetRequest := false
    rx := if s.params.rxSurvivesReset then s.rx else []
    trace := s.trace ++ [.reset kind]
    draws := s.draws + 1 }

/-- One action of the environment (spec/60_exceptions.md R255, R262; log 4). A software reset comes only when one has
been requested. -/
def applyEnv (a : EnvAction) (s : State) : State :=
  match a with
  | .run => s
  | .hostSends b => { s with rx := s.rx ++ [b] }
  | .setTxReady ready => { s with txReady := ready }
  | .setFlashReady ready => { s with flashReady := ready }
  | .setForce active => { s with force := active }
  | .reset kind => if kind = .software ∧ s.resetRequest = false then s else takeReset kind s

end Sys2Proof.Machine
end

