-- ==== Sys2Proof/Machine/Erase.lean ====
section
/-! DEFINITION. `CHIP_ERASE` and `PARAM_ERASE` (spec/43_erase.md). -/

namespace Sys2Proof.Machine

/-- `CHIP_ERASE`: erase the application region (spec/43_erase.md R190). -/
def execChipErase (s : State) : Outcome :=
  match s.cs with
  | .idle => goTo .preEoc s
  | .preEoc => preEoc .ceErase s
  | .ceErase => flashErase .app (goTo .ackInsync) s
  | .ackInsync => ackInsync s
  | .ackOk => ackOk s
  | _ => outOfSequence

/-- `PARAM_ERASE`: erase the parameter region (spec/43_erase.md R191). -/
def execParamErase (s : State) : Outcome :=
  match s.cs with
  | .idle => goTo .preEoc s
  | .preEoc => preEoc .peErase s
  | .peErase => flashErase .param (goTo .ackInsync) s
  | .ackInsync => ackInsync s
  | .ackOk => ackOk s
  | _ => outOfSequence

end Sys2Proof.Machine
end

