-- ==== Sys2Proof/Machine/Multi.lean ====
section
/-! DEFINITION. `PROG_MULTI` and `READ_MULTI` (spec/45_multi.md). -/

namespace Sys2Proof.Machine

/-- `IDX <- IDX + 1` (spec/45_multi.md R220, R221). -/
def State.nextIndex (s : State) : State := { s with idx := s.idx + 1 }

/-- Step `PM_COUNT`: take the count, and check it against `CAP` before any data byte (spec/45_multi.md R220). -/
def progMultiCount (s : State) : Outcome :=
  rxByte
    (fun count s =>
      let s := { s with cnt := count, idx := 0 }
      if s.oversize count then abort .oversize s
      else if count = 0 then goTo .pmEoc s
      else goTo .pmData s) s

/-- Step `PM_DATA`: stage one data byte in `BUF[IDX]` (spec/45_multi.md R220, R223). -/
def progMultiData (s : State) : Outcome :=
  rxByte
    (fun b s =>
      if s.idx.toNat < s.buf.length then
        goTo (if s.lastByte then .pmEoc else .pmData) { s with buf := s.buf.set s.idx.toNat b }.nextIndex
      else .fault .bufferIndex) s

/-- Step `PM_EOC`: the terminator, then the commit phase (spec/45_multi.md R220, R222). -/
def progMultiEoc (s : State) : Outcome :=
  takeEoc .handlerEoc (fun s => goTo (if s.cnt = 0 then .ackInsync else .pmWrite) { s with idx := 0 }) s

/-- Step `PM_WRITE`: program one staged byte at the cursor (spec/45_multi.md R220). -/
def progMultiWrite (s : State) : Outcome :=
  match s.buf[s.idx.toNat]? with
  | some v => memWrite s.cur v (fun s => goTo (if s.lastByte then .ackInsync else .pmWrite) s.advance.nextIndex) s
  | none => .fault .bufferIndex

/-- `PROG_MULTI`: stage up to `CAP` bytes, then program them at consecutive addresses (spec/45_multi.md R220). -/
def execProgMulti (s : State) : Outcome :=
  match s.cs with
  | .idle => goTo .pmCount s
  | .pmCount => progMultiCount s
  | .pmData => progMultiData s
  | .pmEoc => progMultiEoc s
  | .pmWrite => progMultiWrite s
  | .ackInsync => ackInsync s
  | .ackOk => ackOk s
  | _ => outOfSequence

/-- Step `RM_EOC`: the terminator, then the transfer (spec/45_multi.md R221). -/
def readMultiEoc (s : State) : Outcome :=
  takeEoc .handlerEoc (fun s => goTo (if s.cnt = 0 then .ackInsync else .rmRead) { s with idx := 0 }) s

/-- `READ_MULTI`: read and send bytes at consecutive addresses, with no capacity check (spec/45_multi.md R221: "The
bytes are read and sent one at a time, alternately"; log 16 on spec/20_memory.md R86). -/
def execReadMulti (s : State) : Outcome :=
  match s.cs with
  | .idle => goTo .rmCount s
  | .rmCount => rxByte (fun count s => goTo .rmEoc { s with cnt := count }) s
  | .rmEoc => readMultiEoc s
  | .rmRead => memRead s.cur (fun b s => goTo .rmSend { s.advance.nextIndex with data := b }) s
  | .rmSend => txByte s.data (fun s => goTo (if s.allSent then .ackInsync else .rmRead) s) s
  | .ackInsync => ackInsync s
  | .ackOk => ackOk s
  | _ => outOfSequence

end Sys2Proof.Machine
end

