-- ==== Sys2Proof/Machine/Reboot.lean ====
section
/-! DEFINITION. `REBOOT` (spec/46_reboot.md). -/

namespace Sys2Proof.Machine

/-- `REBOOT`: request a software reset; no terminator is consumed and no acknowledgement is sent (spec/46_reboot.md
R240). -/
def execReboot (s : State) : Outcome :=
  match s.cs with
  | .idle => goTo .rbSet s
  | .rbSet => setSwReset (goTo .resetPending) s
  | _ => outOfSequence

end Sys2Proof.Machine
end

