-- ==== Sys2Proof/Machine/Single.lean ====
section
/-! DEFINITION. `LOAD_ADDRESS`, `PROG_FLASH` and `READ_FLASH` (spec/44_cursor_single.md). -/

namespace Sys2Proof.Machine

/-- The write of step `LA_HI`: `ARG[15:8] <- b`, and, only in the variant `LA_EARLY_COMMIT`, the cursor as well
(spec/44_cursor_single.md R200, spec/00_scope.md R6; log 12). -/
def loadHighByte (b : Byte) (s : State) : State :=
  { s with
    arg := setHighByte s.arg b
    cur := if s.params.laEarlyCommit then setHighByte s.arg b else s.cur }

/-- `LOAD_ADDRESS`: set the cursor to `lo | (hi << 8)` (spec/44_cursor_single.md R200). -/
def execLoadAddress (s : State) : Outcome :=
  match s.cs with
  | .idle => goTo .laLo s
  | .laLo => rxByte (fun b s => goTo .laHi { s with arg := setLowByte s.arg b }) s
  | .laHi => rxByte (fun b s => goTo .laEoc (loadHighByte b s)) s
  | .laEoc => takeEoc .handlerEoc (fun s => goTo .ackInsync { s with cur := s.arg }) s
  | .ackInsync => ackInsync s
  | .ackOk => ackOk s
  | _ => outOfSequence

/-- `PROG_FLASH`: program one byte at the cursor, then advance it (spec/44_cursor_single.md R201). -/
def execProgFlash (s : State) : Outcome :=
  match s.cs with
  | .idle => goTo .pfData s
  | .pfData => rxByte (fun b s => goTo .pfEoc { s with data := b }) s
  | .pfEoc => takeEoc .handlerEoc (goTo .pfWrite) s
  | .pfWrite => memWrite s.cur s.data (fun s => goTo .ackInsync s.advance) s
  | .ackInsync => ackInsync s
  | .ackOk => ackOk s
  | _ => outOfSequence

/-- `READ_FLASH`: read one byte at the cursor, advance it and send the byte (spec/44_cursor_single.md R202). -/
def execReadFlash (s : State) : Outcome :=
  match s.cs with
  | .idle => goTo .preEoc s
  | .preEoc => preEoc .rfRead s
  | .rfRead => memRead s.cur (fun b s => goTo .rfSend { s.advance with data := b }) s
  | .rfSend => txByte s.data (goTo .ackInsync) s
  | .ackInsync => ackInsync s
  | .ackOk => ackOk s
  | _ => outOfSequence

end Sys2Proof.Machine
end

