-- ==== Sys2Proof/Machine/Sync.lean ====
section
/-! DEFINITION. `GET_SYNC` and `GET_DEVICE` (spec/42_sync_device.md). In every meaning the step at `IDLE` is the one that
dispatches the command, after its opcode byte has been taken (spec/41_framing_dispatch.md R151). -/

namespace Sys2Proof.Machine

/-- `GET_SYNC`: no operation, acknowledged (spec/42_sync_device.md R180). -/
def execGetSync (s : State) : Outcome :=
  match s.cs with
  | .idle => goTo .preEoc s
  | .preEoc => preEoc .ackInsync s
  | .ackInsync => ackInsync s
  | .ackOk => ackOk s
  | _ => outOfSequence

/-- `GET_DEVICE`: send `BOARD_ID`, then `BOARD_FREQ`, then the acknowledgement (spec/42_sync_device.md R181). -/
def execGetDevice (s : State) : Outcome :=
  match s.cs with
  | .idle => goTo .preEoc s
  | .preEoc => preEoc .gdId s
  | .gdId => txByte s.params.boardId (goTo .gdFreq) s
  | .gdFreq => txByte s.params.boardFreq (goTo .ackInsync) s
  | .ackInsync => ackInsync s
  | .ackOk => ackOk s
  | _ => outOfSequence

end Sys2Proof.Machine
end

