-- ==== Sys2Proof/Machine/Dispatch.lean ====
section
/-! DEFINITION. One arm per command: its meaning. -/

namespace Sys2Proof.Machine

/-- The step of command `i` at the state's `CS` (spec/41_framing_dispatch.md R170). -/
def exec (i : Instr) (s : State) : Host.Outcome State Fault Refusal :=
  match i with
  | .getSync => Sys2Proof.Machine.execGetSync s
  | .getDevice => Sys2Proof.Machine.execGetDevice s
  | .chipErase => Sys2Proof.Machine.execChipErase s
  | .loadAddress => Sys2Proof.Machine.execLoadAddress s
  | .progFlash => Sys2Proof.Machine.execProgFlash s
  | .readFlash => Sys2Proof.Machine.execReadFlash s
  | .progMulti => Sys2Proof.Machine.execProgMulti s
  | .readMulti => Sys2Proof.Machine.execReadMulti s
  | .paramErase => Sys2Proof.Machine.execParamErase s
  | .reboot => Sys2Proof.Machine.execReboot s

end Sys2Proof.Machine
end

