-- ==== Sys2Proof/Machine/BootGate.lean ====
section
/-! DEFINITION. The boot-gate multiplexer: one step per state of mode `BOOT` (spec/40_boot_gate.md). -/

namespace Sys2Proof.Machine

/-- Step `BG_FAULT` (spec/40_boot_gate.md R131). -/
def bootFault (s : State) : Outcome := sampleFlashFault (fun f => goTo (if f then .bgEnterCmd else .bgValid)) s

/-- Step `BG_VALID` (spec/40_boot_gate.md R132). -/
def bootValid (s : State) : Outcome := imageValid (fun v => goTo (if v then .bgForce else .bgEnterCmd)) s

/-- Step `BG_FORCE` (spec/40_boot_gate.md R133). -/
def bootForce (s : State) : Outcome := sampleForce (fun k => goTo (if k then .bgEnterCmd else .bgScFreq)) s

/-- Step `BG_SC_FREQ` (spec/40_boot_gate.md R134). -/
def bootScFreq (s : State) : Outcome := writeScFreq s.params.boardFreq (goTo .bgScVer) s

/-- Step `BG_SC_VER` (spec/40_boot_gate.md R134). -/
def bootScVer (s : State) : Outcome := writeScVer s.params.blVersion (goTo .bgJump) s

/-- Step `BG_JUMP` (spec/40_boot_gate.md R134). -/
def bootJump (s : State) : Outcome := handoff (goTo .handedOff) s

/-- Step `BG_ENTER_CMD`: `CUR <- 0` and into the command loop (spec/40_boot_gate.md R135). -/
def bootEnterCmd (s : State) : Outcome := goTo .idle { s with cur := 0 }

end Sys2Proof.Machine
end

