-- ==== Sys2Proof/Machine/Framer.lean ====
section
/-! DEFINITION. The command framer and dispatcher: taking and classifying opcode bytes, and which command owns the step
at each `CS` (spec/41_framing_dispatch.md R150 to R152, R170). -/

namespace Sys2Proof.Machine

/-- What the block does at a step: a step of a command, in the state it starts from, or a step already settled. -/
inductive Turn where
  | command (i : Instr) (s : State)
  | settled (o : Outcome)

/-- `b <- RxByte();  OP <- b` of step `IDLE` (spec/41_framing_dispatch.md R151): the state with the byte taken. -/
def State.takeOpcode (s : State) (b : Byte) (rest : List Byte) : State :=
  { s with rx := rest, op := b }.emit (.rx b)

/-- Step `IDLE`: receive and classify an opcode byte (spec/41_framing_dispatch.md R151, R157). -/
def intake (s : State) : Turn :=
  match s.rx with
  | [] => .settled (hold s)
  | b :: rest =>
    match s.params.classify b with
    | some i => .command i (s.takeOpcode b rest)
    | none => .settled (abort .invalidOpcode (s.takeOpcode b rest))

/-- Step `PRE_EOC`: the handler is chosen by `OP` (spec/41_framing_dispatch.md R152). -/
def precheck (s : State) : Turn :=
  match s.params.classify s.op with
  | some i => .command i s
  | none => .settled (.fault .preEocOpcode)

/-- The block's next step, by `CS` (spec/41_framing_dispatch.md R170). In `HANDED_OFF` and `RESET_PENDING` there is no
step: nothing changes (spec/40_boot_gate.md R136, spec/46_reboot.md R241; log 9). -/
def blockTurn (s : State) : Turn :=
  match s.cs with
  | .bgFault => .settled (bootFault s)
  | .bgValid => .settled (bootValid s)
  | .bgForce => .settled (bootForce s)
  | .bgScFreq => .settled (bootScFreq s)
  | .bgScVer => .settled (bootScVer s)
  | .bgJump => .settled (bootJump s)
  | .bgEnterCmd => .settled (bootEnterCmd s)
  | .idle => intake s
  | .preEoc => precheck s
  | .gdId => .command .getDevice s
  | .gdFreq => .command .getDevice s
  | .ceErase => .command .chipErase s
  | .peErase => .command .paramErase s
  | .rfRead => .command .readFlash s
  | .rfSend => .command .readFlash s
  | .laLo => .command .loadAddress s
  | .laHi => .command .loadAddress s
  | .laEoc => .command .loadAddress s
  | .pfData => .command .progFlash s
  | .pfEoc => .command .progFlash s
  | .pfWrite => .command .progFlash s
  | .pmCount => .command .progMulti s
  | .pmData => .command .progMulti s
  | .pmEoc => .command .progMulti s
  | .pmWrite => .command .progMulti s
  | .rmCount => .command .readMulti s
  | .rmEoc => .command .readMulti s
  | .rmRead => .command .readMulti s
  | .rmSend => .command .readMulti s
  | .rbSet => .command .reboot s
  | .ackInsync => .settled (ackInsync s)
  | .ackOk => .settled (ackOk s)
  | .handedOff => .settled (hold s)
  | .resetPending => .settled (hold s)

/-- The block's step, under the launch premise on its parameters (spec/70_reset_and_hazards.md R282; log 11). -/
def launchedTurn (s : State) : Turn := if s.params.wf then blockTurn s else .settled (.refused .launchPremise)

/-- The machine's next turn: the environment's next action, or the block's step (log 4). -/
def nextTurn (s : State) : Turn :=
  match s.env with
  | [] => launchedTurn s
  | .run :: rest => launchedTurn { s with env := rest }
  | a :: rest => .settled (.next (applyEnv a { s with env := rest }))

/-- The state in which the next step takes the given bytes from `rx` as a new frame: in the command loop, the block's
turn, the bytes at the head of the input stream. -/
def State.withRxBytes (s : State) (bytes : List Byte) : State := { s with cs := .idle, env := [], rx := bytes ++ s.rx }

end Sys2Proof.Machine
end

