-- ==== Sys2Proof/Machine/Step.lean ====
section
/-! DEFINITION. One step of the machine, and placing an instruction where the next step takes it. -/

namespace Sys2Proof.Machine

/-- What a turn leads to: the step of its command, or what is already settled. -/
def Turn.outcome : Turn → Host.Outcome State Fault Refusal
  | .command i s => exec i s
  | .settled o => o

/-- One step: a transaction of the block, or one action of the environment (spec/00_scope.md R5, R15). -/
def step (s : State) : Host.Outcome State Fault Refusal := (nextTurn s).outcome

/-- `s` about to take the given table word as a new frame: the host has sent its bytes, and the block is in its command
loop. -/
def State.withFetchWord (s : State) (nbits w : Nat) : State := s.withRxBytes (tableBytes (nbits / 8) w)

end Sys2Proof.Machine
end

