-- ==== Sys2Proof/Safety.lean ====
section
/-! DEFINITION. What counts as a state of a running machine: the invariant `State.Inv`, and the words claims use about
what a step did. -/

namespace Sys2Proof.Machine

/-- What holds of the registers in each command state (spec/41_framing_dispatch.md R152, spec/45_multi.md R220, R221,
R223, spec/46_reboot.md R240): in `PRE_EOC` the opcode register holds a zero-argument opcode; in a multi-byte command
the index does not exceed the count, and the count of `PROG_MULTI` not `CAP`; `RESET_PENDING` goes with a pending
software-reset request. -/
def State.PhaseInv (s : State) : Prop :=
  match s.cs with
  | .preEoc => (s.params.classify s.op).map Instr.format = some .z
  | .pmData => s.cnt.toNat ≤ s.params.cap ∧ s.idx < s.cnt
  | .pmEoc => s.cnt.toNat ≤ s.params.cap ∧ s.idx = s.cnt
  | .pmWrite => s.cnt.toNat ≤ s.params.cap ∧ s.idx < s.cnt
  | .rmRead => s.idx < s.cnt
  | .rmSend => 0 < s.idx ∧ s.idx ≤ s.cnt
  | .resetPending => s.resetRequest = true
  | _ => True

/-- The invariant of the machine: the launch premise on the parameters, canonical flash contents, a transfer buffer of
`CAP` bytes, a pending reset request only in `RESET_PENDING` (which a reset keeps only as log 8 reads it: the reset clears
the request), and `State.PhaseInv`. -/
structure State.Inv (s : State) : Prop where
  params : s.params.wf = true
  flash : s.flash.wf
  buf : s.buf.length = s.params.cap
  request : s.resetRequest = true → s.cs = .resetPending
  phase : s.PhaseInv

/-- The transactions of the block among some events: those on a port (spec/00_scope.md R5). -/
def transactions (es : List Event) : List Event := es.filter fun e => e.port.isSome

/-- The port of the transaction in each command state (the third column of spec/10_state.md R32's table). -/
def CommandState.port : CommandState → Option Port
  | .bgFault => some .rstcause
  | .bgValid => some .flash
  | .bgForce => some .force
  | .bgScFreq | .bgScVer => some .sc
  | .bgJump => some .handoff
  | .idle | .preEoc | .laLo | .laHi | .laEoc | .pfData | .pfEoc | .pmCount | .pmData | .pmEoc | .rmCount | .rmEoc => some .rx
  | .gdId | .gdFreq | .rfSend | .rmSend | .ackInsync | .ackOk => some .tx
  | .ceErase | .peErase | .rfRead | .pfWrite | .pmWrite | .rmRead => some .flash
  | .rbSet => some .rstcause
  | .bgEnterCmd | .handedOff | .resetPending => none

/-- The states from which the block takes no step until something outside it changes: its port cannot complete the
transaction (spec/00_scope.md R15), or it has no step at all (spec/40_boot_gate.md R136, spec/46_reboot.md R241). -/
def State.waits (s : State) : Bool :=
  match s.cs.port with
  | some .rx => s.rx.isEmpty
  | some .tx => !s.txReady
  | some .flash => !s.flashReady
  | _ => s.cs == .handedOff || s.cs == .resetPending

/-- The states of a frame after its terminator has been received and found good: the rest of its handler and the
acknowledgement (spec/41_framing_dispatch.md R163). -/
def CommandState.committed : CommandState → Bool
  | .gdId | .gdFreq | .ceErase | .peErase | .rfRead | .rfSend | .pfWrite | .pmWrite | .rmRead | .rmSend => true
  | .ackInsync | .ackOk => true
  | _ => false

/-- The port readiness under which no step of the block but a receive step can hold (spec/10_state.md R52,
spec/60_exceptions.md R261), with nothing pending from the environment. -/
structure State.Ready (s : State) : Prop where
  launched : s.params.wf = true
  env : s.env = []
  tx : s.txReady = true
  flash : s.flashReady = true

/-- The state in which the block takes its step when this step is the block's: nothing pending from the environment, or
its `run` mark taken off (log 4). -/
def State.blockState (s : State) : Option State :=
  match s.env with
  | [] => some s
  | .run :: rest => some { s with env := rest }
  | _ => none

/-- `n` steps lead from `s` to `t`. -/
def Reaches : Nat → State → State → Prop
  | 0, s, t => t = s
  | n + 1, s, t => ∃ u, step s = .next u ∧ Reaches n u t

/-! ### What a whole well-formed frame does, in the words of the command rules -/

/-- Programming bytes one after another from an address on (spec/20_memory.md R73, R79). -/
def programAll (p : Params) : Memory → Addr → List Byte → Memory
  | m, _, [] => m
  | m, a, v :: vs => programAll p (m.write a.toNat (Params.flashProgram p a (m.read a.toNat) v)) (a + 1) vs

/-- The bytes at `n` consecutive addresses from `a` on, modulo 2^16 (spec/20_memory.md R79). -/
def bytesAt (m : Memory) (a : Addr) (n : Nat) : List Byte :=
  (List.range n).map fun j => m.read (a + BitVec.ofNat 16 j).toNat

/-- The count of a multi-byte frame, 0 for every other frame (spec/30_encoding.md R111). -/
def transferCount (f : Frame) : Nat := (Frame.count f).getD 0

/-- The cursor after a frame (spec/10_state.md R33). -/
def State.cursorAfter (s : State) (f : Frame) : Addr :=
  match f.instr with
  | .loadAddress => (Frame.address f).getD s.cur
  | .progFlash => s.cur + 1
  | .readFlash => s.cur + 1
  | .progMulti => s.cur + BitVec.ofNat 16 (transferCount f)
  | .readMulti => s.cur + BitVec.ofNat 16 (transferCount f)
  | _ => s.cur

/-- Flash after a frame (spec/43_erase.md R190, R191; spec/44_cursor_single.md R201; spec/45_multi.md R220). -/
def State.flashAfter (s : State) (f : Frame) : Memory :=
  match f.instr with
  | .chipErase => s.flash.fill s.params.appRegion s.params.erasedByte
  | .paramErase => s.flash.fill s.params.paramRegion s.params.erasedByte
  | .progFlash => programAll s.params s.flash s.cur f.payload
  | .progMulti => programAll s.params s.flash s.cur f.payload
  | _ => s.flash

/-- The acknowledgement (spec/30_encoding.md R113). -/
def Params.ack (p : Params) : List Byte := [p.inSync, p.okByte]

/-- The response to a frame (the table of spec/30_encoding.md R113). -/
def State.response (s : State) (f : Frame) : List Byte :=
  match f.instr with
  | .getDevice => [s.params.boardId, s.params.boardFreq] ++ Params.ack s.params
  | .readFlash => bytesAt s.flash s.cur 1 ++ Params.ack s.params
  | .readMulti => bytesAt s.flash s.cur (transferCount f) ++ Params.ack s.params
  | .reboot => []
  | _ => Params.ack s.params

/-- The program requests of a payload, in order, from an address on (spec/20_memory.md R79). -/
def programEvents (a : Addr) : List Byte → List Event
  | [] => []
  | v :: vs => .memWrite a v :: programEvents (a + 1) vs

/-- The reads of `n` consecutive addresses from `a` on, each followed by the byte it sends (spec/45_multi.md R221). -/
def readEvents (m : Memory) (a : Addr) : Nat → List Event
  | 0 => []
  | n + 1 => .memRead a (m.read a.toNat) :: .tx (m.read a.toNat) :: readEvents m (a + 1) n

/-- What a frame's handler does on the ports before the acknowledgement (the command rules R180 to R240). -/
def State.handlerEvents (s : State) (f : Frame) : List Event :=
  match f.instr with
  | .getSync => []
  | .getDevice => [.tx s.params.boardId, .tx s.params.boardFreq]
  | .chipErase => [.flashErase .app]
  | .loadAddress => []
  | .progFlash => programEvents s.cur f.payload
  | .readFlash => readEvents s.flash s.cur 1
  | .progMulti => programEvents s.cur f.payload
  | .readMulti => readEvents s.flash s.cur (transferCount f)
  | .paramErase => [.flashErase .param]
  | .reboot => [.setSwReset s.params.rcSwResetBit]

/-- All transactions of a well-formed frame, in order: its bytes, its handler's, and the acknowledgement that every
command but `REBOOT` ends with (spec/20_memory.md R86; inside `READ_MULTI` bytes are read and sent alternately, spec/45_multi.md R221, log 16). -/
def State.frameEvents (s : State) (f : Frame) : List Event :=
  (encode s.params f).map .rx ++ s.handlerEvents f ++ (if f.instr = .reboot then [] else (Params.ack s.params).map .tx)

/-- How many steps the block takes for a frame, from its opcode byte on (the "steps" of spec/95_test_vectors.md). -/
def frameSteps (f : Frame) : Nat :=
  match f.instr with
  | .getSync => 4
  | .chipErase => 5
  | .paramErase => 5
  | .progMulti => 2 * transferCount f + 5
  | .readMulti => 2 * transferCount f + 5
  | .reboot => 2
  | _ => 6

/-- The transition table of spec/41_framing_dispatch.md R170, row by row and independent of the meanings: `Row s t` says
that one of its rows leads from `s` to `t`. (`LA_HI` has the variant of `LA_EARLY_COMMIT` as a row of its own, log 12.) -/
inductive Row (s : State) : State → Prop
  | bgFaultSet : s.cs = .bgFault → s.rc.flashFault = true →
      Row s { s with cs := .bgEnterCmd, trace := s.trace ++ [.sampleFlashFault s.params.rcFlashFaultBit true] }
  | bgFaultClear : s.cs = .bgFault → s.rc.flashFault = false →
      Row s { s with cs := .bgValid, trace := s.trace ++ [.sampleFlashFault s.params.rcFlashFaultBit false] }
  | bgValidTrue : s.cs = .bgValid → s.flashReady = true → Params.imageValid s.params s.flash = true →
      Row s { s with cs := .bgForce, trace := s.trace ++ [.imageValid true] }
  | bgValidFalse : s.cs = .bgValid → s.flashReady = true → Params.imageValid s.params s.flash = false →
      Row s { s with cs := .bgEnterCmd, trace := s.trace ++ [.imageValid false] }
  | bgForceActive : s.cs = .bgForce → s.force = true →
      Row s { s with cs := .bgEnterCmd, trace := s.trace ++ [.sampleForce true] }
  | bgForceInactive : s.cs = .bgForce → s.force = false →
      Row s { s with cs := .bgScFreq, trace := s.trace ++ [.sampleForce false] }
  | bgScFreq : s.cs = .bgScFreq →
      Row s { s with cs := .bgScVer, scFreq := s.params.boardFreq,
                     trace := s.trace ++ [.writeSc s.params.scFreqAddr s.params.boardFreq] }
  | bgScVer : s.cs = .bgScVer →
      Row s { s with cs := .bgJump, scVer := s.params.blVersion,
                     trace := s.trace ++ [.writeSc s.params.scVerAddr s.params.blVersion] }
  | bgJump : s.cs = .bgJump →
      Row s { s with cs := .handedOff, trace := s.trace ++ [.handoff s.params.appEntry] }
  | bgEnterCmd : s.cs = .bgEnterCmd → Row s { s with cs := .idle, cur := 0 }
  | idle (b : Byte) (rest : List Byte) (i : Instr) (c : CommandState) : s.cs = .idle → s.rx = b :: rest →
      b = s.params.opcode i →
      c = (match i with
        | .loadAddress => .laLo
        | .progFlash => .pfData
        | .progMulti => .pmCount
        | .readMulti => .rmCount
        | .reboot => .rbSet
        | _ => .preEoc) →
      Row s { s with cs := c, op := b, rx := rest, trace := s.trace ++ [.rx b] }
  | idleInvalid (b : Byte) (rest : List Byte) : s.cs = .idle → s.rx = b :: rest → (∀ i, b ≠ s.params.opcode i) →
      Row s { s with cs := .idle, op := b, rx := rest, trace := s.trace ++ [.rx b, .abort .invalidOpcode] }
  | preEocBad (t : Byte) (rest : List Byte) : s.cs = .preEoc → s.rx = t :: rest → t ≠ s.params.eoc →
      Row s { s with cs := .idle, rx := rest, trace := s.trace ++ [.rx t, .abort .precheckEoc] }
  | preEocGood (t : Byte) (rest : List Byte) (i : Instr) (c : CommandState) : s.cs = .preEoc → s.rx = t :: rest →
      t = s.params.eoc → s.op = s.params.opcode i →
      (i, c) ∈ [(Instr.getSync, CommandState.ackInsync), (.getDevice, .gdId), (.chipErase, .ceErase),
        (.paramErase, .peErase), (.readFlash, .rfRead)] →
      Row s { s with cs := c, rx := rest, trace := s.trace ++ [.rx t] }
  | gdId : s.cs = .gdId → s.txReady = true →
      Row s { s with cs := .gdFreq, trace := s.trace ++ [.tx s.params.boardId] }
  | gdFreq : s.cs = .gdFreq → s.txReady = true →
      Row s { s with cs := .ackInsync, trace := s.trace ++ [.tx s.params.boardFreq] }
  | ceErase : s.cs = .ceErase → s.flashReady = true →
      Row s { s with cs := .ackInsync, flash := s.flash.fill s.params.appRegion s.params.erasedByte,
                     trace := s.trace ++ [.flashErase .app] }
  | peErase : s.cs = .peErase → s.flashReady = true →
      Row s { s with cs := .ackInsync, flash := s.flash.fill s.params.paramRegion s.params.erasedByte,
                     trace := s.trace ++ [.flashErase .param] }
  | rfRead : s.cs = .rfRead → s.flashReady = true →
      Row s { s with cs := .rfSend, data := s.flash.read s.cur.toNat, cur := s.cur + 1,
                     trace := s.trace ++ [.memRead s.cur (s.flash.read s.cur.toNat)] }
  | rfSend : s.cs = .rfSend → s.txReady = true →
      Row s { s with cs := .ackInsync, trace := s.trace ++ [.tx s.data] }
  | laLo (b : Byte) (rest : List Byte) : s.cs = .laLo → s.rx = b :: rest →
      Row s { s with cs := .laHi, arg := setLowByte s.arg b, rx := rest, trace := s.trace ++ [.rx b] }
  | laHi (b : Byte) (rest : List Byte) : s.cs = .laHi → s.rx = b :: rest → s.params.laEarlyCommit = false →
      Row s { s with cs := .laEoc, arg := setHighByte s.arg b, rx := rest, trace := s.trace ++ [.rx b] }
  | laHiEarly (b : Byte) (rest : List Byte) : s.cs = .laHi → s.rx = b :: rest → s.params.laEarlyCommit = true →
      Row s { s with cs := .laEoc, arg := setHighByte s.arg b, cur := setHighByte s.arg b, rx := rest,
                     trace := s.trace ++ [.rx b] }
  | laEocBad (t : Byte) (rest : List Byte) : s.cs = .laEoc → s.rx = t :: rest → t ≠ s.params.eoc →
      Row s { s with cs := .idle, rx := rest, trace := s.trace ++ [.rx t, .abort .handlerEoc] }
  | laEocGood (t : Byte) (rest : List Byte) : s.cs = .laEoc → s.rx = t :: rest → t = s.params.eoc →
      Row s { s with cs := .ackInsync, cur := s.arg, rx := rest, trace := s.trace ++ [.rx t] }
  | pfData (b : Byte) (rest : List Byte) : s.cs = .pfData → s.rx = b :: rest →
      Row s { s with cs := .pfEoc, data := b, rx := rest, trace := s.trace ++ [.rx b] }
  | pfEocBad (t : Byte) (rest : List Byte) : s.cs = .pfEoc → s.rx = t :: rest → t ≠ s.params.eoc →
      Row s { s with cs := .idle, rx := rest, trace := s.trace ++ [.rx t, .abort .handlerEoc] }
  | pfEocGood (t : Byte) (rest : List Byte) : s.cs = .pfEoc → s.rx = t :: rest → t = s.params.eoc →
      Row s { s with cs := .pfWrite, rx := rest, trace := s.trace ++ [.rx t] }
  | pfWrite : s.cs = .pfWrite → s.flashReady = true →
      Row s { s with
        cs := .ackInsync
        flash := s.flash.write s.cur.toNat (Params.flashProgram s.params s.cur (s.flash.read s.cur.toNat) s.data)
        cur := s.cur + 1
        trace := s.trace ++ [.memWrite s.cur s.data] }
  | pmCountOver (c : Byte) (rest : List Byte) : s.cs = .pmCount → s.rx = c :: rest → s.params.cap < c.toNat →
      Row s { s with cs := .idle, cnt := c, idx := 0, rx := rest, trace := s.trace ++ [.rx c, .abort .oversize] }
  | pmCountZero (c : Byte) (rest : List Byte) : s.cs = .pmCount → s.rx = c :: rest → c = 0 →
      Row s { s with cs := .pmEoc, cnt := c, idx := 0, rx := rest, trace := s.trace ++ [.rx c] }
  | pmCount (c : Byte) (rest : List Byte) : s.cs = .pmCount → s.rx = c :: rest → 1 ≤ c.toNat → c.toNat ≤ s.params.cap →
      Row s { s with cs := .pmData, cnt := c, idx := 0, rx := rest, trace := s.trace ++ [.rx c] }
  | pmDataLast (b : Byte) (rest : List Byte) : s.cs = .pmData → s.rx = b :: rest → s.idx.toNat + 1 = s.cnt.toNat →
      Row s { s with cs := .pmEoc, buf := s.buf.set s.idx.toNat b, idx := s.idx + 1, rx := rest,
                     trace := s.trace ++ [.rx b] }
  | pmData (b : Byte) (rest : List Byte) : s.cs = .pmData → s.rx = b :: rest → s.idx.toNat + 1 < s.cnt.toNat →
      Row s { s with cs := .pmData, buf := s.buf.set s.idx.toNat b, idx := s.idx + 1, rx := rest,
                     trace := s.trace ++ [.rx b] }
  | pmEocBad (t : Byte) (rest : List Byte) : s.cs = .pmEoc → s.rx = t :: rest → t ≠ s.params.eoc →
      Row s { s with cs := .idle, rx := rest, trace := s.trace ++ [.rx t, .abort .handlerEoc] }
  | pmEocZero (t : Byte) (rest : List Byte) : s.cs = .pmEoc → s.rx = t :: rest → t = s.params.eoc → s.cnt = 0 →
      Row s { s with cs := .ackInsync, idx := 0, rx := rest, trace := s.trace ++ [.rx t] }
  | pmEocGood (t : Byte) (rest : List Byte) : s.cs = .pmEoc → s.rx = t :: rest → t = s.params.eoc → 0 < s.cnt.toNat →
      Row s { s with cs := .pmWrite, idx := 0, rx := rest, trace := s.trace ++ [.rx t] }
  | pmWriteLast (v : Byte) : s.cs = .pmWrite → s.flashReady = true → s.buf[s.idx.toNat]? = some v →
      s.idx.toNat + 1 = s.cnt.toNat →
      Row s { s with
        cs := .ackInsync
        flash := s.flash.write s.cur.toNat (Params.flashProgram s.params s.cur (s.flash.read s.cur.toNat) v)
        cur := s.cur + 1
        idx := s.idx + 1
        trace := s.trace ++ [.memWrite s.cur v] }
  | pmWrite (v : Byte) : s.cs = .pmWrite → s.flashReady = true → s.buf[s.idx.toNat]? = some v →
      s.idx.toNat + 1 < s.cnt.toNat →
      Row s { s with
        cs := .pmWrite
        flash := s.flash.write s.cur.toNat (Params.flashProgram s.params s.cur (s.flash.read s.cur.toNat) v)
        cur := s.cur + 1
        idx := s.idx + 1
        trace := s.trace ++ [.memWrite s.cur v] }
  | rmCount (c : Byte) (rest : List Byte) : s.cs = .rmCount → s.rx = c :: rest →
      Row s { s with cs := .rmEoc, cnt := c, rx := rest, trace := s.trace ++ [.rx c] }
  | rmEocBad (t : Byte) (rest : List Byte) : s.cs = .rmEoc → s.rx = t :: rest → t ≠ s.params.eoc →
      Row s { s with cs := .idle, rx := rest, trace := s.trace ++ [.rx t, .abort .handlerEoc] }
  | rmEocZero (t : Byte) (rest : List Byte) : s.cs = .rmEoc → s.rx = t :: rest → t = s.params.eoc → s.cnt = 0 →
      Row s { s with cs := .ackInsync, idx := 0, rx := rest, trace := s.trace ++ [.rx t] }
  | rmEocGood (t : Byte) (rest : List Byte) : s.cs = .rmEoc → s.rx = t :: rest → t = s.params.eoc → 0 < s.cnt.toNat →
      Row s { s with cs := .rmRead, idx := 0, rx := rest, trace := s.trace ++ [.rx t] }
  | rmRead : s.cs = .rmRead → s.flashReady = true →
      Row s { s with cs := .rmSend, data := s.flash.read s.cur.toNat, cur := s.cur + 1, idx := s.idx + 1,
                     trace := s.trace ++ [.memRead s.cur (s.flash.read s.cur.toNat)] }
  | rmSendLast : s.cs = .rmSend → s.txReady = true → s.idx = s.cnt →
      Row s { s with cs := .ackInsync, trace := s.trace ++ [.tx s.data] }
  | rmSend : s.cs = .rmSend → s.txReady = true → s.idx.toNat < s.cnt.toNat →
      Row s { s with cs := .rmRead, trace := s.trace ++ [.tx s.data] }
  | rbSet : s.cs = .rbSet →
      Row s { s with cs := .resetPending, rc := { s.rc with swReset := true }, resetRequest := true,
                     trace := s.trace ++ [.setSwReset s.params.rcSwResetBit] }
  | ackInsync : s.cs = .ackInsync → s.txReady = true →
      Row s { s with cs := .ackOk, trace := s.trace ++ [.tx s.params.inSync] }
  | ackOk : s.cs = .ackOk → s.txReady = true →
      Row s { s with cs := .idle, trace := s.trace ++ [.tx s.params.okByte] }

end Sys2Proof.Machine
end

