-- ==== Sys2Proof/Certificates/Slice0/Obligations.lean ====
section
/-! DEFINITION. The statements for the provers. Each is about every state, or about every state that meets the premises
it names; none is about a program. -/

open Sys2Proof Sys2Proof.Machine

/-! ### Bytes and commands -/

/-- The ten opcode bytes of spec/30_encoding.md R114, and one frame of each format, written out byte by byte. The values
are the defaults of log 3 (PRESUMED), so this is about `Params.default` only. -/
def Obligations.OpcodeWordsDecode : Prop :=
  decodeTableWord 8 0x21 = some .getSync ∧ decodeTableWord 8 0x22 = some .getDevice ∧
  decodeTableWord 8 0x23 = some .chipErase ∧ decodeTableWord 8 0x24 = some .loadAddress ∧
  decodeTableWord 8 0x25 = some .progFlash ∧ decodeTableWord 8 0x26 = some .readFlash ∧
  decodeTableWord 8 0x27 = some .progMulti ∧ decodeTableWord 8 0x28 = some .readMulti ∧
  decodeTableWord 8 0x29 = some .paramErase ∧ decodeTableWord 8 0x30 = some .reboot ∧
  decode Params.default [0x24, 0x34, 0x12, 0x20] = .frame ⟨.loadAddress, [0x34, 0x12]⟩ [] ∧
  decode Params.default [0x27, 0x02, 0xAA, 0x20, 0x20] = .frame ⟨.progMulti, [0x02, 0xAA, 0x20]⟩ [] ∧
  decode Params.default [0x28, 0x21, 0x20] = .frame ⟨.readMulti, [0x21]⟩ [] ∧
  decode Params.default [0x25, 0x20, 0x20] = .frame ⟨.progFlash, [0x20]⟩ [] ∧
  decode Params.default [0x26, 0x20] = .frame ⟨.readFlash, []⟩ [] ∧
  decode Params.default [0x30, 0x20] = .frame ⟨.reboot, []⟩ [0x20]

/-- Classification (R102): under the launch premise a byte is classified as a command exactly when it is that command's
opcode, so exactly one case applies to each byte value; every other byte is INVALID (R115). -/
def Obligations.ClassifyExact : Prop :=
  ∀ p : Params, p.wf = true → ∀ b : Byte,
    (∀ i, p.classify b = some i ↔ b = p.opcode i) ∧ (p.classify b = none ↔ ∀ i, b ≠ p.opcode i)

/-- Decode and encode agree (R103 to R109): the bytes of any well-formed frame, whatever follows them, decode to that
frame and leave exactly what follows. -/
def Obligations.DecodeEncode : Prop :=
  ∀ p : Params, p.wf = true → ∀ f : Frame, f.wf p.cap = true → ∀ rest, decode p (encode p f ++ rest) = .frame f rest

/-- The other direction: what decodes to a frame begins with the bytes of that frame; the frame is well formed and has
the length R109 gives its format. -/
def Obligations.DecodedFrameIsEncoded : Prop :=
  ∀ (p : Params) (bytes rest : List Byte) (f : Frame), decode p bytes = .frame f rest →
    bytes = encode p f ++ rest ∧ f.wf p.cap = true ∧ (encode p f).length = f.wireLength

/-- What an abort has consumed (R109, R250): an INVALID byte alone; two bytes with a bad terminator; a handler-checked
frame up to and including the byte that should have been `EOC`; an opcode and a count above `CAP`. -/
def Obligations.AbortedFrameBytes : Prop :=
  ∀ (p : Params) (bytes rest : List Byte) (cause : AbortCause), decode p bytes = .abort cause rest →
    match cause with
    | .invalidOpcode => ∃ b, bytes = b :: rest ∧ p.classify b = none
    | .precheckEoc => ∃ i t, i.format = .z ∧ bytes = p.opcode i :: t :: rest ∧ t ≠ p.eoc
    | .handlerEoc => ∃ (f : Frame) (t : Byte), f.wf p.cap = true ∧ f.instr.format.regime = .handler ∧ t ≠ p.eoc ∧
        bytes = p.opcode f.instr :: (f.args ++ t :: rest)
    | .oversize => ∃ count, bytes = p.opcode .progMulti :: count :: rest ∧ p.cap < count.toNat

/-- The address operand (R110): `{hi, lo}`, with `lo` frame byte 1 and `hi` frame byte 2; the two steps that load `ARG`
assemble the same value, whatever `ARG` held. -/
def Obligations.AddressOperand : Prop :=
  ∀ lo hi : Byte, assemble lo hi = hi ++ lo ∧
    (⟨.loadAddress, [lo, hi]⟩ : Frame).address = some (assemble lo hi) ∧
    (assemble lo hi).toNat = lo.toNat + 256 * hi.toNat ∧
    ∀ old : Addr, setHighByte (setLowByte old lo) hi = assemble lo hi

/-! ### The step and the instruction -/

/-- A step runs the decoded instruction (R151): when the byte at the head of `rx` is a command's opcode, the step in
`IDLE` takes the byte, writes it to `OP` and is `exec` of that command; in `PRE_EOC` the command is the one `OP` holds
(R152). -/
def Obligations.StepRunsDecodedInstruction : Prop :=
  ∀ s u : State, s.params.wf = true → s.blockState = some u →
    (∀ b rest i, u.cs = .idle → u.rx = b :: rest → u.params.classify b = some i →
      step s = exec i (u.takeOpcode b rest)) ∧
    (∀ i, u.cs = .preEoc → u.params.classify u.op = some i → step s = exec i u)

/-- In every other state of a command the step is `exec` of the command that owns the state (R32), and in the two
acknowledgement states it is `exec` of any command but `REBOOT`. -/
def Obligations.HandlerStepsRunTheirCommand : Prop :=
  ∀ s u : State, s.params.wf = true → s.blockState = some u →
    (u.cs ∈ [.gdId, .gdFreq] → step s = exec .getDevice u) ∧
    (u.cs = .ceErase → step s = exec .chipErase u) ∧
    (u.cs = .peErase → step s = exec .paramErase u) ∧
    (u.cs ∈ [.rfRead, .rfSend] → step s = exec .readFlash u) ∧
    (u.cs ∈ [.laLo, .laHi, .laEoc] → step s = exec .loadAddress u) ∧
    (u.cs ∈ [.pfData, .pfEoc, .pfWrite] → step s = exec .progFlash u) ∧
    (u.cs ∈ [.pmCount, .pmData, .pmEoc, .pmWrite] → step s = exec .progMulti u) ∧
    (u.cs ∈ [.rmCount, .rmEoc, .rmRead, .rmSend] → step s = exec .readMulti u) ∧
    (u.cs = .rbSet → step s = exec .reboot u) ∧
    (∀ i, i ≠ .reboot → u.cs ∈ [.ackInsync, .ackOk] → step s = exec i u)

/-- The launch premise (R282; D5: a configuration with duplicate opcodes "is refused as a launch premise"): the block
takes no step under parameters that break it. Model's choice of when to check: log 11. -/
def Obligations.LaunchPremiseRefused : Prop :=
  ∀ s u : State, s.params.wf = false → s.blockState = some u → step s = .refused .launchPremise

/-! ### Invariants of the machine -/

/-- The invariant holds at reset, with the parameter and register values of logs 3, 5 and 6 and no reset request pending
(log 8). -/
def Obligations.InvAtReset : Prop := State.reset.Inv

/-- Every step keeps the invariant: canonical flash, a buffer of `CAP` bytes (R34), a zero-argument opcode in `PRE_EOC`
(R152), an index that does not pass the count (R36, log 13) and a count that does not pass `CAP` (R223), a pending reset
request only in `RESET_PENDING`. That a reset keeps the last of these is the model's reading: it holds because the reset
clears the request (log 8, DEDUCED), of which the spec says nothing. -/
def Obligations.StepKeepsInv : Prop := ∀ s t : State, s.Inv → step s = .next t → t.Inv

/-- The block has no fault outcome (R15): under the invariant every step has a next state. -/
def Obligations.NoFaultOutcome : Prop := ∀ s : State, s.Inv → ∃ t, step s = .next t

/-- Parameters are constant (R7): no step, of a command, of the boot gate or of a reset, changes one. -/
def Obligations.ParamsConstant : Prop :=
  (∀ s t : State, step s = .next t → t.params = s.params) ∧
  (∀ (i : Instr) (s t : State), exec i s = .next t → t.params = s.params) ∧
  (∀ (a : EnvAction) (s : State), (applyEnv a s).params = s.params)

/-- The step function is the transition table (R170), in both directions: under the invariant a step of a block that does
not wait is a row of the table, and every row that applies is the step. -/
def Obligations.StepIsTableRow : Prop :=
  ∀ s : State, s.Inv → s.env = [] → s.waits = false →
    (∃ t, step s = .next t ∧ Row s t) ∧ ∀ t, Row s t → step s = .next t

/-- Each step performs at most one transaction (R5), and what it observes is added at the end. -/
def Obligations.OneTransactionPerStep : Prop :=
  ∀ s t : State, step s = .next t → ∃ es, t.trace = s.trace ++ es ∧ (transactions es).length ≤ 1 ∧
    ∀ u, s.blockState = some u → ∀ e ∈ transactions es, e.port = u.cs.port

/-- A hold has no time limit (R15, R16): while its port cannot complete, and in `HANDED_OFF` and `RESET_PENDING` (R136,
R241), the block stays exactly as it is for any number of steps. -/
def Obligations.HoldHasNoTimeLimit : Prop := ∀ s : State, s.Inv → s.env = [] → s.waits = true → ∀ n, Reaches n s s

/-- Serial traffic (R51, R52): input is consumed one byte at a time from the front, only in the receiving states; output
grows one byte at a time, only in the sending states. -/
def Obligations.SerialTraffic : Prop :=
  ∀ s u t : State, s.blockState = some u → step s = .next t →
    (t.rx ≠ u.rx → u.cs ∈ [.idle, .preEoc, .laLo, .laHi, .laEoc, .pfData, .pfEoc, .pmCount, .pmData, .pmEoc, .rmCount,
      .rmEoc] ∧ ∃ b, u.rx = b :: t.rx) ∧
    (t.sent ≠ u.sent → u.cs ∈ [.gdId, .gdFreq, .rfSend, .rmSend, .ackInsync, .ackOk] ∧ ∃ b, t.sent = u.sent ++ [b])

/-- Which steps write which register (the table of R40; `LA_HI` writes `CUR` only in the variant `LA_EARLY_COMMIT`,
log 12). -/
def Obligations.RegisterWriters : Prop :=
  ∀ s u t : State, s.blockState = some u → step s = .next t →
    (t.cur ≠ u.cur → u.cs ∈ [.bgEnterCmd, .laEoc, .pfWrite, .rfRead, .pmWrite, .rmRead] ∨
      (u.cs = .laHi ∧ u.params.laEarlyCommit = true)) ∧
    (t.buf ≠ u.buf → u.cs = .pmData) ∧
    (t.cnt ≠ u.cnt → u.cs ∈ [.pmCount, .rmCount]) ∧
    (t.idx ≠ u.idx → u.cs ∈ [.pmCount, .pmData, .pmEoc, .pmWrite, .rmEoc, .rmRead]) ∧
    (t.arg ≠ u.arg → u.cs ∈ [.laLo, .laHi]) ∧
    (t.data ≠ u.data → u.cs ∈ [.pfData, .rfRead, .rmRead]) ∧
    (t.op ≠ u.op → u.cs = .idle)

/-- Which steps write the external state (R43 to R45, R82): flash only by a program or an erase, `RC` and the reset
request only by `SetSwReset`, the side-channel registers only in their two steps; the block changes no port's state. -/
def Obligations.ExternalWriters : Prop :=
  ∀ s u t : State, s.blockState = some u → step s = .next t →
    (t.flash ≠ u.flash → u.cs ∈ [.ceErase, .peErase, .pfWrite, .pmWrite]) ∧
    (t.rc ≠ u.rc → u.cs = .rbSet ∧ t.rc = { u.rc with swReset := true }) ∧
    (t.resetRequest ≠ u.resetRequest → u.cs = .rbSet ∧ t.resetRequest = true) ∧
    (t.scFreq ≠ u.scFreq → u.cs = .bgScFreq ∧ t.scFreq = u.params.boardFreq) ∧
    (t.scVer ≠ u.scVer → u.cs = .bgScVer ∧ t.scVer = u.params.blVersion) ∧
    t.force = u.force ∧ t.txReady = u.txReady ∧ t.flashReady = u.flashReady ∧ t.env = u.env ∧ t.draws = u.draws

/-- Frame integrity (R163): the states in which a command reads or writes flash or sends a byte are entered only by
receiving a byte equal to `EOC`; flash changes, and flash and response transactions happen, in no other state of the
command loop; and the cursor moves in no other state, but in the step that receives a good terminator (and, in the
variant `LA_EARLY_COMMIT`, in `LA_HI`: log 12). -/
def Obligations.FrameIntegrity : Prop :=
  ∀ s u t : State, s.blockState = some u → step s = .next t → u.cs.mode = .cmd →
    (t.cs.committed = true → u.cs.committed = false → u.rx = u.params.eoc :: t.rx) ∧
    (t.flash ≠ u.flash → u.cs.committed = true) ∧
    (∀ es, t.trace = u.trace ++ es → ∀ e ∈ es, e.port = some .flash ∨ e.port = some .tx → u.cs.committed = true) ∧
    (t.cur ≠ u.cur → u.cs.committed = true ∨ (u.cs = .laEoc ∧ u.rx = u.params.eoc :: t.rx) ∨
      (u.cs = .laHi ∧ u.params.laEarlyCommit = true))

/-- Modes (R31, R162, R257): the boot gate hands off or enters the command loop; the loop has no exit but `RB_SET`; in
`HANDED_OFF` and `RESET_PENDING` nothing moves. -/
def Obligations.ModeChanges : Prop :=
  ∀ s u t : State, s.blockState = some u → step s = .next t →
    match u.cs.mode with
    | .boot => t.cs.mode = .boot ∨ (u.cs = .bgJump ∧ t.cs = .handedOff) ∨ (u.cs = .bgEnterCmd ∧ t.cs = .idle)
    | .cmd => t.cs.mode = .cmd ∨ (u.cs = .rbSet ∧ t.cs = .resetPending)
    | .handedOff => t = u
    | .resetPending => t = u

/-- The registers a reset loses are never observed (R40, R60, R61): two states at the start of the command loop that
differ only in `BUF`, `CNT`, `IDX`, `ARG`, `DATA` and `OP`, or two at the start of the boot gate that differ in these and
in `CUR`, make the same transactions and leave the same flash for ever, whatever the environment does. -/
def Obligations.LostRegistersNeverObserved : Prop :=
  ∀ s s' : State, s.Inv → s'.Inv →
    s' = { s with buf := s'.buf, cnt := s'.cnt, idx := s'.idx, arg := s'.arg, data := s'.data, op := s'.op,
                  cur := s'.cur } →
    (s.cs = .idle ∧ s'.cur = s.cur) ∨ s.cs = .bgFault →
    ∀ n t, Reaches n s t → ∃ t', Reaches n s' t' ∧ t'.trace = t.trace ∧ t'.flash = t.flash ∧ t'.cs = t.cs

/-! ### The boot gate -/

/-- The steps of the boot gate (R131 to R135). -/
def Obligations.BootGateSteps : Prop :=
  ∀ s : State, s.params.wf = true → s.env = [] →
    (s.cs = .bgFault → step s = .next { s with
      cs := if s.rc.flashFault then .bgEnterCmd else .bgValid
      trace := s.trace ++ [.sampleFlashFault s.params.rcFlashFaultBit s.rc.flashFault] }) ∧
    (s.cs = .bgValid → s.flashReady = true → step s = .next { s with
      cs := if Params.imageValid s.params s.flash then .bgForce else .bgEnterCmd
      trace := s.trace ++ [.imageValid (Params.imageValid s.params s.flash)] }) ∧
    (s.cs = .bgForce → step s = .next { s with
      cs := if s.force then .bgEnterCmd else .bgScFreq
      trace := s.trace ++ [.sampleForce s.force] }) ∧
    (s.cs = .bgScFreq → step s = .next { s with
      cs := .bgScVer, scFreq := s.params.boardFreq
      trace := s.trace ++ [.writeSc s.params.scFreqAddr s.params.boardFreq] }) ∧
    (s.cs = .bgScVer → step s = .next { s with
      cs := .bgJump, scVer := s.params.blVersion
      trace := s.trace ++ [.writeSc s.params.scVerAddr s.params.blVersion] }) ∧
    (s.cs = .bgJump → step s = .next { s with
      cs := .handedOff, trace := s.trace ++ [.handoff s.params.appEntry] }) ∧
    (s.cs = .bgEnterCmd → step s = .next { s with cs := .idle, cur := 0 })

/-- The gate's decision (R137): from `BG_FAULT` the block reaches `HANDED_OFF` if and only if the flash-fault bit is
clear, the image is valid and the force input is inactive; otherwise it reaches `IDLE` with `CUR = 0`. -/
def Obligations.BootGateDecision : Prop :=
  ∀ s : State, s.Inv → s.env = [] → s.flashReady = true → s.cs = .bgFault →
    ((∃ n t, Reaches n s t ∧ t.cs = .handedOff) ↔
      s.rc.flashFault = false ∧ Params.imageValid s.params s.flash = true ∧ s.force = false) ∧
    (¬ (s.rc.flashFault = false ∧ Params.imageValid s.params s.flash = true ∧ s.force = false) →
      ∃ n t, Reaches n s t ∧ t = { s with cs := .idle, cur := 0, trace := t.trace })

/-- The handoff (R134, R139): six steps that write the frequency code and the version into the side-channel registers
and touch nothing else of the block. -/
def Obligations.BootGateHandoff : Prop :=
  ∀ s : State, s.params.wf = true → s.env = [] → s.flashReady = true → s.cs = .bgFault → s.rc.flashFault = false →
    Params.imageValid s.params s.flash = true → s.force = false →
    Reaches 6 s { s with
      cs := .handedOff
      scFreq := s.params.boardFreq
      scVer := s.params.blVersion
      trace := s.trace ++ [.sampleFlashFault s.params.rcFlashFaultBit false, .imageValid true, .sampleForce false,
        .writeSc s.params.scFreqAddr s.params.boardFreq, .writeSc s.params.scVerAddr s.params.blVersion,
        .handoff s.params.appEntry] }

/-! ### The steps of the commands -/

/-- The acknowledgement (R159): in `ACK_INSYNC` every command but `REBOOT` sends `IN_SYNC`, in `ACK_OK` it sends `OK`
and returns to `IDLE`. -/
def Obligations.AcknowledgementSteps : Prop :=
  ∀ (i : Instr) (s : State), i ≠ .reboot → s.txReady = true →
    (s.cs = .ackInsync → exec i s = .next { s with cs := .ackOk, trace := s.trace ++ [.tx s.params.inSync] }) ∧
    (s.cs = .ackOk → exec i s = .next { s with cs := .idle, trace := s.trace ++ [.tx s.params.okByte] })

/-- The dispatch of each command from `IDLE` (R151). -/
def Obligations.DispatchSteps : Prop :=
  ∀ s : State, s.cs = .idle →
    (∀ i, i.format = .z → exec i s = .next { s with cs := .preEoc }) ∧
    exec .loadAddress s = .next { s with cs := .laLo } ∧ exec .progFlash s = .next { s with cs := .pfData } ∧
    exec .progMulti s = .next { s with cs := .pmCount } ∧ exec .readMulti s = .next { s with cs := .rmCount } ∧
    exec .reboot s = .next { s with cs := .rbSet }

/-- The terminator pre-check of the zero-argument commands (R152): a good terminator leads to the command's handler. For
`GET_SYNC`, which has no effect, that is the acknowledgement (R180). -/
def Obligations.PrecheckSteps : Prop :=
  ∀ (s : State) (rest : List Byte), s.cs = .preEoc → s.rx = s.params.eoc :: rest →
    ∀ i c, (i, c) ∈ [(Instr.getSync, CommandState.ackInsync), (.getDevice, .gdId), (.chipErase, .ceErase),
        (.paramErase, .peErase), (.readFlash, .rfRead)] →
      exec i s = .next { s with cs := c, rx := rest, trace := s.trace ++ [.rx s.params.eoc] }

/-- A bad terminator (R152, R154, R156): whichever command's terminator step it is, the byte is consumed, `CS` becomes
`IDLE`, and nothing else changes. -/
def Obligations.BadTerminatorAborts : Prop :=
  ∀ (s : State) (t : Byte) (rest : List Byte), s.rx = t :: rest → t ≠ s.params.eoc →
    (∀ i, i.format = .z → s.cs = .preEoc →
      exec i s = .next { s with cs := .idle, rx := rest, trace := s.trace ++ [.rx t, .abort .precheckEoc] }) ∧
    (∀ i c, (i, c) ∈ [(Instr.loadAddress, CommandState.laEoc), (.progFlash, .pfEoc), (.progMulti, .pmEoc),
        (.readMulti, .rmEoc)] → s.cs = c →
      exec i s = .next { s with cs := .idle, rx := rest, trace := s.trace ++ [.rx t, .abort .handlerEoc] })

/-- An INVALID opcode byte (R115, R157): it is consumed, `OP` takes it, the block is back in `IDLE`, and nothing else
changes. -/
def Obligations.InvalidOpcodeAborts : Prop :=
  ∀ (s : State) (b : Byte) (rest : List Byte), s.params.wf = true → s.env = [] → s.cs = .idle → s.rx = b :: rest →
    (∀ i, b ≠ s.params.opcode i) →
    step s = .next { s with op := b, rx := rest, trace := s.trace ++ [.rx b, .abort .invalidOpcode] }

/-- `GET_DEVICE` sends `BOARD_ID` and then `BOARD_FREQ` (R181). -/
def Obligations.GetDeviceSteps : Prop :=
  ∀ s : State, s.txReady = true →
    (s.cs = .gdId → exec .getDevice s = .next { s with cs := .gdFreq, trace := s.trace ++ [.tx s.params.boardId] }) ∧
    (s.cs = .gdFreq → exec .getDevice s = .next { s with
      cs := .ackInsync, trace := s.trace ++ [.tx s.params.boardFreq] })

/-- `CHIP_ERASE` and `PARAM_ERASE` (R74, R190, R191): after the erase every address of the region reads as `ERASED_BYTE`
and every other address of the flash space as before; the cursor and all else are unchanged. -/
def Obligations.EraseSteps : Prop :=
  ∀ s : State, s.flashReady = true →
    ∀ i c r region, (i, c, r, region) ∈ [(Instr.chipErase, CommandState.ceErase, RegionName.app, s.params.appRegion),
        (.paramErase, .peErase, .param, s.params.paramRegion)] → s.cs = c →
      ∃ t, exec i s = .next t ∧
        t = { s with cs := .ackInsync, flash := t.flash, trace := s.trace ++ [.flashErase r] } ∧
        ∀ a < 65536, t.flash.read a = if Region.has region a then s.params.erasedByte else s.flash.read a

/-- `LOAD_ADDRESS` (R200): the two argument bytes go to `ARG`, and a good terminator moves them to the cursor. (In the
variant `LA_EARLY_COMMIT` the second byte moves the cursor too: log 12, the model's reading.) -/
def Obligations.LoadAddressSteps : Prop :=
  ∀ (s : State) (b : Byte) (rest : List Byte), s.rx = b :: rest →
    (s.cs = .laLo → exec .loadAddress s = .next { s with
      cs := .laHi, arg := setLowByte s.arg b, rx := rest, trace := s.trace ++ [.rx b] }) ∧
    (s.cs = .laHi → exec .loadAddress s = .next { s with
      cs := .laEoc, arg := setHighByte s.arg b
      cur := if s.params.laEarlyCommit then setHighByte s.arg b else s.cur
      rx := rest, trace := s.trace ++ [.rx b] }) ∧
    (s.cs = .laEoc → b = s.params.eoc → exec .loadAddress s = .next { s with
      cs := .ackInsync, cur := s.arg, rx := rest, trace := s.trace ++ [.rx b] })

/-- `PROG_FLASH` (R201): take the data byte, take the terminator, program the byte at `CUR` and advance `CUR` by 1
modulo 2^16. -/
def Obligations.ProgFlashSteps : Prop :=
  ∀ s : State,
    (∀ b rest, s.cs = .pfData → s.rx = b :: rest → exec .progFlash s = .next { s with
      cs := .pfEoc, data := b, rx := rest, trace := s.trace ++ [.rx b] }) ∧
    (∀ rest, s.cs = .pfEoc → s.rx = s.params.eoc :: rest → exec .progFlash s = .next { s with
      cs := .pfWrite, rx := rest, trace := s.trace ++ [.rx s.params.eoc] }) ∧
    (s.cs = .pfWrite → s.flashReady = true → exec .progFlash s = .next { s with
      cs := .ackInsync, cur := s.cur + 1
      flash := s.flash.write s.cur.toNat (Params.flashProgram s.params s.cur (s.flash.read s.cur.toNat) s.data)
      trace := s.trace ++ [.memWrite s.cur s.data] })

/-- `READ_FLASH` (R202): read the byte at `CUR` into `DATA`, advance `CUR` by 1 modulo 2^16, send the byte. -/
def Obligations.ReadFlashSteps : Prop :=
  ∀ s : State,
    (s.cs = .rfRead → s.flashReady = true → exec .readFlash s = .next { s with
      cs := .rfSend, data := s.flash.read s.cur.toNat, cur := s.cur + 1
      trace := s.trace ++ [.memRead s.cur (s.flash.read s.cur.toNat)] }) ∧
    (s.cs = .rfSend → s.txReady = true → exec .readFlash s = .next { s with
      cs := .ackInsync, trace := s.trace ++ [.tx s.data] })

/-- `PROG_MULTI` (R220): the count is checked against `CAP` before any data byte (an oversized one aborts), each data byte
is staged in `BUF[IDX]`, and after a good terminator each staged byte is programmed at `CUR`, which advances. -/
def Obligations.ProgMultiSteps : Prop :=
  ∀ s : State,
    (∀ c rest, s.cs = .pmCount → s.rx = c :: rest → exec .progMulti s = .next
      (if s.params.cap < c.toNat then { s with
        cs := .idle, cnt := c, idx := 0, rx := rest, trace := s.trace ++ [.rx c, .abort .oversize] }
      else { s with
        cs := if c = 0 then .pmEoc else .pmData
        cnt := c, idx := 0, rx := rest, trace := s.trace ++ [.rx c] })) ∧
    (∀ b rest, s.cs = .pmData → s.rx = b :: rest → s.idx.toNat < s.buf.length → exec .progMulti s = .next { s with
      cs := if s.idx + 1 = s.cnt then .pmEoc else .pmData
      buf := s.buf.set s.idx.toNat b, idx := s.idx + 1, rx := rest, trace := s.trace ++ [.rx b] }) ∧
    (∀ rest, s.cs = .pmEoc → s.rx = s.params.eoc :: rest → exec .progMulti s = .next { s with
      cs := if s.cnt = 0 then .ackInsync else .pmWrite
      idx := 0, rx := rest, trace := s.trace ++ [.rx s.params.eoc] }) ∧
    (∀ v, s.cs = .pmWrite → s.flashReady = true → s.buf[s.idx.toNat]? = some v → exec .progMulti s = .next { s with
      cs := if s.idx + 1 = s.cnt then .ackInsync else .pmWrite
      cur := s.cur + 1, idx := s.idx + 1
      flash := s.flash.write s.cur.toNat (Params.flashProgram s.params s.cur (s.flash.read s.cur.toNat) v)
      trace := s.trace ++ [.memWrite s.cur v] })

/-- `READ_MULTI` (R221): any count is taken, with no capacity check; after a good terminator each byte is read at `CUR`,
which advances, and sent, until `IDX = CNT`. -/
def Obligations.ReadMultiSteps : Prop :=
  ∀ s : State,
    (∀ c rest, s.cs = .rmCount → s.rx = c :: rest → exec .readMulti s = .next { s with
      cs := .rmEoc, cnt := c, rx := rest, trace := s.trace ++ [.rx c] }) ∧
    (∀ rest, s.cs = .rmEoc → s.rx = s.params.eoc :: rest → exec .readMulti s = .next { s with
      cs := if s.cnt = 0 then .ackInsync else .rmRead
      idx := 0, rx := rest, trace := s.trace ++ [.rx s.params.eoc] }) ∧
    (s.cs = .rmRead → s.flashReady = true → exec .readMulti s = .next { s with
      cs := .rmSend, data := s.flash.read s.cur.toNat, cur := s.cur + 1, idx := s.idx + 1
      trace := s.trace ++ [.memRead s.cur (s.flash.read s.cur.toNat)] }) ∧
    (s.cs = .rmSend → s.txReady = true → exec .readMulti s = .next { s with
      cs := if s.idx = s.cnt then .ackInsync else .rmRead
      trace := s.trace ++ [.tx s.data] })

/-- `REBOOT` (R240): `RC.SW_RESET` is set, a reset is requested, and the block stops in `RESET_PENDING`; no byte is
consumed or sent. -/
def Obligations.RebootStep : Prop :=
  ∀ s : State, s.cs = .rbSet → exec .reboot s = .next { s with
    cs := .resetPending, rc := { s.rc with swReset := true }, resetRequest := true
    trace := s.trace ++ [.setSwReset s.params.rcSwResetBit] }

/-! ### What each command leaves unchanged -/

/-- The frame of `GET_SYNC`, `GET_DEVICE` and `REBOOT` (R180, R181, R240): no register but `CS`, no flash byte; only
`REBOOT` touches the reset-cause register, and of it only `SW_RESET`. -/
def Obligations.QuietCommandsFrame : Prop :=
  ∀ s t : State,
    (∀ i ∈ [Instr.getSync, .getDevice], exec i s = .next t →
      t = { s with cs := t.cs, rx := t.rx, trace := t.trace } ∧ ∀ a, t.flash.read a = s.flash.read a) ∧
    (exec .reboot s = .next t →
      t = { s with cs := t.cs, rc := { s.rc with swReset := t.rc.swReset }, resetRequest := t.resetRequest,
                   trace := t.trace } ∧ ∀ a, t.flash.read a = s.flash.read a)

/-- The frame of the erases (R190, R191): no register but `CS`; every flash address outside the command's region reads as
before, and in a step other than the erase itself every address does. -/
def Obligations.EraseFrame : Prop :=
  ∀ s t : State,
    (exec .chipErase s = .next t → t = { s with cs := t.cs, rx := t.rx, trace := t.trace, flash := t.flash } ∧
      (∀ a < 65536, Region.has s.params.appRegion a = false → t.flash.read a = s.flash.read a) ∧
      (s.cs ≠ .ceErase → ∀ a, t.flash.read a = s.flash.read a)) ∧
    (exec .paramErase s = .next t → t = { s with cs := t.cs, rx := t.rx, trace := t.trace, flash := t.flash } ∧
      (∀ a < 65536, Region.has s.params.paramRegion a = false → t.flash.read a = s.flash.read a) ∧
      (s.cs ≠ .peErase → ∀ a, t.flash.read a = s.flash.read a))

/-- The frame of `LOAD_ADDRESS` (R200): only `CS`, `ARG` and `CUR` change, `CUR` only in `LA_EOC` (and in `LA_HI` in the
variant `LA_EARLY_COMMIT`, log 12); no flash byte changes. -/
def Obligations.LoadAddressFrame : Prop :=
  ∀ s t : State, exec .loadAddress s = .next t →
    t = { s with cs := t.cs, rx := t.rx, trace := t.trace, arg := t.arg, cur := t.cur } ∧
    (∀ a, t.flash.read a = s.flash.read a) ∧ (s.cs ∉ [.laLo, .laHi] → t.arg = s.arg) ∧
    (s.cs ≠ .laEoc → ¬ (s.cs = .laHi ∧ s.params.laEarlyCommit = true) → t.cur = s.cur)

/-- The frame of `READ_FLASH` and `READ_MULTI` (R202, R221): `CS`, `DATA` and `CUR`, for `READ_MULTI` also `CNT` and
`IDX`, and of these `CUR` and `DATA` only in the step that reads flash; no flash byte changes. -/
def Obligations.ReadingCommandsFrame : Prop :=
  ∀ s t : State,
    (exec .readFlash s = .next t →
      t = { s with cs := t.cs, rx := t.rx, trace := t.trace, data := t.data, cur := t.cur } ∧
      (∀ a, t.flash.read a = s.flash.read a) ∧ (s.cs ≠ .rfRead → t.data = s.data ∧ t.cur = s.cur)) ∧
    (exec .readMulti s = .next t →
      t = { s with cs := t.cs, rx := t.rx, trace := t.trace, data := t.data, cur := t.cur, cnt := t.cnt, idx := t.idx } ∧
      (∀ a, t.flash.read a = s.flash.read a) ∧ (s.cs ≠ .rmRead → t.data = s.data ∧ t.cur = s.cur))

/-- The frame of `PROG_FLASH` (R201): `CS`, `DATA`, `CUR` and the one flash byte at `CUR`, that byte and `CUR` only in
`PF_WRITE`; every other address reads as before. -/
def Obligations.ProgFlashFrame : Prop :=
  ∀ s t : State, s.flash.wf → exec .progFlash s = .next t →
    t = { s with cs := t.cs, rx := t.rx, trace := t.trace, data := t.data, cur := t.cur, flash := t.flash } ∧
    (∀ a, a ≠ s.cur.toNat → t.flash.read a = s.flash.read a) ∧
    (s.cs ≠ .pfWrite → t.cur = s.cur ∧ ∀ a, t.flash.read a = s.flash.read a) ∧
    (s.cs ≠ .pfData → t.data = s.data)

/-- The frame of `PROG_MULTI` (R220): `CS`, `CNT`, `IDX`, `BUF`, `CUR` and the one flash byte at `CUR`, that byte and
`CUR` only in `PM_WRITE`, and of `BUF` only the byte `BUF[IDX]` in `PM_DATA`; every other address reads as before. -/
def Obligations.ProgMultiFrame : Prop :=
  ∀ s t : State, s.flash.wf → exec .progMulti s = .next t →
    t = { s with cs := t.cs, rx := t.rx, trace := t.trace, cnt := t.cnt, idx := t.idx, buf := t.buf, cur := t.cur,
                 flash := t.flash } ∧
    (∀ a, a ≠ s.cur.toNat → t.flash.read a = s.flash.read a) ∧
    (s.cs ≠ .pmWrite → t.cur = s.cur ∧ ∀ a, t.flash.read a = s.flash.read a) ∧
    (s.cs ≠ .pmData → t.buf = s.buf) ∧ (∀ j, j ≠ s.idx.toNat → t.buf[j]? = s.buf[j]?) ∧
    (s.cs ≠ .pmCount → t.cnt = s.cnt)

/-! ### Whole frames -/

/-- A whole well-formed frame does what its command's rule says (R113, R160, R180 to R240), in the number of steps the
test vectors give: the machine that steps transaction by transaction refines the one that runs frame by frame. Its bytes
are consumed and no other, flash and cursor are those of the rule, the response is that of R113, `REBOOT` ends in
`RESET_PENDING` and every other command in `IDLE`. -/
def Obligations.FrameRunsAsSpecified : Prop :=
  ∀ (s : State) (f : Frame) (rest : List Byte), s.Inv → s.Ready → s.cs = .idle → f.wf s.params.cap = true →
    s.rx = encode s.params f ++ rest →
    ∃ t, Reaches (frameSteps f) s t ∧ t.rx = rest ∧ t.cs = (if f.instr = .reboot then .resetPending else .idle) ∧
      t.cur = s.cursorAfter f ∧ t.flash = s.flashAfter f ∧ t.sent = s.sent ++ s.response f ∧
      t.scFreq = s.scFreq ∧ t.scVer = s.scVer ∧ t.force = s.force ∧
      t.rc = (if f.instr = .reboot then { s.rc with swReset := true } else s.rc)

/-- The order of a frame's transactions (R85, R86): they form one sequence, the frame's bytes first, then its handler's
transactions, the acknowledgement last, so the acknowledgement follows every flash access of the command, and no byte of
the next frame is consumed before it. In `READ_MULTI` "the bytes are read and sent one at a time, alternately" (R221), so
there the words of R86 that every response byte follows every flash access do not hold beyond one byte (log 16). -/
def Obligations.FrameTransactionOrder : Prop :=
  ∀ (s : State) (f : Frame) (rest : List Byte), s.Inv → s.Ready → s.cs = .idle → f.wf s.params.cap = true →
    s.rx = encode s.params f ++ rest →
    ∃ t, Reaches (frameSteps f) s t ∧ t.rx = rest ∧ t.trace = s.trace ++ s.frameEvents f

/-- Responses after flash (R86): in a frame of every command no flash access follows a response byte or an acknowledgement
byte, but in a `READ_MULTI` of two bytes or more, which R221 has read and send alternately (log 16); and the two
acknowledgement bytes are the last transactions of every frame but `REBOOT`, that `READ_MULTI` included, with no byte of
the next frame consumed. -/
def Obligations.ResponseAfterFlash : Prop :=
  ∀ (s : State) (f : Frame) (rest : List Byte), s.Inv → s.Ready → s.cs = .idle → f.wf s.params.cap = true →
    s.rx = encode s.params f ++ rest →
    ∃ t es, Reaches (frameSteps f) s t ∧ t.rx = rest ∧ t.trace = s.trace ++ es ∧
      ((f.instr = .readMulti → transferCount f ≤ 1) →
        es.Pairwise fun e e' => e.port = some .tx → e'.port ≠ some .flash) ∧
      (f.instr ≠ .reboot → ∃ es', es = es' ++ [.tx s.params.inSync, .tx s.params.okByte])

/-- A malformed frame is dropped silently (R155, R156, R163, R222): whatever bytes decode to an abort, the block consumes
exactly the bytes up to the one that showed the error, is back in `IDLE`, has sent nothing and has changed neither flash
nor, unless the variant `LA_EARLY_COMMIT` is chosen, the cursor; the observation says why. -/
def Obligations.MalformedFrameIsSilent : Prop :=
  ∀ (s : State) (cause : AbortCause) (rest : List Byte), s.Inv → s.env = [] → s.cs = .idle →
    decode s.params s.rx = .abort cause rest →
    ∃ n t, Reaches n s t ∧ t.rx = rest ∧ t.cs = .idle ∧ t.flash = s.flash ∧ t.sent = s.sent ∧
      (s.params.laEarlyCommit = false → t.cur = s.cur) ∧ t.trace.getLast? = some (.abort cause)

/-- `PROG_MULTI` byte by byte (R79, R83, R220): byte `i` of the payload is programmed over address `(A + i) mod 2^16`, no
other address changes, and the cursor ends at `(A + N) mod 2^16`. -/
def Obligations.ProgMultiProgramsPayload : Prop :=
  ∀ (s : State) (payload rest : List Byte), s.Inv → s.Ready → s.cs = .idle → payload.length ≤ s.params.cap →
    s.rx = encode s.params (progMultiFrame payload) ++ rest →
    ∃ n t, Reaches n s t ∧ t.cs = .idle ∧ t.rx = rest ∧ t.cur = s.cur + BitVec.ofNat 16 payload.length ∧
      t.sent = s.sent ++ [s.params.inSync, s.params.okByte] ∧
      (∀ i v, payload[i]? = some v → t.flash.read (s.cur + BitVec.ofNat 16 i).toNat =
        Params.flashProgram s.params (s.cur + BitVec.ofNat 16 i)
          (s.flash.read (s.cur + BitVec.ofNat 16 i).toNat) v) ∧
      ∀ a < 65536, (∀ i < payload.length, a ≠ (s.cur + BitVec.ofNat 16 i).toNat) → t.flash.read a = s.flash.read a

/-- The round trip (R224): `PROG_MULTI` of `N <= CAP` bytes at `A`, `LOAD_ADDRESS A` and `READ_MULTI N` send the `N` bytes
programmed, when `FLASH_PROGRAM(a, old, d) = d` at each of the addresses. -/
def Obligations.RoundTrip : Prop :=
  ∀ (s : State) (payload rest : List Byte), s.Inv → s.Ready → s.cs = .idle → payload.length ≤ s.params.cap →
    (∀ i v, payload[i]? = some v → ∀ old, Params.flashProgram s.params (s.cur + BitVec.ofNat 16 i) old v = v) →
    s.rx = encode s.params (progMultiFrame payload) ++ encode s.params (loadAddressFrame s.cur) ++
      encode s.params (readMultiFrame (BitVec.ofNat 8 payload.length)) ++ rest →
    ∃ n t, Reaches n s t ∧ t.cs = .idle ∧ t.rx = rest ∧
      t.sent = s.sent ++ Params.ack s.params ++ Params.ack s.params ++ payload ++ Params.ack s.params

/-- A reset inside the commit phase of `PROG_MULTI` leaves a prefix of the payload programmed (R290): the environment
lets the block take the steps up to the `j`-th program request and then resets the device. -/
def Obligations.ResetLeavesPrefix : Prop :=
  ∀ (s : State) (payload rest : List Byte) (j : Nat) (kind : ResetKind), s.Inv → s.flashReady = true → s.cs = .idle →
    payload.length ≤ s.params.cap → 0 < payload.length → j ≤ payload.length → kind ≠ .software →
    s.rx = encode s.params (progMultiFrame payload) ++ rest →
    s.env = List.replicate (payload.length + 3 + j) .run ++ [.reset kind] →
    ∃ t, Reaches (payload.length + 4 + j) s t ∧ t.cs = .bgFault ∧ t.sent = s.sent ∧
      t.flash = programAll s.params s.flash s.cur (payload.take j)

/-! ### Resets and the environment -/

/-- The effect of a reset (R60, R280): `CS = BG_FAULT`, flash, parameters and the reset controller's law as they say, the
input stream kept or lost as `RX_SURVIVES_RESET` says; in any state. (That the pending reset request is gone is log 8, the
model's reading.) -/
def Obligations.ResetEffect : Prop :=
  ∀ (s : State) (kind : ResetKind) (rest : List EnvAction), s.env = .reset kind :: rest →
    (kind = .software → s.resetRequest = true) →
    ∃ t, step s = .next t ∧ t.cs = .bgFault ∧ t.flash = s.flash ∧ t.params = s.params ∧
      t.rc = Params.rcAfterReset s.params kind s.rc ∧ t.rx = (if s.params.rxSurvivesReset then s.rx else []) ∧
      t.buf.length = s.params.cap ∧ t.resetRequest = false ∧ t.sent = s.sent ∧ t.force = s.force ∧ t.env = rest

/-- After `REBOOT` only a reset leads on (R240, R241): the software reset it requested restarts the block at `BG_FAULT`,
whatever else the environment did before. -/
def Obligations.RebootThenReset : Prop :=
  ∀ (s : State) (acts rest : List EnvAction), s.Inv → s.cs = .resetPending → (∀ a ∈ acts, ∀ k, a ≠ .reset k) →
    s.env = acts ++ .reset .software :: rest →
    (∀ n ≤ acts.length, ∃ u, Reaches n s u ∧ u.cs = .resetPending ∧ u.flash = s.flash ∧ u.trace = s.trace) ∧
    ∃ t, Reaches (acts.length + 1) s t ∧ t.cs = .bgFault ∧ t.flash = s.flash ∧ t.env = rest

/-- After a reset that reaches command mode the cursor is 0 before the first frame (R61): after the step that takes the
reset and some steps of the boot gate the block is in `IDLE` with `CUR = 0`, or it has handed off; the input stream is as
`RX_SURVIVES_RESET` leaves it, so no byte of a frame has been consumed, and nothing has been sent. -/
def Obligations.CursorZeroAfterReset : Prop :=
  ∀ (s : State) (kind : ResetKind), s.Inv → s.flashReady = true → s.env = [.reset kind] →
    (kind = .software → s.resetRequest = true) →
    ∃ n t, Reaches (n + 1) s t ∧ ((t.cs = .idle ∧ t.cur = 0) ∨ t.cs = .handedOff) ∧
      t.rx = (if s.params.rxSurvivesReset then s.rx else []) ∧ t.sent = s.sent ∧ t.draws = s.draws + 1

/-! ### Flash contents -/

/-- Flash reads and programs (R72, R73): programming a byte changes that address, to `FLASH_PROGRAM(a, old, v)`, and no
other, and keeps the canonical form. -/
def Obligations.ProgramThenRead : Prop :=
  ∀ (s : State) (a : Addr) (v : Byte), s.flash.wf →
    (∀ x, (s.programByte a v).flash.read x =
      if x = a.toNat then Params.flashProgram s.params a (s.flash.read x) v else s.flash.read x) ∧
    (s.programByte a v).flash.wf

/-- Canonical flash contents that read alike are equal, so equal flash is equal data (R70: a map over 2^16 addresses). -/
def Obligations.CanonicalFlashExt : Prop :=
  ∀ m q : Memory, m.wf → q.wf → (∀ a < 65536, Memory.read m a = Memory.read q a) → m = q
end

