-- ==== Sys2Proof/Laws/Decode.lean ====
section
/-! SUPPORT. The laws of opcode bytes: classification and the opcode of a command agree. -/

namespace Sys2Proof

/-- A byte classified as a command is that command's opcode. -/
theorem Params.opcode_of_classify {p : Params} {b : Byte} {i : Instr} (h : p.classify b = some i) : b = p.opcode i := by
  unfold Params.classify at h
  repeat' split at h
  all_goals (cases h; try assumption)

/-- A byte that is classified as no command is no command's opcode. -/
theorem Params.ne_opcode_of_classify {p : Params} {b : Byte} (h : p.classify b = none) (i : Instr) : b ≠ p.opcode i := by
  unfold Params.classify at h
  repeat' split at h
  all_goals first | (cases i <;> assumption) | cases h

/-- Under the launch premise the opcodes are pairwise distinct. -/
theorem Params.opcode_injective {p : Params} (h : p.wf = true) {i j : Instr} (he : p.opcode i = p.opcode j) : i = j := by
  have hn : (Instr.all.map p.opcode).Nodup := by
    simp only [Params.wf, Bool.and_eq_true, decide_eq_true_eq] at h
    exact (List.nodup_cons.1 h.1.1.1.1).2
  have hmem : ∀ k : Instr, k ∈ Instr.all := fun k => by cases k <;> decide
  exact List.inj_on_of_nodup_map hn (hmem i) (hmem j) he

/-- Under the launch premise the opcode of a command is classified as that command. -/
theorem Params.classify_opcode {p : Params} (h : p.wf = true) (i : Instr) : p.classify (p.opcode i) = some i := by
  cases hc : p.classify (p.opcode i) with
  | none => exact absurd rfl (Params.ne_opcode_of_classify hc i)
  | some j => rw [Params.opcode_injective h (Params.opcode_of_classify hc)]

/-- Under the launch premise `EOC` is no opcode. -/
theorem Params.eoc_ne_opcode {p : Params} (h : p.wf = true) (i : Instr) : p.eoc ≠ p.opcode i := by
  simp only [Params.wf, Bool.and_eq_true, decide_eq_true_eq] at h
  intro he
  exact (List.nodup_cons.1 h.1.1.1.1).1 (List.mem_map.2 ⟨i, by cases i <;> decide, he.symm⟩)

/-- `CAP` is between 1 and 255 under the launch premise. -/
theorem Params.cap_bounds {p : Params} (h : p.wf = true) : 1 ≤ p.cap ∧ p.cap ≤ 255 := by
  simp only [Params.wf, Bool.and_eq_true, decide_eq_true_eq] at h
  exact ⟨h.1.1.1.2, h.1.1.2⟩

end Sys2Proof
end

