-- ==== Sys2Proof/Laws/Memory.lean ====
section
/-! SUPPORT. The laws of flash contents: reading back, leaving every other address alone, and keeping the canonical form
(spec/20_memory.md R72 to R74). -/

namespace Sys2Proof.Machine

@[simp] theorem Memory.read_nil (a : Nat) : Memory.read [] a = Memory.blank := rfl

theorem Memory.read_cons (b : Nat) (w : Byte) (m : Memory) (a : Nat) :
    Memory.read ((b, w) :: m) a = if a = b then w else Memory.read m a := rfl

/-- An address below every entry reads as blank. -/
theorem Memory.read_of_lt {m : Memory} {a : Nat} (h : ∀ c ∈ m, a < c.1) : Memory.read m a = Memory.blank := by
  induction m with
  | nil => rfl
  | cons c m ih =>
    have hc := h c (by simp)
    rw [Memory.read_cons, if_neg (by omega), ih fun d hd => h d (by simp [hd])]

theorem Memory.wf_nil : Memory.wf [] := by simp [Memory.wf]

theorem Memory.wf_cons {b : Nat} {w : Byte} {m : Memory} :
    Memory.wf ((b, w) :: m) ↔ (∀ c ∈ m, b < c.1) ∧ b < 65536 ∧ w ≠ Memory.blank ∧ Memory.wf m := by
  simp only [Memory.wf, List.pairwise_cons, List.forall_mem_cons]
  tauto

/-- The addresses of a write are those there were, and the one written. -/
theorem Memory.mem_write {m : Memory} {a : Nat} {v : Byte} {c : Host.Cell} (h : c ∈ Memory.write m a v) :
    c ∈ m ∨ (c = (a, v) ∧ v ≠ Memory.blank) := by
  induction m with
  | nil =>
    simp only [Memory.write] at h
    split at h <;> simp_all
  | cons d m ih =>
    obtain ⟨b, w⟩ := d
    simp only [Memory.write] at h
    split at h
    · split at h <;> simp_all
      tauto
    · split at h
      · split at h <;> simp_all
        tauto
      · rcases List.mem_cons.1 h with rfl | h
        · simp
        · rcases ih h with h | h <;> simp_all

/-- Writing a byte inside the flash space keeps the canonical form. -/
theorem Memory.wf_write {m : Memory} {a : Nat} (v : Byte) (ha : a < 65536) (h : Memory.wf m) :
    Memory.wf (Memory.write m a v) := by
  induction m with
  | nil =>
    simp only [Memory.write]
    split
    · exact h
    · next hv => exact Memory.wf_cons.2 ⟨by simp, ha, hv, h⟩
  | cons d m ih =>
    obtain ⟨b, w⟩ := d
    obtain ⟨hlt, hb, hw, hm⟩ := Memory.wf_cons.1 h
    simp only [Memory.write]
    split
    · next hab =>
      split
      · exact h
      · next hv =>
        refine Memory.wf_cons.2 ⟨?_, ha, hv, h⟩
        intro c hc
        rcases List.mem_cons.1 hc with rfl | hc
        · exact hab
        · exact lt_trans hab (hlt c hc)
    · next hab =>
      split
      · next heq =>
        subst heq
        split
        · exact hm
        · next hv => exact Memory.wf_cons.2 ⟨hlt, ha, hv, hm⟩
      · next hne =>
        refine Memory.wf_cons.2 ⟨fun c hc => ?_, hb, hw, ih hm⟩
        rcases Memory.mem_write hc with hc | ⟨rfl, -⟩
        · exact hlt c hc
        · simp; omega

/-- What an address reads as after a write, in canonical contents. -/
theorem Memory.read_write {m : Memory} (h : Memory.wf m) (a : Nat) (v : Byte) (x : Nat) :
    Memory.read (Memory.write m a v) x = if x = a then v else Memory.read m x := by
  induction m with
  | nil =>
    simp only [Memory.write]
    split <;> simp_all [Memory.read_cons]
  | cons d m ih =>
    obtain ⟨b, w⟩ := d
    obtain ⟨hlt, -, -, hm⟩ := Memory.wf_cons.1 h
    have low : ∀ y, y ≤ b → Memory.read m y = Memory.blank := fun y hy =>
      Memory.read_of_lt fun c hc => lt_of_le_of_lt hy (hlt c hc)
    simp only [Memory.write]
    split
    · next hab =>
      split
      · next hv =>
        by_cases hx : x = a
        · subst hx
          rw [Memory.read_cons, if_neg (by omega), low x (by omega), if_pos rfl, hv]
        · rw [if_neg hx]
      · rw [Memory.read_cons]
    · next hab =>
      split
      · next heq =>
        subst heq
        split
        · next hv =>
          by_cases hx : x = a
          · subst hx
            rw [low x le_rfl, if_pos rfl, hv]
          · rw [if_neg hx, Memory.read_cons, if_neg hx]
        · simp only [Memory.read_cons]
          split <;> rfl
      · next hne =>
        rw [Memory.read_cons, ih hm, Memory.read_cons]
        by_cases hxb : x = b
        · subst hxb
          rw [if_pos rfl, if_pos rfl, if_neg (fun h => hne h.symm)]
        · rw [if_neg hxb, if_neg hxb]

/-- Filling a region keeps the canonical form. -/
theorem Memory.wf_fill {m : Memory} (r : Region) (v : Byte) (h : Memory.wf m) : Memory.wf (Memory.fill m r v) := by
  unfold Memory.fill
  split
  · exact ⟨h.1.filter _, fun c hc => h.2 c (List.mem_filter.1 hc).1⟩
  · refine ⟨List.pairwise_filterMap.2 ?_, ?_⟩
    · refine List.pairwise_lt_range.imp fun {x y} hxy c hc d hd => ?_
      dsimp only at hc hd
      generalize (if r.has x = true then v else m.read x) = bx at hc
      generalize (if r.has y = true then v else m.read y) = b' at hd
      split at hc <;> split at hd <;> simp_all
      subst hc hd
      simpa using hxy
    · intro c hc
      obtain ⟨a, ha, hc⟩ := List.mem_filterMap.1 hc
      dsimp only at hc
      generalize (if r.has a = true then v else m.read a) = bx at hc
      split at hc <;> simp_all
      subst hc
      simp_all

theorem Memory.read_filter (p : Nat → Bool) (m : Memory) (x : Nat) :
    Memory.read (m.filter fun c => p c.1) x = if p x then Memory.read m x else Memory.blank := by
  induction m with
  | nil => simp
  | cons d m ih =>
    obtain ⟨b, w⟩ := d
    rw [List.filter_cons, Memory.read_cons]
    split
    · next hp =>
      rw [Memory.read_cons, ih]
      split <;> simp_all
    · next hp =>
      rw [ih]
      by_cases hx : x = b
      · subst hx; simp_all
      · rw [if_neg hx]

theorem Memory.read_tabulate (f : Nat → Byte) (x : Nat) : ∀ (n k : Nat),
    Memory.read ((List.range' k n).filterMap fun a => if f a = Memory.blank then none else some (a, f a)) x
      = if k ≤ x ∧ x < k + n then f x else Memory.blank := by
  intro n
  induction n with
  | zero => intro k; simp [show ¬ (k ≤ x ∧ x < k) by omega]
  | succ n ih =>
    intro k
    rw [List.range'_succ, List.filterMap_cons]
    by_cases hk : x = k
    · subst hk
      split
      · next h =>
        rw [ih, if_neg (by omega), if_pos (by omega)]
        by_contra hne
        simp [Ne.symm hne] at h
      · next h =>
        split at h <;> simp_all
        subst h
        simp [Memory.read_cons]
    · have hiff : (k + 1 ≤ x ∧ x < k + 1 + n) ↔ (k ≤ x ∧ x < k + (n + 1)) := by omega
      split
      · rw [ih]; simp only [hiff]
      · next h =>
        split at h <;> simp_all
        subst h
        rw [Memory.read_cons, if_neg hk, ih]
        split <;> split <;> first | rfl | omega

/-- What an address of the flash space reads as after filling a region (spec/20_memory.md R74). -/
theorem Memory.read_fill (m : Memory) (r : Region) (v : Byte) {x : Nat} (hx : x < 65536) :
    Memory.read (Memory.fill m r v) x = if r.has x then v else Memory.read m x := by
  unfold Memory.fill
  split
  · next hv =>
    rw [Memory.read_filter (fun a => !r.has a), hv]
    cases r.has x <;> simp
  · rw [List.range_eq_range', Memory.read_tabulate (fun a => if r.has a then v else m.read a), if_pos (by omega)]

end Sys2Proof.Machine
end

