-- ==== Sys2Proof/Laws/State.lean ====
section
/-! SUPPORT. One lemma per field per named update of the state, so that no later proof unfolds a record update; and what
the reset leaves in each field the spec speaks of. -/

namespace Sys2Proof.Machine

/-! ### `State.goto` -/

@[simp] theorem State.goto_params (s : State) (c : CommandState) : (s.goto c).params = s.params := rfl
@[simp] theorem State.goto_cs (s : State) (c : CommandState) : (s.goto c).cs = c := rfl
@[simp] theorem State.goto_cur (s : State) (c : CommandState) : (s.goto c).cur = s.cur := rfl
@[simp] theorem State.goto_buf (s : State) (c : CommandState) : (s.goto c).buf = s.buf := rfl
@[simp] theorem State.goto_cnt (s : State) (c : CommandState) : (s.goto c).cnt = s.cnt := rfl
@[simp] theorem State.goto_idx (s : State) (c : CommandState) : (s.goto c).idx = s.idx := rfl
@[simp] theorem State.goto_arg (s : State) (c : CommandState) : (s.goto c).arg = s.arg := rfl
@[simp] theorem State.goto_data (s : State) (c : CommandState) : (s.goto c).data = s.data := rfl
@[simp] theorem State.goto_op (s : State) (c : CommandState) : (s.goto c).op = s.op := rfl
@[simp] theorem State.goto_flash (s : State) (c : CommandState) : (s.goto c).flash = s.flash := rfl
@[simp] theorem State.goto_rc (s : State) (c : CommandState) : (s.goto c).rc = s.rc := rfl
@[simp] theorem State.goto_scFreq (s : State) (c : CommandState) : (s.goto c).scFreq = s.scFreq := rfl
@[simp] theorem State.goto_scVer (s : State) (c : CommandState) : (s.goto c).scVer = s.scVer := rfl
@[simp] theorem State.goto_resetRequest (s : State) (c : CommandState) : (s.goto c).resetRequest = s.resetRequest := rfl
@[simp] theorem State.goto_force (s : State) (c : CommandState) : (s.goto c).force = s.force := rfl
@[simp] theorem State.goto_rx (s : State) (c : CommandState) : (s.goto c).rx = s.rx := rfl
@[simp] theorem State.goto_txReady (s : State) (c : CommandState) : (s.goto c).txReady = s.txReady := rfl
@[simp] theorem State.goto_flashReady (s : State) (c : CommandState) : (s.goto c).flashReady = s.flashReady := rfl
@[simp] theorem State.goto_trace (s : State) (c : CommandState) : (s.goto c).trace = s.trace := rfl
@[simp] theorem State.goto_env (s : State) (c : CommandState) : (s.goto c).env = s.env := rfl
@[simp] theorem State.goto_draws (s : State) (c : CommandState) : (s.goto c).draws = s.draws := rfl

/-! ### `State.emit` -/

@[simp] theorem State.emit_params (s : State) (e : Event) : (s.emit e).params = s.params := rfl
@[simp] theorem State.emit_cs (s : State) (e : Event) : (s.emit e).cs = s.cs := rfl
@[simp] theorem State.emit_cur (s : State) (e : Event) : (s.emit e).cur = s.cur := rfl
@[simp] theorem State.emit_buf (s : State) (e : Event) : (s.emit e).buf = s.buf := rfl
@[simp] theorem State.emit_cnt (s : State) (e : Event) : (s.emit e).cnt = s.cnt := rfl
@[simp] theorem State.emit_idx (s : State) (e : Event) : (s.emit e).idx = s.idx := rfl
@[simp] theorem State.emit_arg (s : State) (e : Event) : (s.emit e).arg = s.arg := rfl
@[simp] theorem State.emit_data (s : State) (e : Event) : (s.emit e).data = s.data := rfl
@[simp] theorem State.emit_op (s : State) (e : Event) : (s.emit e).op = s.op := rfl
@[simp] theorem State.emit_flash (s : State) (e : Event) : (s.emit e).flash = s.flash := rfl
@[simp] theorem State.emit_rc (s : State) (e : Event) : (s.emit e).rc = s.rc := rfl
@[simp] theorem State.emit_scFreq (s : State) (e : Event) : (s.emit e).scFreq = s.scFreq := rfl
@[simp] theorem State.emit_scVer (s : State) (e : Event) : (s.emit e).scVer = s.scVer := rfl
@[simp] theorem State.emit_resetRequest (s : State) (e : Event) : (s.emit e).resetRequest = s.resetRequest := rfl
@[simp] theorem State.emit_force (s : State) (e : Event) : (s.emit e).force = s.force := rfl
@[simp] theorem State.emit_rx (s : State) (e : Event) : (s.emit e).rx = s.rx := rfl
@[simp] theorem State.emit_txReady (s : State) (e : Event) : (s.emit e).txReady = s.txReady := rfl
@[simp] theorem State.emit_flashReady (s : State) (e : Event) : (s.emit e).flashReady = s.flashReady := rfl
@[simp] theorem State.emit_trace (s : State) (e : Event) : (s.emit e).trace = s.trace ++ [e] := rfl
@[simp] theorem State.emit_env (s : State) (e : Event) : (s.emit e).env = s.env := rfl
@[simp] theorem State.emit_draws (s : State) (e : Event) : (s.emit e).draws = s.draws := rfl

/-! ### `State.advance` -/

@[simp] theorem State.advance_params (s : State) : (s.advance).params = s.params := rfl
@[simp] theorem State.advance_cs (s : State) : (s.advance).cs = s.cs := rfl
@[simp] theorem State.advance_cur (s : State) : (s.advance).cur = s.cur + 1 := rfl
@[simp] theorem State.advance_buf (s : State) : (s.advance).buf = s.buf := rfl
@[simp] theorem State.advance_cnt (s : State) : (s.advance).cnt = s.cnt := rfl
@[simp] theorem State.advance_idx (s : State) : (s.advance).idx = s.idx := rfl
@[simp] theorem State.advance_arg (s : State) : (s.advance).arg = s.arg := rfl
@[simp] theorem State.advance_data (s : State) : (s.advance).data = s.data := rfl
@[simp] theorem State.advance_op (s : State) : (s.advance).op = s.op := rfl
@[simp] theorem State.advance_flash (s : State) : (s.advance).flash = s.flash := rfl
@[simp] theorem State.advance_rc (s : State) : (s.advance).rc = s.rc := rfl
@[simp] theorem State.advance_scFreq (s : State) : (s.advance).scFreq = s.scFreq := rfl
@[simp] theorem State.advance_scVer (s : State) : (s.advance).scVer = s.scVer := rfl
@[simp] theorem State.advance_resetRequest (s : State) : (s.advance).resetRequest = s.resetRequest := rfl
@[simp] theorem State.advance_force (s : State) : (s.advance).force = s.force := rfl
@[simp] theorem State.advance_rx (s : State) : (s.advance).rx = s.rx := rfl
@[simp] theorem State.advance_txReady (s : State) : (s.advance).txReady = s.txReady := rfl
@[simp] theorem State.advance_flashReady (s : State) : (s.advance).flashReady = s.flashReady := rfl
@[simp] theorem State.advance_trace (s : State) : (s.advance).trace = s.trace := rfl
@[simp] theorem State.advance_env (s : State) : (s.advance).env = s.env := rfl
@[simp] theorem State.advance_draws (s : State) : (s.advance).draws = s.draws := rfl

/-! ### `State.nextIndex` -/

@[simp] theorem State.nextIndex_params (s : State) : (s.nextIndex).params = s.params := rfl
@[simp] theorem State.nextIndex_cs (s : State) : (s.nextIndex).cs = s.cs := rfl
@[simp] theorem State.nextIndex_cur (s : State) : (s.nextIndex).cur = s.cur := rfl
@[simp] theorem State.nextIndex_buf (s : State) : (s.nextIndex).buf = s.buf := rfl
@[simp] theorem State.nextIndex_cnt (s : State) : (s.nextIndex).cnt = s.cnt := rfl
@[simp] theorem State.nextIndex_idx (s : State) : (s.nextIndex).idx = s.idx + 1 := rfl
@[simp] theorem State.nextIndex_arg (s : State) : (s.nextIndex).arg = s.arg := rfl
@[simp] theorem State.nextIndex_data (s : State) : (s.nextIndex).data = s.data := rfl
@[simp] theorem State.nextIndex_op (s : State) : (s.nextIndex).op = s.op := rfl
@[simp] theorem State.nextIndex_flash (s : State) : (s.nextIndex).flash = s.flash := rfl
@[simp] theorem State.nextIndex_rc (s : State) : (s.nextIndex).rc = s.rc := rfl
@[simp] theorem State.nextIndex_scFreq (s : State) : (s.nextIndex).scFreq = s.scFreq := rfl
@[simp] theorem State.nextIndex_scVer (s : State) : (s.nextIndex).scVer = s.scVer := rfl
@[simp] theorem State.nextIndex_resetRequest (s : State) : (s.nextIndex).resetRequest = s.resetRequest := rfl
@[simp] theorem State.nextIndex_force (s : State) : (s.nextIndex).force = s.force := rfl
@[simp] theorem State.nextIndex_rx (s : State) : (s.nextIndex).rx = s.rx := rfl
@[simp] theorem State.nextIndex_txReady (s : State) : (s.nextIndex).txReady = s.txReady := rfl
@[simp] theorem State.nextIndex_flashReady (s : State) : (s.nextIndex).flashReady = s.flashReady := rfl
@[simp] theorem State.nextIndex_trace (s : State) : (s.nextIndex).trace = s.trace := rfl
@[simp] theorem State.nextIndex_env (s : State) : (s.nextIndex).env = s.env := rfl
@[simp] theorem State.nextIndex_draws (s : State) : (s.nextIndex).draws = s.draws := rfl

/-! ### `State.programByte` -/

@[simp] theorem State.programByte_params (s : State) (a : Addr) (v : Byte) : (s.programByte a v).params = s.params := rfl
@[simp] theorem State.programByte_cs (s : State) (a : Addr) (v : Byte) : (s.programByte a v).cs = s.cs := rfl
@[simp] theorem State.programByte_cur (s : State) (a : Addr) (v : Byte) : (s.programByte a v).cur = s.cur := rfl
@[simp] theorem State.programByte_buf (s : State) (a : Addr) (v : Byte) : (s.programByte a v).buf = s.buf := rfl
@[simp] theorem State.programByte_cnt (s : State) (a : Addr) (v : Byte) : (s.programByte a v).cnt = s.cnt := rfl
@[simp] theorem State.programByte_idx (s : State) (a : Addr) (v : Byte) : (s.programByte a v).idx = s.idx := rfl
@[simp] theorem State.programByte_arg (s : State) (a : Addr) (v : Byte) : (s.programByte a v).arg = s.arg := rfl
@[simp] theorem State.programByte_data (s : State) (a : Addr) (v : Byte) : (s.programByte a v).data = s.data := rfl
@[simp] theorem State.programByte_op (s : State) (a : Addr) (v : Byte) : (s.programByte a v).op = s.op := rfl
@[simp] theorem State.programByte_flash (s : State) (a : Addr) (v : Byte) : (s.programByte a v).flash = s.flash.write a.toNat (Params.flashProgram s.params a (s.flash.read a.toNat) v) := rfl
@[simp] theorem State.programByte_rc (s : State) (a : Addr) (v : Byte) : (s.programByte a v).rc = s.rc := rfl
@[simp] theorem State.programByte_scFreq (s : State) (a : Addr) (v : Byte) : (s.programByte a v).scFreq = s.scFreq := rfl
@[simp] theorem State.programByte_scVer (s : State) (a : Addr) (v : Byte) : (s.programByte a v).scVer = s.scVer := rfl
@[simp] theorem State.programByte_resetRequest (s : State) (a : Addr) (v : Byte) : (s.programByte a v).resetRequest = s.resetRequest := rfl
@[simp] theorem State.programByte_force (s : State) (a : Addr) (v : Byte) : (s.programByte a v).force = s.force := rfl
@[simp] theorem State.programByte_rx (s : State) (a : Addr) (v : Byte) : (s.programByte a v).rx = s.rx := rfl
@[simp] theorem State.programByte_txReady (s : State) (a : Addr) (v : Byte) : (s.programByte a v).txReady = s.txReady := rfl
@[simp] theorem State.programByte_flashReady (s : State) (a : Addr) (v : Byte) : (s.programByte a v).flashReady = s.flashReady := rfl
@[simp] theorem State.programByte_trace (s : State) (a : Addr) (v : Byte) : (s.programByte a v).trace = s.trace := rfl
@[simp] theorem State.programByte_env (s : State) (a : Addr) (v : Byte) : (s.programByte a v).env = s.env := rfl
@[simp] theorem State.programByte_draws (s : State) (a : Addr) (v : Byte) : (s.programByte a v).draws = s.draws := rfl

/-! ### `State.eraseRegion` -/

@[simp] theorem State.eraseRegion_params (s : State) (r : RegionName) : (s.eraseRegion r).params = s.params := rfl
@[simp] theorem State.eraseRegion_cs (s : State) (r : RegionName) : (s.eraseRegion r).cs = s.cs := rfl
@[simp] theorem State.eraseRegion_cur (s : State) (r : RegionName) : (s.eraseRegion r).cur = s.cur := rfl
@[simp] theorem State.eraseRegion_buf (s : State) (r : RegionName) : (s.eraseRegion r).buf = s.buf := rfl
@[simp] theorem State.eraseRegion_cnt (s : State) (r : RegionName) : (s.eraseRegion r).cnt = s.cnt := rfl
@[simp] theorem State.eraseRegion_idx (s : State) (r : RegionName) : (s.eraseRegion r).idx = s.idx := rfl
@[simp] theorem State.eraseRegion_arg (s : State) (r : RegionName) : (s.eraseRegion r).arg = s.arg := rfl
@[simp] theorem State.eraseRegion_data (s : State) (r : RegionName) : (s.eraseRegion r).data = s.data := rfl
@[simp] theorem State.eraseRegion_op (s : State) (r : RegionName) : (s.eraseRegion r).op = s.op := rfl
@[simp] theorem State.eraseRegion_flash (s : State) (r : RegionName) : (s.eraseRegion r).flash = s.flash.fill (Params.region s.params r) s.params.erasedByte := rfl
@[simp] theorem State.eraseRegion_rc (s : State) (r : RegionName) : (s.eraseRegion r).rc = s.rc := rfl
@[simp] theorem State.eraseRegion_scFreq (s : State) (r : RegionName) : (s.eraseRegion r).scFreq = s.scFreq := rfl
@[simp] theorem State.eraseRegion_scVer (s : State) (r : RegionName) : (s.eraseRegion r).scVer = s.scVer := rfl
@[simp] theorem State.eraseRegion_resetRequest (s : State) (r : RegionName) : (s.eraseRegion r).resetRequest = s.resetRequest := rfl
@[simp] theorem State.eraseRegion_force (s : State) (r : RegionName) : (s.eraseRegion r).force = s.force := rfl
@[simp] theorem State.eraseRegion_rx (s : State) (r : RegionName) : (s.eraseRegion r).rx = s.rx := rfl
@[simp] theorem State.eraseRegion_txReady (s : State) (r : RegionName) : (s.eraseRegion r).txReady = s.txReady := rfl
@[simp] theorem State.eraseRegion_flashReady (s : State) (r : RegionName) : (s.eraseRegion r).flashReady = s.flashReady := rfl
@[simp] theorem State.eraseRegion_trace (s : State) (r : RegionName) : (s.eraseRegion r).trace = s.trace := rfl
@[simp] theorem State.eraseRegion_env (s : State) (r : RegionName) : (s.eraseRegion r).env = s.env := rfl
@[simp] theorem State.eraseRegion_draws (s : State) (r : RegionName) : (s.eraseRegion r).draws = s.draws := rfl

/-! ### `State.takeOpcode` -/

@[simp] theorem State.takeOpcode_params (s : State) (b : Byte) (rest : List Byte) : (s.takeOpcode b rest).params = s.params := rfl
@[simp] theorem State.takeOpcode_cs (s : State) (b : Byte) (rest : List Byte) : (s.takeOpcode b rest).cs = s.cs := rfl
@[simp] theorem State.takeOpcode_cur (s : State) (b : Byte) (rest : List Byte) : (s.takeOpcode b rest).cur = s.cur := rfl
@[simp] theorem State.takeOpcode_buf (s : State) (b : Byte) (rest : List Byte) : (s.takeOpcode b rest).buf = s.buf := rfl
@[simp] theorem State.takeOpcode_cnt (s : State) (b : Byte) (rest : List Byte) : (s.takeOpcode b rest).cnt = s.cnt := rfl
@[simp] theorem State.takeOpcode_idx (s : State) (b : Byte) (rest : List Byte) : (s.takeOpcode b rest).idx = s.idx := rfl
@[simp] theorem State.takeOpcode_arg (s : State) (b : Byte) (rest : List Byte) : (s.takeOpcode b rest).arg = s.arg := rfl
@[simp] theorem State.takeOpcode_data (s : State) (b : Byte) (rest : List Byte) : (s.takeOpcode b rest).data = s.data := rfl
@[simp] theorem State.takeOpcode_op (s : State) (b : Byte) (rest : List Byte) : (s.takeOpcode b rest).op = b := rfl
@[simp] theorem State.takeOpcode_flash (s : State) (b : Byte) (rest : List Byte) : (s.takeOpcode b rest).flash = s.flash := rfl
@[simp] theorem State.takeOpcode_rc (s : State) (b : Byte) (rest : List Byte) : (s.takeOpcode b rest).rc = s.rc := rfl
@[simp] theorem State.takeOpcode_scFreq (s : State) (b : Byte) (rest : List Byte) : (s.takeOpcode b rest).scFreq = s.scFreq := rfl
@[simp] theorem State.takeOpcode_scVer (s : State) (b : Byte) (rest : List Byte) : (s.takeOpcode b rest).scVer = s.scVer := rfl
@[simp] theorem State.takeOpcode_resetRequest (s : State) (b : Byte) (rest : List Byte) : (s.takeOpcode b rest).resetRequest = s.resetRequest := rfl
@[simp] theorem State.takeOpcode_force (s : State) (b : Byte) (rest : List Byte) : (s.takeOpcode b rest).force = s.force := rfl
@[simp] theorem State.takeOpcode_rx (s : State) (b : Byte) (rest : List Byte) : (s.takeOpcode b rest).rx = rest := rfl
@[simp] theorem State.takeOpcode_txReady (s : State) (b : Byte) (rest : List Byte) : (s.takeOpcode b rest).txReady = s.txReady := rfl
@[simp] theorem State.takeOpcode_flashReady (s : State) (b : Byte) (rest : List Byte) : (s.takeOpcode b rest).flashReady = s.flashReady := rfl
@[simp] theorem State.takeOpcode_trace (s : State) (b : Byte) (rest : List Byte) : (s.takeOpcode b rest).trace = s.trace ++ [.rx b] := rfl
@[simp] theorem State.takeOpcode_env (s : State) (b : Byte) (rest : List Byte) : (s.takeOpcode b rest).env = s.env := rfl
@[simp] theorem State.takeOpcode_draws (s : State) (b : Byte) (rest : List Byte) : (s.takeOpcode b rest).draws = s.draws := rfl

end Sys2Proof.Machine
end

