-- ==== Sys2Proof/Laws/Ops.lean ====
section
/-! SUPPORT. One lemma per shared operation that says everything it can do: when it answers a next state, and which. A
later proof cites these and does not unfold the operation. -/

namespace Sys2Proof.Machine

@[simp] theorem goTo_next {c : CommandState} {s t : State} : goTo c s = .next t ↔ t = s.goto c := by
  simp [goTo, eq_comm]

@[simp] theorem hold_next {s t : State} : hold s = .next t ↔ t = s := by simp [hold, eq_comm]

@[simp] theorem outOfSequence_next {t : State} : outOfSequence = .next t ↔ False := by simp [outOfSequence]

@[simp] theorem abort_next {cause : AbortCause} {s t : State} :
    abort cause s = .next t ↔ t = (s.emit (.abort cause)).goto .idle := by simp [abort, eq_comm]

theorem rxByte_nil {k : Byte → State → Outcome} {s : State} (h : s.rx = []) : rxByte k s = .next s := by
  simp [rxByte, h, hold]

theorem rxByte_cons {k : Byte → State → Outcome} {s : State} {b : Byte} {rest : List Byte} (h : s.rx = b :: rest) :
    rxByte k s = k b ({ s with rx := rest }.emit (.rx b)) := by simp [rxByte, h]

theorem rxByte_next {k : Byte → State → Outcome} {s t : State} :
    rxByte k s = .next t ↔ (s.rx = [] ∧ t = s) ∨
      ∃ b rest, s.rx = b :: rest ∧ k b ({ s with rx := rest }.emit (.rx b)) = .next t := by
  cases h : s.rx with
  | nil => simp [rxByte_nil h, eq_comm]
  | cons b rest => simp [rxByte_cons h]

theorem txByte_next {b : Byte} {k : State → Outcome} {s t : State} :
    txByte b k s = .next t ↔ (s.txReady = false ∧ t = s) ∨ (s.txReady = true ∧ k (s.emit (.tx b)) = .next t) := by
  cases h : s.txReady <;> simp [txByte, h]

theorem memRead_next {a : Addr} {k : Byte → State → Outcome} {s t : State} :
    memRead a k s = .next t ↔ (s.flashReady = false ∧ t = s) ∨
      (s.flashReady = true ∧ k (s.flash.read a.toNat) (s.emit (.memRead a (s.flash.read a.toNat))) = .next t) := by
  cases h : s.flashReady <;> simp [memRead, h]

theorem memWrite_next {a : Addr} {v : Byte} {k : State → Outcome} {s t : State} :
    memWrite a v k s = .next t ↔ (s.flashReady = false ∧ t = s) ∨
      (s.flashReady = true ∧ k ((s.programByte a v).emit (.memWrite a v)) = .next t) := by
  cases h : s.flashReady <;> simp [memWrite, h]

theorem flashErase_next {r : RegionName} {k : State → Outcome} {s t : State} :
    flashErase r k s = .next t ↔ (s.flashReady = false ∧ t = s) ∨
      (s.flashReady = true ∧ k ((s.eraseRegion r).emit (.flashErase r)) = .next t) := by
  cases h : s.flashReady <;> simp [flashErase, h]

theorem imageValid_next {k : Bool → State → Outcome} {s t : State} :
    imageValid k s = .next t ↔ (s.flashReady = false ∧ t = s) ∨
      (s.flashReady = true ∧ k (Params.imageValid s.params s.flash)
        (s.emit (.imageValid (Params.imageValid s.params s.flash))) = .next t) := by
  cases h : s.flashReady <;> simp [imageValid, h]

/-- A terminator step: it waits, it meets `EOC` and goes on, or it meets another byte and aborts. -/
theorem takeEoc_next {cause : AbortCause} {k : State → Outcome} {s t : State} :
    takeEoc cause k s = .next t ↔ (s.rx = [] ∧ t = s) ∨ ∃ b rest, s.rx = b :: rest ∧
      ((b = s.params.eoc ∧ k ({ s with rx := rest }.emit (.rx b)) = .next t) ∨
        (b ≠ s.params.eoc ∧ t = (({ s with rx := rest }.emit (.rx b)).emit (.abort cause)).goto .idle)) := by
  unfold takeEoc
  rw [rxByte_next]
  refine or_congr Iff.rfl (exists_congr fun b => exists_congr fun rest => and_congr_right fun _ => ?_)
  by_cases hb : b = s.params.eoc <;> simp [State.isEoc, hb]

theorem preEoc_next {c : CommandState} {s t : State} :
    preEoc c s = .next t ↔ (s.rx = [] ∧ t = s) ∨ ∃ b rest, s.rx = b :: rest ∧
      ((b = s.params.eoc ∧ t = ({ s with rx := rest }.emit (.rx b)).goto c) ∨
        (b ≠ s.params.eoc ∧
          t = (({ s with rx := rest }.emit (.rx b)).emit (.abort .precheckEoc)).goto .idle)) := by
  simp [preEoc, takeEoc_next]

theorem ackInsync_next {s t : State} :
    ackInsync s = .next t ↔ (s.txReady = false ∧ t = s) ∨
      (s.txReady = true ∧ t = (s.emit (.tx s.params.inSync)).goto .ackOk) := by
  simp [ackInsync, txByte_next]

theorem ackOk_next {s t : State} :
    ackOk s = .next t ↔ (s.txReady = false ∧ t = s) ∨
      (s.txReady = true ∧ t = (s.emit (.tx s.params.okByte)).goto .idle) := by
  simp [ackOk, txByte_next]

/-- A program request keeps the canonical form of flash. -/
theorem State.programByte_wf {s : State} (a : Addr) (v : Byte) (h : s.flash.wf) : (s.programByte a v).flash.wf :=
  Memory.wf_write _ (by simpa using a.isLt) h

/-- An erase keeps the canonical form of flash. -/
theorem State.eraseRegion_wf {s : State} (r : RegionName) (h : s.flash.wf) : (s.eraseRegion r).flash.wf :=
  Memory.wf_fill _ _ h

/-- What a reset does to the state the spec speaks of (spec/70_reset_and_hazards.md R280). -/
theorem takeReset_spec (kind : ResetKind) (s : State) :
    (takeReset kind s).cs = .bgFault ∧ (takeReset kind s).flash = s.flash ∧ (takeReset kind s).params = s.params ∧
      (takeReset kind s).buf.length = s.params.cap ∧ (takeReset kind s).resetRequest = false ∧
      (takeReset kind s).env = s.env := by
  simp [takeReset]

/-- An action of the environment leaves parameters, flash and pending actions alone. -/
theorem applyEnv_spec (a : EnvAction) (s : State) :
    (applyEnv a s).params = s.params ∧ (applyEnv a s).flash = s.flash ∧ (applyEnv a s).env = s.env := by
  cases a <;> simp only [applyEnv] <;> (try split) <;> simp [takeReset]

end Sys2Proof.Machine
end

