-- ==== Sys2Proof/Laws/Exec.lean ====
section
/-! SUPPORT. One lemma per meaning that says everything it can do: the steps of each command, from which every frame
follows. -/

namespace Sys2Proof.Machine

theorem execGetSync_next {s t : State} (h : execGetSync s = .next t) :
    (s.cs = .idle ∧ t = s.goto .preEoc) ∨ (s.cs = .preEoc ∧ preEoc .ackInsync s = .next t) ∨
      (s.cs = .ackInsync ∧ ackInsync s = .next t) ∨ (s.cs = .ackOk ∧ ackOk s = .next t) := by
  unfold execGetSync at h
  split at h
  case h_5 => simp at h
  all_goals try rw [goTo_next] at h
  all_goals simp [*]

theorem execGetDevice_next {s t : State} (h : execGetDevice s = .next t) :
    (s.cs = .idle ∧ t = s.goto .preEoc) ∨ (s.cs = .preEoc ∧ preEoc .gdId s = .next t) ∨
      (s.cs = .gdId ∧ txByte s.params.boardId (goTo .gdFreq) s = .next t) ∨
      (s.cs = .gdFreq ∧ txByte s.params.boardFreq (goTo .ackInsync) s = .next t) ∨
      (s.cs = .ackInsync ∧ ackInsync s = .next t) ∨ (s.cs = .ackOk ∧ ackOk s = .next t) := by
  unfold execGetDevice at h
  split at h
  case h_7 => simp at h
  all_goals try rw [goTo_next] at h
  all_goals simp [*]

theorem execChipErase_next {s t : State} (h : execChipErase s = .next t) :
    (s.cs = .idle ∧ t = s.goto .preEoc) ∨ (s.cs = .preEoc ∧ preEoc .ceErase s = .next t) ∨
      (s.cs = .ceErase ∧ flashErase .app (goTo .ackInsync) s = .next t) ∨
      (s.cs = .ackInsync ∧ ackInsync s = .next t) ∨ (s.cs = .ackOk ∧ ackOk s = .next t) := by
  unfold execChipErase at h
  split at h
  case h_6 => simp at h
  all_goals try rw [goTo_next] at h
  all_goals simp [*]

theorem execParamErase_next {s t : State} (h : execParamErase s = .next t) :
    (s.cs = .idle ∧ t = s.goto .preEoc) ∨ (s.cs = .preEoc ∧ preEoc .peErase s = .next t) ∨
      (s.cs = .peErase ∧ flashErase .param (goTo .ackInsync) s = .next t) ∨
      (s.cs = .ackInsync ∧ ackInsync s = .next t) ∨ (s.cs = .ackOk ∧ ackOk s = .next t) := by
  unfold execParamErase at h
  split at h
  case h_6 => simp at h
  all_goals try rw [goTo_next] at h
  all_goals simp [*]

theorem execLoadAddress_next {s t : State} (h : execLoadAddress s = .next t) :
    (s.cs = .idle ∧ t = s.goto .laLo) ∨
      (s.cs = .laLo ∧ rxByte (fun b s => goTo .laHi { s with arg := setLowByte s.arg b }) s = .next t) ∨
      (s.cs = .laHi ∧ rxByte (fun b s => goTo .laEoc (loadHighByte b s)) s = .next t) ∨
      (s.cs = .laEoc ∧ takeEoc .handlerEoc (fun s => goTo .ackInsync { s with cur := s.arg }) s = .next t) ∨
      (s.cs = .ackInsync ∧ ackInsync s = .next t) ∨ (s.cs = .ackOk ∧ ackOk s = .next t) := by
  unfold execLoadAddress at h
  split at h
  case h_7 => simp at h
  all_goals try rw [goTo_next] at h
  all_goals simp [*]

theorem execProgFlash_next {s t : State} (h : execProgFlash s = .next t) :
    (s.cs = .idle ∧ t = s.goto .pfData) ∨
      (s.cs = .pfData ∧ rxByte (fun b s => goTo .pfEoc { s with data := b }) s = .next t) ∨
      (s.cs = .pfEoc ∧ takeEoc .handlerEoc (goTo .pfWrite) s = .next t) ∨
      (s.cs = .pfWrite ∧ memWrite s.cur s.data (fun s => goTo .ackInsync s.advance) s = .next t) ∨
      (s.cs = .ackInsync ∧ ackInsync s = .next t) ∨ (s.cs = .ackOk ∧ ackOk s = .next t) := by
  unfold execProgFlash at h
  split at h
  case h_7 => simp at h
  all_goals try rw [goTo_next] at h
  all_goals simp [*]

theorem execReadFlash_next {s t : State} (h : execReadFlash s = .next t) :
    (s.cs = .idle ∧ t = s.goto .preEoc) ∨ (s.cs = .preEoc ∧ preEoc .rfRead s = .next t) ∨
      (s.cs = .rfRead ∧ memRead s.cur (fun b s => goTo .rfSend { s.advance with data := b }) s = .next t) ∨
      (s.cs = .rfSend ∧ txByte s.data (goTo .ackInsync) s = .next t) ∨
      (s.cs = .ackInsync ∧ ackInsync s = .next t) ∨ (s.cs = .ackOk ∧ ackOk s = .next t) := by
  unfold execReadFlash at h
  split at h
  case h_7 => simp at h
  all_goals try rw [goTo_next] at h
  all_goals simp_all

theorem execProgMulti_next {s t : State} (h : execProgMulti s = .next t) :
    (s.cs = .idle ∧ t = s.goto .pmCount) ∨ (s.cs = .pmCount ∧ progMultiCount s = .next t) ∨
      (s.cs = .pmData ∧ progMultiData s = .next t) ∨ (s.cs = .pmEoc ∧ progMultiEoc s = .next t) ∨
      (s.cs = .pmWrite ∧ progMultiWrite s = .next t) ∨
      (s.cs = .ackInsync ∧ ackInsync s = .next t) ∨ (s.cs = .ackOk ∧ ackOk s = .next t) := by
  unfold execProgMulti at h
  split at h
  case h_8 => simp at h
  all_goals try rw [goTo_next] at h
  all_goals simp [*]

theorem execReadMulti_next {s t : State} (h : execReadMulti s = .next t) :
    (s.cs = .idle ∧ t = s.goto .rmCount) ∨
      (s.cs = .rmCount ∧ rxByte (fun count s => goTo .rmEoc { s with cnt := count }) s = .next t) ∨
      (s.cs = .rmEoc ∧ readMultiEoc s = .next t) ∨
      (s.cs = .rmRead ∧ memRead s.cur (fun b s => goTo .rmSend { s.advance.nextIndex with data := b }) s = .next t) ∨
      (s.cs = .rmSend ∧ txByte s.data (fun s => goTo (if s.allSent then .ackInsync else .rmRead) s) s = .next t) ∨
      (s.cs = .ackInsync ∧ ackInsync s = .next t) ∨ (s.cs = .ackOk ∧ ackOk s = .next t) := by
  unfold execReadMulti at h
  split at h
  case h_8 => simp at h
  all_goals try rw [goTo_next] at h
  all_goals simp_all

theorem execReboot_next {s t : State} (h : execReboot s = .next t) :
    (s.cs = .idle ∧ t = s.goto .rbSet) ∨ (s.cs = .rbSet ∧ setSwReset (goTo .resetPending) s = .next t) := by
  unfold execReboot at h
  split at h
  case h_3 => simp at h
  all_goals try rw [goTo_next] at h
  all_goals simp [*]

/-- Step `PM_COUNT`: it waits, aborts an oversized count, or goes to the data or, for a count of 0, to the terminator. -/
theorem progMultiCount_next {s t : State} : progMultiCount s = .next t ↔ (s.rx = [] ∧ t = s) ∨
    ∃ c rest, s.rx = c :: rest ∧
      ((s.params.cap < c.toNat ∧ t = { s with
          cs := .idle, cnt := c, idx := 0, rx := rest, trace := s.trace ++ [.rx c] ++ [.abort .oversize] }) ∨
        (¬ s.params.cap < c.toNat ∧ t = { s with
          cs := if c = 0 then .pmEoc else .pmData
          cnt := c, idx := 0, rx := rest, trace := s.trace ++ [.rx c] })) := by
  unfold progMultiCount
  rw [rxByte_next]
  refine or_congr Iff.rfl (exists_congr fun c => exists_congr fun rest => and_congr_right fun _ => ?_)
  by_cases h : s.params.cap < c.toNat
  · simp [State.oversize, h, State.emit, State.goto]
  · simp only [State.oversize, State.emit, h, decide_false, Bool.false_eq_true, if_false, false_and, false_or, not_false_eq_true,
      true_and]
    split <;> simp [State.goto]

/-- Step `PM_DATA`: it waits, or stages the byte. -/
theorem progMultiData_next {s t : State} : progMultiData s = .next t ↔ (s.rx = [] ∧ t = s) ∨
    ∃ b rest, s.rx = b :: rest ∧ s.idx.toNat < s.buf.length ∧ t = { s with
      cs := if s.idx + 1 = s.cnt then .pmEoc else .pmData
      buf := s.buf.set s.idx.toNat b, idx := s.idx + 1, rx := rest, trace := s.trace ++ [.rx b] } := by
  unfold progMultiData
  rw [rxByte_next]
  refine or_congr Iff.rfl (exists_congr fun c => exists_congr fun rest => and_congr_right fun _ => ?_)
  by_cases h : s.idx.toNat < s.buf.length
  · simp [State.lastByte, h, State.emit, State.goto, State.nextIndex]
  · simp [h]

/-- Step `PM_EOC`: it waits, aborts, or goes to the commit phase. -/
theorem progMultiEoc_next {s t : State} : progMultiEoc s = .next t ↔ (s.rx = [] ∧ t = s) ∨ ∃ b rest, s.rx = b :: rest ∧
    ((b = s.params.eoc ∧ t = { s with
        cs := if s.cnt = 0 then .ackInsync else .pmWrite
        idx := 0, rx := rest, trace := s.trace ++ [.rx b] }) ∨
      (b ≠ s.params.eoc ∧ t = { s with
        cs := .idle, rx := rest, trace := s.trace ++ [.rx b] ++ [.abort .handlerEoc] })) := by
  unfold progMultiEoc
  rw [takeEoc_next]
  simp [State.emit, State.goto]
  rfl

/-- Step `PM_WRITE`: it waits, or programs the staged byte. -/
theorem progMultiWrite_next {s t : State} : progMultiWrite s = .next t ↔ ∃ v, s.buf[s.idx.toNat]? = some v ∧
    ((s.flashReady = false ∧ t = s) ∨ (s.flashReady = true ∧ t = { s with
      cs := if s.idx + 1 = s.cnt then .ackInsync else .pmWrite
      cur := s.cur + 1, idx := s.idx + 1
      flash := s.flash.write s.cur.toNat (Params.flashProgram s.params s.cur (s.flash.read s.cur.toNat) v)
      trace := s.trace ++ [.memWrite s.cur v] })) := by
  unfold progMultiWrite
  split
  · next v hv =>
    rw [memWrite_next]
    simp [hv, State.lastByte, State.emit, State.goto, State.nextIndex, State.advance, State.programByte]
  · next hv => simp [hv]

/-- Step `RM_EOC`: it waits, aborts, or goes to the transfer. -/
theorem readMultiEoc_next {s t : State} : readMultiEoc s = .next t ↔ (s.rx = [] ∧ t = s) ∨ ∃ b rest, s.rx = b :: rest ∧
    ((b = s.params.eoc ∧ t = { s with
        cs := if s.cnt = 0 then .ackInsync else .rmRead
        idx := 0, rx := rest, trace := s.trace ++ [.rx b] }) ∨
      (b ≠ s.params.eoc ∧ t = { s with
        cs := .idle, rx := rest, trace := s.trace ++ [.rx b] ++ [.abort .handlerEoc] })) := by
  unfold readMultiEoc
  rw [takeEoc_next]
  simp [State.emit, State.goto]
  rfl

end Sys2Proof.Machine
end

