-- ==== Sys2Proof/Laws/Step.lean ====
section
/-! SUPPORT. What a step is: an action of the environment, or the block's step under the launch premise. -/

namespace Sys2Proof.Machine

/-- The block's step, without the environment and the launch premise. -/
def blockStep (u : State) : Outcome := (blockTurn u).outcome

theorem step_of_blockState {s u : State} (hw : s.params.wf = true) (hb : s.blockState = some u) : step s = blockStep u := by
  unfold State.blockState at hb
  unfold step nextTurn launchedTurn blockStep
  split at hb <;> simp_all

theorem step_refused {s u : State} (hw : s.params.wf = false) (hb : s.blockState = some u) :
    step s = .refused .launchPremise := by
  unfold State.blockState at hb
  unfold step nextTurn launchedTurn Turn.outcome
  split at hb <;> simp_all

theorem step_of_env_nil {s : State} (hw : s.params.wf = true) (he : s.env = []) : step s = blockStep s :=
  step_of_blockState hw (by simp [State.blockState, he])

theorem step_env {s : State} {a : EnvAction} {rest : List EnvAction} (he : s.env = a :: rest) (ha : a ≠ .run) :
    step s = .next (applyEnv a { s with env := rest }) := by
  unfold step nextTurn Turn.outcome
  cases a <;> simp_all

/-- Everything a step that answers a next state can be. -/
theorem step_cases {s t : State} (h : step s = .next t) :
    (∃ a rest, s.env = a :: rest ∧ a ≠ .run ∧ t = applyEnv a { s with env := rest }) ∨
      ∃ u, s.blockState = some u ∧ s.params.wf = true ∧ blockStep u = .next t := by
  cases hb : s.blockState with
  | some u =>
    by_cases hw : s.params.wf = true
    · exact .inr ⟨u, rfl, hw, by rw [← step_of_blockState hw hb, h]⟩
    · rw [step_refused (by simpa using hw) hb] at h
      cases h
  | none =>
    unfold State.blockState at hb
    split at hb <;> try cases hb
    next h1 h2 =>
      cases he : s.env with
      | nil => exact absurd he h1
      | cons a rest =>
        have ha : a ≠ .run := by
          rintro rfl
          exact h2 rest he
        rw [step_env he ha] at h
        exact .inl ⟨a, rest, rfl, ha, by cases h; rfl⟩

/-- The state a step of the block starts from differs from the machine's in the pending actions only. -/
theorem blockState_spec {s u : State} (h : s.blockState = some u) : u = { s with env := u.env } := by
  unfold State.blockState at h
  split at h <;> simp_all
  all_goals (subst h; simp_all)

theorem reaches_zero {s t : State} : Reaches 0 s t ↔ t = s := Iff.rfl

theorem reaches_succ {n : Nat} {s t : State} : Reaches (n + 1) s t ↔ ∃ u, step s = .next u ∧ Reaches n u t := Iff.rfl

theorem reaches_trans {n m : Nat} {s u t : State} (h : Reaches n s u) (h' : Reaches m u t) : Reaches (n + m) s t := by
  induction n generalizing s with
  | zero => rw [reaches_zero] at h; subst h; simpa using h'
  | succ n ih =>
    obtain ⟨v, hv, hr⟩ := reaches_succ.1 h
    rw [show n + 1 + m = n + m + 1 by omega]
    exact reaches_succ.2 ⟨v, hv, ih hr⟩

end Sys2Proof.Machine
end

