-- ==== Sys2Proof/Laws/Block.lean ====
section
/-! SUPPORT. The inversion of the block's step: every step that answers a next state is a wait or a row of the transition
table (spec/41_framing_dispatch.md R170). -/

namespace Sys2Proof.Machine

/-- Everything a step of the block can be, in any state: it changes nothing, it is a row of the table, or it is one of
the three steps whose row asks for an index within its bounds, which here is not assumed. -/
theorem blockStep_next {u t : State} (h : blockStep u = .next t) :
    t = u ∨ Row u t ∨
      (∃ b rest, u.cs = .pmData ∧ u.rx = b :: rest ∧ u.idx.toNat < u.buf.length ∧ t = { u with
        cs := if u.idx + 1 = u.cnt then .pmEoc else .pmData
        buf := u.buf.set u.idx.toNat b, idx := u.idx + 1, rx := rest, trace := u.trace ++ [.rx b] }) ∨
      (∃ v, u.cs = .pmWrite ∧ u.flashReady = true ∧ u.buf[u.idx.toNat]? = some v ∧ t = { u with
        cs := if u.idx + 1 = u.cnt then .ackInsync else .pmWrite
        cur := u.cur + 1, idx := u.idx + 1
        flash := u.flash.write u.cur.toNat (Params.flashProgram u.params u.cur (u.flash.read u.cur.toNat) v)
        trace := u.trace ++ [.memWrite u.cur v] }) ∨
      (u.cs = .rmSend ∧ u.txReady = true ∧ t = { u with
        cs := if u.idx = u.cnt then .ackInsync else .rmRead
        trace := u.trace ++ [.tx u.data] }) := by
  unfold blockStep blockTurn Turn.outcome at h
  cases hc : u.cs <;> simp only [hc] at h
  case bgFault =>
    simp only [bootFault, sampleFlashFault, goTo_next] at h
    cases hf : u.rc.flashFault <;> simp [hf] at h <;> subst h
    · exact .inr (.inl (.bgFaultClear hc hf))
    · exact .inr (.inl (.bgFaultSet hc hf))
  case bgValid =>
    simp only [bootValid, imageValid_next, goTo_next] at h
    rcases h with ⟨-, rfl⟩ | ⟨hr, h⟩
    · exact .inl rfl
    cases hf : Params.imageValid u.params u.flash <;> simp [hf] at h <;> subst h
    · exact .inr (.inl (.bgValidFalse hc hr hf))
    · exact .inr (.inl (.bgValidTrue hc hr hf))
  case bgForce =>
    simp only [bootForce, sampleForce, goTo_next] at h
    cases hf : u.force <;> simp [hf] at h <;> subst h
    · exact .inr (.inl (.bgForceInactive hc hf))
    · exact .inr (.inl (.bgForceActive hc hf))
  case bgScFreq =>
    simp only [bootScFreq, writeScFreq, goTo_next] at h
    subst h; exact .inr (.inl (.bgScFreq hc))
  case bgScVer =>
    simp only [bootScVer, writeScVer, goTo_next] at h
    subst h; exact .inr (.inl (.bgScVer hc))
  case bgJump =>
    simp only [bootJump, handoff, goTo_next] at h
    subst h; exact .inr (.inl (.bgJump hc))
  case bgEnterCmd =>
    simp only [bootEnterCmd, goTo_next] at h
    subst h; exact .inr (.inl (.bgEnterCmd hc))
  case idle =>
    unfold intake at h
    cases hx : u.rx with
    | nil => simp only [hx, hold_next] at h; exact .inl h
    | cons b rest =>
    cases hcl : u.params.classify b with
    | some i2 =>
        simp only [hx, hcl] at h
        have hop := Params.opcode_of_classify hcl
        have hidle : (u.takeOpcode b rest).cs = .idle := hc
        refine .inr (.inl ?_)
        cases i2 <;> simp only [exec] at h
        case getSync => simp only [execGetSync, hidle, goTo_next] at h; subst h; exact .idle b rest _ _ hc hx hop rfl
        case getDevice => simp only [execGetDevice, hidle, goTo_next] at h; subst h; exact .idle b rest _ _ hc hx hop rfl
        case chipErase => simp only [execChipErase, hidle, goTo_next] at h; subst h; exact .idle b rest _ _ hc hx hop rfl
        case paramErase => simp only [execParamErase, hidle, goTo_next] at h; subst h; exact .idle b rest _ _ hc hx hop rfl
        case readFlash => simp only [execReadFlash, hidle, goTo_next] at h; subst h; exact .idle b rest _ _ hc hx hop rfl
        case loadAddress => simp only [execLoadAddress, hidle, goTo_next] at h; subst h; exact .idle b rest _ _ hc hx hop rfl
        case progFlash => simp only [execProgFlash, hidle, goTo_next] at h; subst h; exact .idle b rest _ _ hc hx hop rfl
        case progMulti => simp only [execProgMulti, hidle, goTo_next] at h; subst h; exact .idle b rest _ _ hc hx hop rfl
        case readMulti => simp only [execReadMulti, hidle, goTo_next] at h; subst h; exact .idle b rest _ _ hc hx hop rfl
        case reboot => simp only [execReboot, hidle, goTo_next] at h; subst h; exact .idle b rest _ _ hc hx hop rfl
    | none =>
        simp only [hx, hcl, abort_next] at h
        subst h
        have := Row.idleInvalid b rest hc hx (Params.ne_opcode_of_classify hcl)
        refine .inr (.inl ?_)
        simpa [State.emit, State.goto, State.takeOpcode] using this
  case preEoc =>
    unfold precheck at h
    cases hcl : u.params.classify u.op with
    | none => simp [hcl] at h
    | some i =>
      simp only [hcl] at h
      have hop := Params.opcode_of_classify hcl
      have key : ∀ c, (i,c) ∈ [(Instr.getSync, CommandState.ackInsync), (.getDevice, .gdId), (.chipErase, .ceErase),
        (.paramErase, .peErase), (.readFlash, .rfRead)] → preEoc c u = .next t → t = u ∨ Row u t := by
        intro c hm hp
        rw [preEoc_next] at hp
        rcases hp with ⟨-, rfl⟩ | ⟨b, rest, hx, ⟨hb, rfl⟩ | ⟨hb, rfl⟩⟩
        · exact .inl rfl
        · exact .inr (.preEocGood b rest i c hc hx hb hop hm)
        · have := Row.preEocBad b rest hc hx hb
          exact .inr (by simpa [State.emit, State.goto] using this)
      cases i <;> simp only [exec] at h
      case getSync => simp only [execGetSync, hc] at h; exact (key _ (by simp) h).imp_right Or.inl
      case getDevice => simp only [execGetDevice, hc] at h; exact (key _ (by simp) h).imp_right Or.inl
      case chipErase => simp only [execChipErase, hc] at h; exact (key _ (by simp) h).imp_right Or.inl
      case paramErase => simp only [execParamErase, hc] at h; exact (key _ (by simp) h).imp_right Or.inl
      case readFlash => simp only [execReadFlash, hc] at h; exact (key _ (by simp) h).imp_right Or.inl
      case loadAddress => simp [execLoadAddress, hc] at h
      case progFlash => simp [execProgFlash, hc] at h
      case progMulti => simp [execProgMulti, hc] at h
      case readMulti => simp [execReadMulti, hc] at h
      case reboot => simp [execReboot, hc] at h
  case gdId =>
    simp only [exec, execGetDevice, hc, txByte_next, goTo_next] at h
    rcases h with ⟨-, rfl⟩ | ⟨hr, rfl⟩
    · exact .inl rfl
    · exact .inr (.inl (.gdId hc hr))
  case gdFreq =>
    simp only [exec, execGetDevice, hc, txByte_next, goTo_next] at h
    rcases h with ⟨-, rfl⟩ | ⟨hr, rfl⟩
    · exact .inl rfl
    · exact .inr (.inl (.gdFreq hc hr))
  case ceErase =>
    simp only [exec, execChipErase, hc, flashErase_next, goTo_next] at h
    rcases h with ⟨-, rfl⟩ | ⟨hr, rfl⟩
    · exact .inl rfl
    · exact .inr (.inl (.ceErase hc hr))
  case peErase =>
    simp only [exec, execParamErase, hc, flashErase_next, goTo_next] at h
    rcases h with ⟨-, rfl⟩ | ⟨hr, rfl⟩
    · exact .inl rfl
    · exact .inr (.inl (.peErase hc hr))
  case rfRead =>
    simp only [exec, execReadFlash, hc, memRead_next, goTo_next] at h
    rcases h with ⟨-, rfl⟩ | ⟨hr, rfl⟩
    · exact .inl rfl
    · exact .inr (.inl (.rfRead hc hr))
  case rfSend =>
    simp only [exec, execReadFlash, hc, txByte_next, goTo_next] at h
    rcases h with ⟨-, rfl⟩ | ⟨hr, rfl⟩
    · exact .inl rfl
    · exact .inr (.inl (.rfSend hc hr))
  case laLo =>
    simp only [exec, execLoadAddress, hc, rxByte_next, goTo_next] at h
    rcases h with ⟨-, rfl⟩ | ⟨b, rest, hx, rfl⟩
    · exact .inl rfl
    · exact .inr (.inl (.laLo b rest hc hx))
  case laHi =>
    simp only [exec, execLoadAddress, hc, rxByte_next, goTo_next] at h
    rcases h with ⟨-, rfl⟩ | ⟨b, rest, hx, rfl⟩
    · exact .inl rfl
    · cases he : u.params.laEarlyCommit
      · have := Row.laHi b rest hc hx he
        refine .inr (.inl ?_)
        simpa [loadHighByte, State.emit, State.goto, he] using this
      · have := Row.laHiEarly b rest hc hx he
        refine .inr (.inl ?_)
        simpa [loadHighByte, State.emit, State.goto, he] using this
  case laEoc =>
    simp only [exec, execLoadAddress, hc, takeEoc_next, goTo_next] at h
    rcases h with ⟨-, rfl⟩ | ⟨b, rest, hx, ⟨hb, rfl⟩ | ⟨hb, rfl⟩⟩
    · exact .inl rfl
    · exact .inr (.inl (.laEocGood b rest hc hx hb))
    · have := Row.laEocBad b rest hc hx hb
      exact .inr (.inl (by simpa [State.emit, State.goto] using this))
  case pfData =>
    simp only [exec, execProgFlash, hc, rxByte_next, goTo_next] at h
    rcases h with ⟨-, rfl⟩ | ⟨b, rest, hx, rfl⟩
    · exact .inl rfl
    · exact .inr (.inl (.pfData b rest hc hx))
  case pfEoc =>
    simp only [exec, execProgFlash, hc, takeEoc_next, goTo_next] at h
    rcases h with ⟨-, rfl⟩ | ⟨b, rest, hx, ⟨hb, rfl⟩ | ⟨hb, rfl⟩⟩
    · exact .inl rfl
    · exact .inr (.inl (.pfEocGood b rest hc hx hb))
    · have := Row.pfEocBad b rest hc hx hb
      exact .inr (.inl (by simpa [State.emit, State.goto] using this))
  case pfWrite =>
    simp only [exec, execProgFlash, hc, memWrite_next, goTo_next] at h
    rcases h with ⟨-, rfl⟩ | ⟨hr, rfl⟩
    · exact .inl rfl
    · exact .inr (.inl (.pfWrite hc hr))
  case pmCount =>
    simp only [exec, execProgMulti, hc, progMultiCount_next] at h
    rcases h with ⟨-, rfl⟩ | ⟨c, rest, hx, ⟨ho, rfl⟩ | ⟨ho, rfl⟩⟩
    · exact .inl rfl
    · have := Row.pmCountOver c rest hc hx ho
      exact .inr (.inl (by simpa using this))
    · by_cases h0 : c = 0
      · have := Row.pmCountZero c rest hc hx h0
        subst h0
        exact .inr (.inl (by simpa using this))
      · have h1 : c.toNat ≠ 0 := fun h => h0 (by simpa using BitVec.eq_of_toNat_eq (y := 0#8) h)
        have := Row.pmCount c rest hc hx (by omega) (by omega)
        exact .inr (.inl (by rw [if_neg h0]; exact this))
  case pmData =>
    simp only [exec, execProgMulti, hc, progMultiData_next] at h
    rcases h with ⟨-, rfl⟩ | ⟨b, rest, hx, hi, rfl⟩
    · exact .inl rfl
    · exact .inr (.inr (.inl ⟨b, rest, rfl, hx, hi, rfl⟩))
  case pmEoc =>
    simp only [exec, execProgMulti, hc, progMultiEoc_next] at h
    rcases h with ⟨-, rfl⟩ | ⟨b, rest, hx, ⟨hb, rfl⟩ | ⟨hb, rfl⟩⟩
    · exact .inl rfl
    · by_cases h0 : u.cnt = 0
      · have := Row.pmEocZero b rest hc hx hb h0
        exact .inr (.inl (by rw [if_pos h0]; exact this))
      · have h1 : u.cnt.toNat ≠ 0 := fun h => h0 (by simpa using BitVec.eq_of_toNat_eq (y := 0#8) h)
        have := Row.pmEocGood b rest hc hx hb (by omega)
        exact .inr (.inl (by rw [if_neg h0]; exact this))
    · have := Row.pmEocBad b rest hc hx hb
      exact .inr (.inl (by simpa [State.emit, State.goto] using this))
  case pmWrite =>
    simp only [exec, execProgMulti, hc, progMultiWrite_next] at h
    rcases h with ⟨v, hv, ⟨-, rfl⟩ | ⟨hr, rfl⟩⟩
    · exact .inl rfl
    · exact .inr (.inr (.inr (.inl ⟨v, rfl, hr, hv, rfl⟩)))
  case rmCount =>
    simp only [exec, execReadMulti, hc, rxByte_next, goTo_next] at h
    rcases h with ⟨-, rfl⟩ | ⟨b, rest, hx, rfl⟩
    · exact .inl rfl
    · exact .inr (.inl (.rmCount b rest hc hx))
  case rmEoc =>
    simp only [exec, execReadMulti, hc, readMultiEoc_next] at h
    rcases h with ⟨-, rfl⟩ | ⟨b, rest, hx, ⟨hb, rfl⟩ | ⟨hb, rfl⟩⟩
    · exact .inl rfl
    · by_cases h0 : u.cnt = 0
      · have := Row.rmEocZero b rest hc hx hb h0
        exact .inr (.inl (by rw [if_pos h0]; exact this))
      · have h1 : u.cnt.toNat ≠ 0 := fun h => h0 (by simpa using BitVec.eq_of_toNat_eq (y := 0#8) h)
        have := Row.rmEocGood b rest hc hx hb (by omega)
        exact .inr (.inl (by rw [if_neg h0]; exact this))
    · have := Row.rmEocBad b rest hc hx hb
      exact .inr (.inl (by simpa [State.emit, State.goto] using this))
  case rmRead =>
    simp only [exec, execReadMulti, hc, memRead_next, goTo_next] at h
    rcases h with ⟨-, rfl⟩ | ⟨hr, rfl⟩
    · exact .inl rfl
    · exact .inr (.inl (.rmRead hc hr))
  case rmSend =>
    simp only [exec, execReadMulti, hc, txByte_next, goTo_next] at h
    rcases h with ⟨-, rfl⟩ | ⟨hr, rfl⟩
    · exact .inl rfl
    · refine .inr (.inr (.inr (.inr ⟨rfl, hr, ?_⟩)))
      simp [State.allSent, State.emit, State.goto]
  case rbSet =>
    simp only [exec, execReboot, hc, setSwReset, goTo_next] at h
    subst h; exact .inr (.inl (.rbSet hc))
  case ackInsync =>
    simp only [ackInsync_next] at h
    rcases h with ⟨-, rfl⟩ | ⟨hr, rfl⟩
    · exact .inl rfl
    · exact .inr (.inl (.ackInsync hc hr))
  case ackOk =>
    simp only [ackOk_next] at h
    rcases h with ⟨-, rfl⟩ | ⟨hr, rfl⟩
    · exact .inl rfl
    · exact .inr (.inl (.ackOk hc hr))
  case handedOff => exact .inl (by simpa using h)
  case resetPending => exact .inl (by simpa using h)

end Sys2Proof.Machine
end

