-- ==== Sys2Proof/Laws/Frames.lean ====
section
/-! SUPPORT. The transactions of a whole frame: the small lemmas of `programEvents`, `readEvents` and `State.frameEvents`. -/

namespace Sys2Proof.Machine

@[simp] theorem programEvents_nil (a : Addr) : programEvents a [] = [] := rfl

@[simp] theorem programEvents_cons (a : Addr) (v : Byte) (vs : List Byte) :
    programEvents a (v :: vs) = .memWrite a v :: programEvents (a + 1) vs := rfl

@[simp] theorem readEvents_zero (m : Memory) (a : Addr) : readEvents m a 0 = [] := rfl

@[simp] theorem readEvents_succ (m : Memory) (a : Addr) (n : Nat) :
    readEvents m a (n + 1) = .memRead a (m.read a.toNat) :: .tx (m.read a.toNat) :: readEvents m (a + 1) n := rfl

theorem bytesAt_succ (m : Memory) (a : Addr) (n : Nat) :
    bytesAt m a (n + 1) = m.read a.toNat :: bytesAt m (a + 1) n := by
  simp only [bytesAt, List.range_succ_eq_map, List.map_cons, List.map_map]
  congr 1
  · simp
  · refine List.map_congr_left fun j _ => ?_
    simp only [Function.comp, Nat.succ_eq_add_one, BitVec.ofNat_add]
    congr 2
    rw [BitVec.add_assoc, BitVec.add_comm (BitVec.ofNat 16 j)]
    rfl

@[simp] theorem programEvents_sent (a : Addr) (vs : List Byte) : (programEvents a vs).filterMap Event.sentByte = [] := by
  induction vs generalizing a with
  | nil => rfl
  | cons v vs ih => simpa [Event.sentByte] using ih (a + 1)

@[simp] theorem readEvents_sent (m : Memory) (a : Addr) (n : Nat) :
    (readEvents m a n).filterMap Event.sentByte = bytesAt m a n := by
  induction n generalizing a with
  | zero => rfl
  | succ n ih => rw [readEvents_succ, bytesAt_succ, ← ih (a + 1)]; rfl

@[simp] theorem rxEvents_sent (bytes : List Byte) : (bytes.map Event.rx).filterMap Event.sentByte = [] := by
  simp [Event.sentByte]

@[simp] theorem txEvents_sent (bytes : List Byte) : (bytes.map Event.tx).filterMap Event.sentByte = bytes := by
  induction bytes with
  | nil => rfl
  | cons b bytes ih => simpa [Event.sentByte] using ih

/-- The bytes a frame's transactions send are its response (spec/30_encoding.md R113). -/
theorem State.frameEvents_sent (s : State) (f : Frame) : (s.frameEvents f).filterMap Event.sentByte = s.response f := by
  obtain ⟨i, args⟩ := f
  simp only [State.frameEvents, List.filterMap_append, rxEvents_sent, List.nil_append]
  cases i
  case readFlash =>
    show (readEvents s.flash s.cur 1).filterMap Event.sentByte ++ Params.ack s.params = _
    rw [readEvents_sent]
    rfl
  all_goals simp [State.handlerEvents, State.response, Event.sentByte, Params.ack]

end Sys2Proof.Machine
end

