-- ==== Sys2Proof/Laws/PerInstr.lean ====
section
/-! SUPPORT. A statement per instruction, as syntax: its opcode byte is classified as that instruction
(spec/30_encoding.md R102, R114). -/

namespace Sys2Proof.Laws.Opcode

/-- Under the launch premise the opcode byte of `i` is classified as `i`. -/
def Statement (i : Instr) : Prop := ∀ p : Params, p.wf = true → p.classify (p.opcode i) = some i

theorem getSync : Statement .getSync := fun _ h => Params.classify_opcode h _
theorem getDevice : Statement .getDevice := fun _ h => Params.classify_opcode h _
theorem chipErase : Statement .chipErase := fun _ h => Params.classify_opcode h _
theorem loadAddress : Statement .loadAddress := fun _ h => Params.classify_opcode h _
theorem progFlash : Statement .progFlash := fun _ h => Params.classify_opcode h _
theorem readFlash : Statement .readFlash := fun _ h => Params.classify_opcode h _
theorem progMulti : Statement .progMulti := fun _ h => Params.classify_opcode h _
theorem readMulti : Statement .readMulti := fun _ h => Params.classify_opcode h _
theorem paramErase : Statement .paramErase := fun _ h => Params.classify_opcode h _
theorem reboot : Statement .reboot := fun _ h => Params.classify_opcode h _

end Sys2Proof.Laws.Opcode
end

