-- ==== Sys2Proof/Tests/Slice0.lean ====
section
/-! SUPPORT. The model's own tests: well-formedness, decoding, single steps against spec/95_test_vectors.md, and for every
statement with hypotheses a concrete case that meets them. -/

namespace Sys2Proof.Tests

open Sys2Proof Sys2Proof.Machine

/-- The reset state moved to a command state, with bytes waiting in `rx`. -/
def inState (c : CommandState) (rx : List Byte) : State := { State.reset with cs := c, rx := rx }

/-- The same with an index, a count and staged bytes. -/
def inTransfer (c : CommandState) (idx cnt : Byte) (rx : List Byte) : State :=
  { inState c rx with idx := idx, cnt := cnt, buf := [0xAA, 0xBB] ++ List.replicate 30 0 }

/-- Whether an outcome is a next state of which `p` holds. -/
def nextIs (o : Outcome) (p : State → Bool) : Bool :=
  match o with
  | .next t => p t
  | _ => false

/-! ### Well-formedness: one ill-formed term for each check -/

/-- A frame with the wrong number of argument bytes for its format (spec/30_encoding.md R103 to R108), a payload that
is not as long as its count, and a count above `CAP` (R106). -/
theorem test_illFormedFramesRefused :
    (⟨.getSync, [0x00]⟩ : Frame).wf 32 = false ∧ (⟨.loadAddress, [0x00]⟩ : Frame).wf 32 = false ∧
    (⟨.progFlash, []⟩ : Frame).wf 32 = false ∧ (⟨.progMulti, []⟩ : Frame).wf 32 = false ∧
    (⟨.progMulti, [0x02, 0xAA]⟩ : Frame).wf 32 = false ∧
    (⟨.progMulti, 33 :: List.replicate 33 0⟩ : Frame).wf 32 = false ∧
    (⟨.readMulti, []⟩ : Frame).wf 32 = false ∧ (⟨.reboot, [0x20]⟩ : Frame).wf 32 = false := by decide

/-- Two equal opcodes, an opcode equal to `EOC` (spec/00_scope.md R8), `CAP` outside 1 to 255, regions that share an
address, and one address for both side-channel registers (R6). -/
theorem test_illFormedParamsRefused :
    ({ Params.default with opReboot := 0x21 } : Params).wf = false ∧
    ({ Params.default with opGetSync := 0x20 } : Params).wf = false ∧
    ({ Params.default with cap := 0 } : Params).wf = false ∧
    ({ Params.default with cap := 256 } : Params).wf = false ∧
    ({ Params.default with paramRegion := [⟨0xF7FF, 0xFBFF⟩] } : Params).wf = false ∧
    ({ Params.default with scVerAddr := 0 } : Params).wf = false := by decide

/-- The parameters at the ends of their ranges are accepted. -/
theorem test_wellFormedParams :
    Params.default.wf = true ∧ ({ Params.default with cap := 1 } : Params).wf = true ∧
    ({ Params.default with cap := 255 } : Params).wf = true ∧
    ({ Params.default with paramRegion := [] } : Params).wf = true := by decide

/-! ### Decoding: words and frames written out from spec/30_encoding.md R103 to R114 -/

/-- The rows of spec/opcode_table.json, and words of no row: 0x20 (`EOC`), 0x2A, 0x31 (V11, V13). -/
theorem test_decodeTableWords :
    [0x21, 0x22, 0x23, 0x24, 0x25, 0x26, 0x27, 0x28, 0x29, 0x30].map (decodeTableWord 8) =
      [some .getSync, some .getDevice, some .chipErase, some .loadAddress, some .progFlash, some .readFlash,
        some .progMulti, some .readMulti, some .paramErase, some .reboot] ∧
    [0x00, 0x20, 0x2A, 0x31, 0xFF].map (decodeTableWord 8) = [none, none, none, none, none] := by decide

/-- One frame of every format decodes to its instruction and arguments. -/
theorem test_decodeFrames :
    decode Params.default [0x21, 0x20, 0x99] = .frame ⟨.getSync, []⟩ [0x99] ∧
    decode Params.default [0x24, 0x34, 0x12, 0x20] = .frame ⟨.loadAddress, [0x34, 0x12]⟩ [] ∧
    decode Params.default [0x25, 0xA5, 0x20] = .frame ⟨.progFlash, [0xA5]⟩ [] ∧
    decode Params.default [0x27, 0x02, 0xAA, 0x20, 0x20] = .frame ⟨.progMulti, [0x02, 0xAA, 0x20]⟩ [] ∧
    decode Params.default [0x28, 0x04, 0x20] = .frame ⟨.readMulti, [0x04]⟩ [] ∧
    decode Params.default [0x30, 0x20] = .frame ⟨.reboot, []⟩ [0x20] := by decide

/-- One abort of every cause (spec/60_exceptions.md R250; V10, V14, V33, V41), and an unfinished frame. -/
theorem test_decodeAborts :
    decode Params.default [0x00, 0x21] = .abort .invalidOpcode [0x21] ∧
    decode Params.default [0x21, 0x21, 0x21] = .abort .precheckEoc [0x21] ∧
    decode Params.default [0x24, 0x34, 0x12, 0x21] = .abort .handlerEoc [] ∧
    decode Params.default [0x27, 0x21, 0x00] = .abort .oversize [0x00] ∧
    decode Params.default [0x27, 0x02, 0xAA] = .more := by decide

/-- The encoder writes the bytes of spec/95_test_vectors.md P1 and P2. -/
theorem test_encodeFrames :
    encode Params.default (loadAddressFrame 0xFFFE) = [0x24, 0xFE, 0xFF, 0x20] ∧
    encode Params.default (progMultiFrame [0xAA, 0xBB, 0xCC]) = [0x27, 0x03, 0xAA, 0xBB, 0xCC, 0x20] ∧
    encode Params.default (progFlashFrame 0x5A) = [0x25, 0x5A, 0x20] ∧
    encode Params.default (readMultiFrame 3) = [0x28, 0x03, 0x20] := by decide

/-! ### Memory -/

/-- Reset memory has the canonical form. -/
theorem test_resetFlashCanonical : State.reset.flash.wf := by decide

/-- Writing the value of an unlisted byte removes the entry; a write at either end of the address space keeps the order. -/
theorem test_canonicalWrites :
    Memory.write [(0x10, 7)] 0x10 0xFF = [] ∧ Memory.write [(0x10, 7)] 0xFFFF 1 = [(0x10, 7), (0xFFFF, 1)] ∧
    Memory.write [(0x10, 7)] 0 1 = [(0, 1), (0x10, 7)] := by decide

/-! ### One step of each instruction -/

/-- `GET_SYNC`, V23: a good terminator leads to the acknowledgement and changes nothing else. -/
theorem test_getSync_terminator :
    nextIs (exec .getSync { inState .preEoc [0x20] with cur := 0x0042 })
      (fun t => t.cs == .ackInsync && t.cur == 0x0042 && t.rx == []) = true := by decide

/-- `GET_SYNC`, V14: `21` as terminator aborts and is consumed. -/
theorem test_getSync_badTerminator :
    nextIs (exec .getSync (inState .preEoc [0x21, 0x21]))
      (fun t => t.cs == .idle && t.rx == [0x21] && t.sent == []) = true := by decide

/-- `GET_DEVICE`, V24: the board id, then the frequency code. -/
theorem test_getDevice :
    nextIs (exec .getDevice (inState .gdId [])) (fun t => t.sent == [0xB1] && t.cs == .gdFreq) = true ∧
    nextIs (exec .getDevice (inState .gdFreq [])) (fun t => t.sent == [0xF2] && t.cs == .ackInsync) = true := by decide

/-- The flash of V27: a byte just below the application region, its first byte, and the first parameter byte. -/
def eraseFlash : Memory := [(0x03FF, 0x55), (0x0400, 0x02), (0xF7FF, 0x03), (0xF800, 0x66), (0xFBFF, 0x67), (0xFC00, 0x68)]

/-- `CHIP_ERASE`, V27: both ends of the region are erased, its neighbours are not. -/
theorem test_chipErase :
    nextIs (exec .chipErase { inState .ceErase [] with flash := eraseFlash, cur := 0x0123 })
      (fun t => t.flash == [(0x03FF, 0x55), (0xF800, 0x66), (0xFBFF, 0x67), (0xFC00, 0x68)] && t.cur == 0x0123) =
      true := by decide

/-- `PARAM_ERASE`, V28. -/
theorem test_paramErase :
    nextIs (exec .paramErase { inState .peErase [] with flash := eraseFlash, cur := 0x0123 })
      (fun t => t.flash == [(0x03FF, 0x55), (0x0400, 0x02), (0xF7FF, 0x03), (0xFC00, 0x68)] && t.cur == 0x0123) =
      true := by decide

/-- `LOAD_ADDRESS`, V31: the first argument byte is the low one. -/
theorem test_loadAddress_bytes :
    nextIs (exec .loadAddress { inState .laLo [0x34] with arg := 0xFFFF }) (fun t => t.arg == 0xFF34) = true ∧
    nextIs (exec .loadAddress { inState .laHi [0x12] with arg := 0xFF34 })
      (fun t => t.arg == 0x1234 && t.cur == 0) = true := by decide

/-- `LOAD_ADDRESS`, V31 and V33: the terminator decides whether the cursor moves. -/
theorem test_loadAddress_commit :
    nextIs (exec .loadAddress { inState .laEoc [0x20] with arg := 0x1234, cur := 0x0777 })
      (fun t => t.cur == 0x1234) = true ∧
    nextIs (exec .loadAddress { inState .laEoc [0x21] with arg := 0x1234, cur := 0x0777 })
      (fun t => t.cur == 0x0777 && t.cs == .idle) = true := by decide

/-- `PROG_FLASH`, V36: the byte goes to the last address and the cursor wraps. -/
theorem test_progFlash_wraps :
    nextIs (exec .progFlash { inState .pfWrite [] with cur := 0xFFFF, data := 0x5A })
      (fun t => t.flash == [(0xFFFF, 0x5A)] && t.cur == 0) = true := by decide

/-- `PROG_FLASH`, V39: flash that only clears bits. -/
theorem test_progFlash_clearBits :
    nextIs (exec .progFlash { inState .pfWrite [] with
        cur := 0x2000, data := 0xF0, flash := [(0x2000, 0x0F)]
        params := { Params.default with programLaw := .clearBits } })
      (fun t => t.flash.read 0x2000 == 0x00 && t.cs == .ackInsync) = true := by decide

/-- `READ_FLASH`, V40: the byte is taken before the cursor moves, and sent after. -/
theorem test_readFlash :
    nextIs (exec .readFlash { inState .rfRead [] with cur := 0xFFFF, flash := [(0, 0x34), (0xFFFF, 0x12)] })
      (fun t => t.data == 0x12 && t.cur == 0 && t.sent == []) = true ∧
    nextIs (exec .readFlash { inState .rfSend [] with data := 0x12 }) (fun t => t.sent == [0x12]) = true := by decide

/-- `PROG_MULTI`, V41, V42 and V44: counts `CAP + 1`, 0 and `CAP`. -/
theorem test_progMulti_counts :
    nextIs (exec .progMulti (inState .pmCount [0x21])) (fun t => t.cs == .idle && t.rx == []) = true ∧
    nextIs (exec .progMulti (inState .pmCount [0x00])) (fun t => t.cs == .pmEoc) = true ∧
    nextIs (exec .progMulti (inState .pmCount [0x20])) (fun t => t.cs == .pmData && t.cnt == 0x20) = true := by decide

/-- `PROG_MULTI`, V47: the second staged byte goes to address 0 after the wrap, and ends the commit phase. -/
theorem test_progMulti_write :
    nextIs (exec .progMulti { inTransfer .pmWrite 0 2 [] with cur := 0xFFFF })
      (fun t => t.flash == [(0xFFFF, 0xAA)] && t.cur == 0 && t.cs == .pmWrite) = true ∧
    nextIs (exec .progMulti { inTransfer .pmWrite 1 2 [] with cur := 0 })
      (fun t => t.flash == [(0, 0xBB)] && t.cur == 1 && t.cs == .ackInsync) = true := by decide

/-- `READ_MULTI`, V51: the byte at the last address is read and the cursor wraps. -/
theorem test_readMulti_read :
    nextIs (exec .readMulti { inTransfer .rmRead 1 4 [] with cur := 0xFFFF, flash := [(0, 3), (0xFFFF, 2)] })
      (fun t => t.data == 2 && t.cur == 0 && t.idx == 2) = true := by decide

/-- `READ_MULTI`, V50 and V49: no capacity check; a count of 0 reads nothing. -/
theorem test_readMulti_counts :
    nextIs (exec .readMulti (inState .rmCount [0xFF])) (fun t => t.cs == .rmEoc && t.cnt == 0xFF) = true ∧
    nextIs (exec .readMulti (inTransfer .rmEoc 5 0 [0x20])) (fun t => t.cs == .ackInsync && t.idx == 0) = true := by
  decide

/-- `REBOOT`, V55 and V56: nothing is sent, and the byte that follows is not consumed. -/
theorem test_reboot :
    nextIs (exec .reboot { inState .rbSet [0x20] with rc := ⟨true, false, true⟩ })
      (fun t => t.cs == .resetPending && t.rc == ⟨true, true, true⟩ && t.rx == [0x20] && t.sent == []) = true := by decide

/-- V9: in `HANDED_OFF` the bytes the host sends are never consumed. -/
theorem test_handedOff : nextIs (step (inState .handedOff [0x21, 0x20])) (fun t => t.rx == [0x21, 0x20]) = true := by decide

/-- A placed table word runs as the first instruction after reset. -/
theorem test_placedWordRuns :
    nextIs (step (State.reset.withFetchWord 8 0x24)) (fun t => t.cs == .laLo && t.op == 0x24) = true ∧
    nextIs (step (State.reset.withFetchWord 8 0x30)) (fun t => t.cs == .rbSet && t.op == 0x30) = true := by decide

/-! ### Witnesses: for every statement with hypotheses, a case that meets them -/

theorem inv_reset : State.reset.Inv := ⟨by decide, by decide, by decide, by decide, trivial⟩

theorem inv_ofEnv (rx : List Byte) (env : List EnvAction) : ({ inState .idle rx with env := env } : State).Inv :=
  ⟨inv_reset.params, inv_reset.flash, inv_reset.buf, by simp [inState, State.reset], trivial⟩

theorem inv_idle (rx : List Byte) : (inState .idle rx).Inv := inv_ofEnv rx []

theorem ready_inState (c : CommandState) (rx : List Byte) : (inState c rx).Ready := ⟨inv_reset.params, rfl, rfl, rfl⟩

/-- A first byte of each class, at the ends of the opcode range. -/
theorem witness_ClassifyExact :
    Params.default.wf = true ∧ Params.default.classify 0x21 = some .getSync ∧
    Params.default.classify 0x30 = some .reboot ∧ Params.default.classify 0x20 = none ∧
    Params.default.classify 0x31 = none := by decide

/-- A well-formed frame of every command, with a payload of 0 and of `CAP` bytes, and a count of 255. -/
theorem witness_DecodeEncode :
    Params.default.wf = true ∧
    ∀ f ∈ [Frame.mk .getSync [], ⟨.getDevice, []⟩, ⟨.chipErase, []⟩, ⟨.readFlash, []⟩, ⟨.paramErase, []⟩, ⟨.reboot, []⟩,
      loadAddressFrame 0xFFFF, progFlashFrame 0x20, progMultiFrame [], progMultiFrame (List.replicate 32 0x20),
      readMultiFrame 0xFF], f.wf Params.default.cap = true := by decide

theorem witness_DecodedFrameIsEncoded :
    decode Params.default [0x27, 0x00, 0x20] = .frame (progMultiFrame []) [] ∧
    decode Params.default [0x28, 0xFF, 0x20, 0x21] = .frame (readMultiFrame 0xFF) [0x21] := by decide

/-- One abort per clause; for `handlerEoc` the frame with no payload, for `oversize` the least count that is too large. -/
theorem witness_AbortedFrameBytes :
    decode Params.default [0xFF] = .abort .invalidOpcode [] ∧
    decode Params.default [0x26, 0xFF] = .abort .precheckEoc [] ∧
    decode Params.default [0x27, 0x00, 0x21] = .abort .handlerEoc [] ∧
    decode Params.default [0x27, 0x21] = .abort .oversize [] := by decide

/-- Each clause, with nothing pending from the environment and with a `run` mark. -/
theorem witness_StepRunsDecodedInstruction :
    (inState .idle [0x21]).params.wf = true ∧ (inState .idle [0x21]).blockState = some (inState .idle [0x21]) ∧
    (inState .idle [0x30]).params.classify 0x30 = some .reboot ∧
    ({ inState .idle [0x21] with env := [.run] } : State).blockState = some (inState .idle [0x21]) ∧
    ({ inState .preEoc [0x20] with op := 0x29 } : State).params.classify 0x29 = some .paramErase := by decide

theorem witness_HandlerStepsRunTheirCommand :
    ∀ c ∈ [CommandState.gdId, .gdFreq, .ceErase, .peErase, .rfRead, .rfSend, .laLo, .laHi, .laEoc, .pfData, .pfEoc,
      .pfWrite, .pmCount, .pmData, .pmEoc, .pmWrite, .rmCount, .rmEoc, .rmRead, .rmSend, .rbSet, .ackInsync, .ackOk],
      (inState c []).params.wf = true ∧ (inState c []).blockState = some (inState c []) ∧ (inState c []).cs = c := by decide

/-- Parameters with two equal opcodes: the block's step is refused. -/
theorem witness_LaunchPremiseRefused :
    ({ State.reset with params := { Params.default with opReboot := 0x21 } } : State).params.wf = false ∧
    ({ State.reset with params := { Params.default with opReboot := 0x21 } } : State).blockState =
      some { State.reset with params := { Params.default with opReboot := 0x21 } } := by decide

theorem witness_StepKeepsInv : State.reset.Inv ∧ ∃ t, step State.reset = .next t := ⟨inv_reset, _, rfl⟩

theorem witness_NoFaultOutcome : State.reset.Inv := inv_reset

theorem witness_ParamsConstant :
    (∃ t, step State.reset = .next t) ∧ ∃ t, exec .reboot (inState .rbSet []) = .next t := ⟨⟨_, rfl⟩, _, rfl⟩

/-- The first step from reset, and a step that has a byte to take. -/
theorem witness_StepIsTableRow :
    State.reset.Inv ∧ State.reset.env = [] ∧ State.reset.waits = false ∧
    (inState .idle [0x00]).Inv ∧ (inState .idle [0x00]).waits = false :=
  ⟨inv_reset, rfl, rfl, inv_idle _, rfl⟩

/-- A row of the table that applies: an INVALID byte. -/
theorem witness_row : ∃ t, Row (inState .idle [0x00]) t :=
  ⟨_, .idleInvalid 0x00 [] rfl rfl (by intro i; cases i <;> decide)⟩

/-- A step that makes a transaction, one that makes none (`BG_ENTER_CMD`), and one of the environment. -/
theorem witness_OneTransactionPerStep :
    (∃ t, step State.reset = .next t) ∧ State.reset.blockState = some State.reset ∧
    (∃ t, step (inState .bgEnterCmd []) = .next t) ∧
    ∃ t, step { State.reset with env := [.reset .powerUp] } = .next t := ⟨⟨_, rfl⟩, rfl, ⟨_, rfl⟩, _, rfl⟩

/-- An empty input, a port that cannot complete, and the two states without a step. -/
theorem witness_HoldHasNoTimeLimit :
    (inState .idle []).Inv ∧ (inState .idle []).env = [] ∧ (inState .idle []).waits = true ∧
    ({ inState .ackOk [] with txReady := false } : State).waits = true ∧
    ({ inState .ceErase [] with flashReady := false } : State).waits = true ∧
    (inState .handedOff [0x21]).waits = true ∧ (inState .resetPending []).waits = true :=
  ⟨inv_idle _, rfl, rfl, rfl, rfl, rfl, rfl⟩

/-- A step that consumes a byte and a step that sends one. -/
theorem witness_SerialTraffic :
    nextIs (step (inState .laLo [0x34])) (fun t => t.rx != [0x34]) = true ∧
    nextIs (step (inState .ackOk [])) (fun t => t.sent != []) = true ∧
    (inState .laLo [0x34]).blockState = some (inState .laLo [0x34]) ∧
    (inState .ackOk []).blockState = some (inState .ackOk []) := by decide

/-- A step that writes each register. -/
theorem witness_RegisterWriters :
    nextIs (step { inState .laEoc [0x20] with arg := 5 }) (fun t => t.cur != 0) = true ∧
    nextIs (step { inState .laHi [0x12] with params := { Params.default with laEarlyCommit := true } })
      (fun t => t.cur != 0) = true ∧
    nextIs (step (inTransfer .pmData 31 32 [0x12]))
      (fun t => t.buf != (inTransfer .pmData 31 32 []).buf && t.idx != 31) = true ∧
    nextIs (step (inState .rmCount [0xFF])) (fun t => t.cnt != 0) = true ∧
    nextIs (step (inState .laLo [0x34])) (fun t => t.arg != 0) = true ∧
    nextIs (step (inState .pfData [0x34])) (fun t => t.data != 0) = true ∧
    nextIs (step (inState .idle [0x34])) (fun t => t.op != 0) = true := by decide

/-- A step that writes each piece of external state. -/
theorem witness_ExternalWriters :
    nextIs (step (inState .pfWrite [])) (fun t => t.flash != []) = true ∧
    nextIs (step (inState .rbSet [])) (fun t => t.rc != ⟨false, false, false⟩ && t.resetRequest != false) = true ∧
    nextIs (step (inState .bgScFreq [])) (fun t => t.scFreq != 0) = true ∧
    nextIs (step (inState .bgScVer [])) (fun t => t.scVer != 0) = true ∧
    (inState .pfWrite []).blockState = some (inState .pfWrite []) := by decide

/-- A step that enters a committed state, one that changes flash, one that sends, and the three that move the cursor. -/
theorem witness_FrameIntegrity :
    (inState .pfEoc [0x20]).cs.mode = .cmd ∧ (inState .pfEoc [0x20]).blockState = some (inState .pfEoc [0x20]) ∧
    nextIs (step (inState .pfEoc [0x20])) (fun t => t.cs.committed && !(inState .pfEoc []).cs.committed) = true ∧
    nextIs (step (inState .pfWrite [])) (fun t => t.flash != [] && t.cur != 0) = true ∧
    nextIs (step (inState .ackOk [])) (fun t => t.trace == [] ++ [.tx 0x10]) = true ∧
    nextIs (step (inState .pfEoc [0x21])) (fun t => t.trace == [] ++ [.rx 0x21, .abort .handlerEoc]) = true ∧
    nextIs (step { inState .laEoc [0x20] with arg := 5 }) (fun t => t.cur != 0) = true ∧
    nextIs (step { inState .laHi [0x12] with params := { Params.default with laEarlyCommit := true } })
      (fun t => t.cur != 0) = true := by decide

/-- A step in each mode. -/
theorem witness_ModeChanges :
    (inState .bgJump []).cs.mode = .boot ∧ nextIs (step (inState .bgJump [])) (fun t => t.cs == .handedOff) = true ∧
    (inState .rbSet []).cs.mode = .cmd ∧ nextIs (step (inState .rbSet [])) (fun t => t.cs == .resetPending) = true ∧
    (inState .handedOff []).cs.mode = .handedOff ∧ nextIs (step (inState .handedOff [])) (fun _ => true) = true ∧
    (inState .resetPending []).cs.mode = .resetPending ∧ nextIs (step (inState .resetPending [])) (fun _ => true) = true := by
  decide

/-- The registers a reset loses, all changed. -/
def scrambled (s : State) : State :=
  { s with buf := List.replicate 32 1, cnt := 2, idx := 3, arg := 4, data := 5, op := 6 }

theorem witness_LostRegistersNeverObserved :
    (inState .idle [0x21]).Inv ∧ (scrambled (inState .idle [0x21])).Inv ∧
    (scrambled (inState .idle [0x21])).cur = (inState .idle [0x21]).cur ∧
    ({ scrambled State.reset with cur := 7 } : State).Inv ∧ State.reset.cs = .bgFault ∧
    Reaches 0 State.reset State.reset :=
  ⟨inv_idle _, ⟨by decide, by decide, by decide, by decide, trivial⟩, rfl, ⟨by decide, by decide, by decide, by decide, trivial⟩,
    rfl, rfl⟩

/-- Every step of the gate, both ways where it branches. -/
theorem witness_BootGateSteps :
    State.reset.params.wf = true ∧ State.reset.env = [] ∧ State.reset.flashReady = true ∧
    (∀ c ∈ [CommandState.bgFault, .bgValid, .bgForce, .bgScFreq, .bgScVer, .bgJump, .bgEnterCmd], (inState c []).cs = c) ∧
    nextIs (step { inState .bgFault [] with rc := ⟨true, false, false⟩ }) (fun t => t.cs == .bgEnterCmd) = true ∧
    nextIs (step { inState .bgValid [] with flash := [(0x0400, 2)] }) (fun t => t.cs == .bgForce) = true ∧
    nextIs (step { inState .bgForce [] with force := true }) (fun t => t.cs == .bgEnterCmd) = true := by decide

/-- The reset state with a valid image. -/
def withImage : State := { State.reset with flash := [(0x0400, 2)] }

/-- The gate decides both ways: V3 (no valid image) and V1. -/
theorem witness_BootGateDecision :
    State.reset.Inv ∧ State.reset.env = [] ∧ State.reset.flashReady = true ∧ State.reset.cs = .bgFault ∧
    ¬ (State.reset.rc.flashFault = false ∧ Params.imageValid State.reset.params State.reset.flash = true ∧
      State.reset.force = false) ∧
    withImage.Inv ∧ withImage.env = [] ∧ withImage.flashReady = true ∧ Params.imageValid withImage.params withImage.flash = true :=
  ⟨inv_reset, rfl, rfl, rfl, by decide, ⟨by decide, by decide, by decide, by decide, trivial⟩, rfl, rfl, by decide⟩

theorem witness_BootGateHandoff :
    withImage.params.wf = true ∧ withImage.env = [] ∧ withImage.flashReady = true ∧ withImage.cs = .bgFault ∧
    withImage.rc.flashFault = false ∧ Params.imageValid withImage.params withImage.flash = true ∧
    withImage.force = false := by decide

theorem witness_AcknowledgementSteps :
    Instr.getSync ≠ .reboot ∧ (inState .ackInsync []).txReady = true ∧ (inState .ackInsync []).cs = .ackInsync ∧
    (inState .ackOk []).cs = .ackOk := by decide

theorem witness_DispatchSteps : (inState .idle []).cs = .idle ∧ Instr.getSync.format = .z := by decide

theorem witness_PrecheckSteps :
    (inState .preEoc [0x20]).cs = .preEoc ∧ (inState .preEoc [0x20]).rx = (inState .preEoc [0x20]).params.eoc :: [] ∧
    (Instr.getSync, CommandState.ackInsync) ∈ [(Instr.getSync, CommandState.ackInsync), (.getDevice, .gdId)] := by decide

/-- The byte just above `EOC`, and the byte just below it. -/
theorem witness_BadTerminatorAborts :
    (inState .preEoc [0x21]).rx = 0x21 :: [] ∧ (0x21 : Byte) ≠ (inState .preEoc []).params.eoc ∧
    (0x1F : Byte) ≠ (inState .preEoc []).params.eoc ∧ Instr.paramErase.format = .z ∧
    ∀ c ∈ [CommandState.laEoc, .pfEoc, .pmEoc, .rmEoc], (inState c [0x1F]).cs = c := by decide

theorem witness_InvalidOpcodeAborts :
    (inState .idle [0x20]).params.wf = true ∧ (inState .idle [0x20]).env = [] ∧ (inState .idle [0x20]).rx = 0x20 :: [] ∧
    ∀ i ∈ Instr.all, (0x20 : Byte) ≠ (inState .idle [0x20]).params.opcode i := by decide

theorem witness_GetDeviceSteps :
    (inState .gdId []).txReady = true ∧ (inState .gdId []).cs = .gdId ∧ (inState .gdFreq []).cs = .gdFreq := by decide

theorem witness_EraseSteps :
    (inState .ceErase []).flashReady = true ∧ (inState .ceErase []).cs = .ceErase ∧ (inState .peErase []).cs = .peErase ∧
    Region.has (inState .ceErase []).params.appRegion 0x0400 = true ∧
    Region.has (inState .ceErase []).params.appRegion 0x03FF = false ∧
    Region.has (inState .ceErase []).params.paramRegion 0xFBFF = true ∧
    Region.has (inState .ceErase []).params.paramRegion 0xFC00 = false := by decide

theorem witness_LoadAddressSteps :
    (inState .laLo [0xFF]).rx = 0xFF :: [] ∧ (inState .laLo [0xFF]).cs = .laLo ∧ (inState .laHi [0xFF]).cs = .laHi ∧
    (inState .laEoc [0x20]).cs = .laEoc ∧ (0x20 : Byte) = (inState .laEoc [0x20]).params.eoc := by decide

theorem witness_ProgFlashSteps :
    (inState .pfData [0x20]).cs = .pfData ∧ (inState .pfData [0x20]).rx = 0x20 :: [] ∧ (inState .pfEoc [0x20]).cs = .pfEoc ∧
    (inState .pfEoc [0x20]).rx = (inState .pfEoc [0x20]).params.eoc :: [] ∧
    ({ inState .pfWrite [] with cur := 0xFFFF } : State).cs = .pfWrite ∧ (inState .pfWrite []).flashReady = true := by decide

theorem witness_ReadFlashSteps :
    (inState .rfRead []).cs = .rfRead ∧ (inState .rfRead []).flashReady = true ∧ (inState .rfSend []).cs = .rfSend ∧
    (inState .rfSend []).txReady = true := by decide

/-- A count of `CAP`, of `CAP + 1` and of 0; the last data byte; a terminator; the last staged byte. -/
theorem witness_ProgMultiSteps :
    (inState .pmCount [0x20]).cs = .pmCount ∧ ¬ (inState .pmCount [0x20]).params.cap < (0x20 : Byte).toNat ∧
    (inState .pmCount [0x21]).params.cap < (0x21 : Byte).toNat ∧ (inState .pmCount [0]).rx = 0 :: [] ∧
    (inTransfer .pmData 31 32 [0x12]).cs = .pmData ∧
    (inTransfer .pmData 31 32 []).idx.toNat < (inTransfer .pmData 31 32 []).buf.length ∧
    (inTransfer .pmEoc 2 2 [0x20]).rx = (inTransfer .pmEoc 2 2 [0x20]).params.eoc :: [] ∧
    (inTransfer .pmWrite 1 2 []).buf[(inTransfer .pmWrite 1 2 []).idx.toNat]? = some 0xBB ∧
    (inTransfer .pmWrite 1 2 []).flashReady = true := by decide

/-- The greatest count, a terminator, a read and the last send. -/
theorem witness_ReadMultiSteps :
    (inState .rmCount [0xFF]).cs = .rmCount ∧ (inState .rmCount [0xFF]).rx = 0xFF :: [] ∧
    (inTransfer .rmEoc 0 0 [0x20]).rx = (inTransfer .rmEoc 0 0 [0x20]).params.eoc :: [] ∧
    (inTransfer .rmRead 254 255 []).flashReady = true ∧ (inTransfer .rmSend 255 255 []).txReady = true := by decide

theorem witness_RebootStep : (inState .rbSet []).cs = .rbSet := rfl

theorem witness_QuietCommandsFrame :
    (∃ t, exec .getSync (inState .preEoc [0x20]) = .next t) ∧ (∃ t, exec .getDevice (inState .gdId []) = .next t) ∧
    ∃ t, exec .reboot (inState .rbSet []) = .next t := ⟨⟨_, rfl⟩, ⟨_, rfl⟩, _, rfl⟩

/-- Both erases, an address of neither region, and a step that erases nothing. -/
theorem witness_EraseFrame :
    (∃ t, exec .chipErase (inState .ceErase []) = .next t) ∧ (∃ t, exec .paramErase (inState .peErase []) = .next t) ∧
    (∃ t, exec .chipErase (inState .ackOk []) = .next t) ∧ (∃ t, exec .paramErase (inState .ackOk []) = .next t) ∧
    Region.has Params.default.appRegion 0xF800 = false ∧ Region.has Params.default.paramRegion 0xF7FF = false :=
  ⟨⟨_, rfl⟩, ⟨_, rfl⟩, ⟨_, rfl⟩, ⟨_, rfl⟩, by decide, by decide⟩

theorem witness_LoadAddressFrame :
    (∃ t, exec .loadAddress (inState .laEoc [0x20]) = .next t) ∧ (∃ t, exec .loadAddress (inState .laHi [0x20]) = .next t) ∧
    ¬ ((inState .laHi []).cs = .laHi ∧ (inState .laHi []).params.laEarlyCommit = true) :=
  ⟨⟨_, rfl⟩, ⟨_, rfl⟩, by decide⟩

theorem witness_ReadingCommandsFrame :
    (∃ t, exec .readFlash (inState .rfSend []) = .next t) ∧ (∃ t, exec .readFlash (inState .rfRead []) = .next t) ∧
    (∃ t, exec .readMulti (inTransfer .rmSend 2 2 []) = .next t) ∧ ∃ t, exec .readMulti (inTransfer .rmRead 1 2 []) = .next t :=
  ⟨⟨_, rfl⟩, ⟨_, rfl⟩, ⟨_, rfl⟩, _, rfl⟩

theorem witness_ProgFlashFrame :
    (inState .pfWrite []).flash.wf ∧ (∃ t, exec .progFlash (inState .pfWrite []) = .next t) ∧
    (∃ t, exec .progFlash (inState .pfData [0x20]) = .next t) ∧ ∃ t, exec .progFlash (inState .pfEoc [0x20]) = .next t :=
  ⟨by decide, ⟨_, rfl⟩, ⟨_, rfl⟩, _, rfl⟩

theorem witness_ProgMultiFrame :
    (inTransfer .pmWrite 1 2 []).flash.wf ∧ (∃ t, exec .progMulti (inTransfer .pmWrite 1 2 []) = .next t) ∧
    (∃ t, exec .progMulti (inTransfer .pmData 31 32 [0x12]) = .next t) ∧
    ∃ t, exec .progMulti (inState .pmCount [0x20]) = .next t := ⟨by decide, ⟨_, rfl⟩, ⟨_, rfl⟩, _, rfl⟩

/-- A frame with an operand and one that reboots. -/
theorem witness_FrameRunsAsSpecified :
    (inState .idle (encode Params.default (loadAddressFrame 0xFFFF) ++ [0x21])).Inv ∧
    (inState .idle (encode Params.default (loadAddressFrame 0xFFFF) ++ [0x21])).Ready ∧
    (loadAddressFrame 0xFFFF).wf Params.default.cap = true ∧
    (inState .idle (encode Params.default ⟨.reboot, []⟩)).Inv ∧ (⟨.reboot, []⟩ : Frame).wf Params.default.cap = true :=
  ⟨inv_idle _, ready_inState _ _, by decide, inv_idle _, by decide⟩

/-- A frame with no transfer, with the longest transfer of each kind, and one that reboots. -/
theorem witness_FrameTransactionOrder :
    (inState .idle (encode Params.default (readMultiFrame 0xFF) ++ [0x21])).Inv ∧
    (inState .idle (encode Params.default (readMultiFrame 0xFF) ++ [0x21])).Ready ∧
    (readMultiFrame 0xFF).wf Params.default.cap = true ∧ (readMultiFrame 0).wf Params.default.cap = true ∧
    (progMultiFrame (List.replicate 32 0x55)).wf Params.default.cap = true ∧
    (⟨.reboot, []⟩ : Frame).wf Params.default.cap = true :=
  ⟨inv_idle _, ready_inState _ _, by decide, by decide, by decide, by decide⟩

/-- A `READ_MULTI` of one byte, for which both clauses have their premise, one of two, and `REBOOT`. -/
theorem witness_ResponseAfterFlash :
    (inState .idle (encode Params.default (readMultiFrame 1) ++ [0x21])).Inv ∧
    (inState .idle (encode Params.default (readMultiFrame 1) ++ [0x21])).Ready ∧
    (readMultiFrame 1).wf Params.default.cap = true ∧ transferCount (readMultiFrame 1) ≤ 1 ∧
    (readMultiFrame 1).instr ≠ .reboot ∧ (readMultiFrame 2).wf Params.default.cap = true ∧
    ¬ transferCount (readMultiFrame 2) ≤ 1 ∧ (⟨.reboot, []⟩ : Frame).wf Params.default.cap = true :=
  ⟨inv_idle _, ready_inState _ _, by decide, by decide, by decide, by decide, by decide, by decide⟩

theorem witness_MalformedFrameIsSilent :
    (inState .idle [0x27, 0x02, 0xAA, 0xBB, 0xCC]).Inv ∧ (inState .idle [0x27, 0x02, 0xAA, 0xBB, 0xCC]).env = [] ∧
    decode Params.default [0x27, 0x02, 0xAA, 0xBB, 0xCC] = .abort .handlerEoc [] ∧
    (inState .idle []).params.laEarlyCommit = false := ⟨inv_idle _, rfl, by decide, rfl⟩

/-- A full buffer that wraps past the last address, and an empty payload. -/
theorem witness_ProgMultiProgramsPayload :
    (inState .idle (encode Params.default (progMultiFrame (List.replicate 32 0x55)))).Inv ∧
    (inState .idle (encode Params.default (progMultiFrame (List.replicate 32 0x55)))).Ready ∧
    (List.replicate 32 (0x55 : Byte)).length ≤ Params.default.cap ∧ ([] : List Byte).length ≤ Params.default.cap :=
  ⟨inv_idle _, ready_inState _ _, by decide, by decide⟩

/-- Three frames in a row, under the default program law. -/
theorem witness_RoundTrip :
    (inState .idle (encode Params.default (progMultiFrame [0xAA, 0xBB]) ++ encode Params.default (loadAddressFrame 0) ++
      encode Params.default (readMultiFrame (BitVec.ofNat 8 2)))).Inv ∧
    (inState .idle []).Ready ∧
    ∀ i v, ([0xAA, 0xBB] : List Byte)[i]? = some v →
      ∀ old, Params.flashProgram Params.default (0 + BitVec.ofNat 16 i) old v = v :=
  ⟨inv_idle _, ready_inState _ _, fun _ _ _ _ => rfl⟩

/-- A payload of two bytes, cut off after none, one and both of them. -/
theorem witness_ResetLeavesPrefix :
    (∀ j, ({ inState .idle (encode Params.default (progMultiFrame [0xAA, 0xBB])) with
        env := List.replicate (2 + 3 + j) .run ++ [.reset .powerUp] } : State).Inv) ∧
    (inState .idle []).flashReady = true ∧ (inState .idle []).cs = .idle ∧
    ([0xAA, 0xBB] : List Byte).length ≤ Params.default.cap ∧ 0 < ([0xAA, 0xBB] : List Byte).length ∧
    (∀ j ∈ [0, 1, 2], j ≤ ([0xAA, 0xBB] : List Byte).length) ∧ ResetKind.powerUp ≠ .software :=
  ⟨fun _ => inv_ofEnv _ _, rfl, rfl, by decide, by decide, by decide, by decide⟩

/-- A power-up reset, and a software reset that has been requested. -/
theorem witness_ResetEffect :
    ({ State.reset with env := [.reset .powerUp] } : State).env = .reset .powerUp :: [] ∧
    ({ inState .resetPending [] with env := [.reset .software], resetRequest := true } : State).resetRequest = true := by
  decide

/-- A pending software reset, at once and after another action. -/
theorem witness_RebootThenReset :
    ({ inState .resetPending [] with env := [.hostSends 0x21, .reset .software], resetRequest := true } : State).Inv ∧
    (inState .resetPending []).cs = .resetPending ∧ (∀ a ∈ [EnvAction.hostSends 0x21], ∀ k, a ≠ .reset k) ∧
    ([.hostSends 0x21, .reset .software] : List EnvAction) = [.hostSends 0x21] ++ .reset .software :: [] :=
  ⟨⟨by decide, by decide, by decide, by decide, rfl⟩, rfl, by simp, rfl⟩

/-- A reset in `IDLE` with a byte waiting and a cursor that is not 0, and a requested software reset. -/
theorem witness_CursorZeroAfterReset :
    ({ inState .idle [0x21] with cur := 0x1234, env := [.reset .external] } : State).Inv ∧
    ({ inState .idle [0x21] with cur := 0x1234, env := [.reset .external] } : State).flashReady = true ∧
    (ResetKind.external = .software → State.reset.resetRequest = true) ∧
    ({ inState .resetPending [0x21] with env := [.reset .software], resetRequest := true } : State).Inv :=
  ⟨⟨inv_reset.params, inv_reset.flash, inv_reset.buf, by simp [inState, State.reset], trivial⟩, rfl, by decide,
    ⟨by decide, by decide, by decide, by decide, rfl⟩⟩

theorem witness_ProgramThenRead : Memory.wf [(0xFFFF, 1)] ∧ State.reset.flash.wf := by decide

theorem witness_CanonicalFlashExt :
    Memory.wf [(0, 1), (0xFFFF, 2)] ∧ ∀ a < 65536, Memory.read [(0, 1), (0xFFFF, 2)] a = Memory.read [(0, 1), (0xFFFF, 2)] a :=
  ⟨by decide, fun _ _ => rfl⟩

end Sys2Proof.Tests
end

section
/-! The launch premise, progress, constancy of the parameters, and what one step adds to the observation
(spec/00_scope.md R5, R7, R8, R15, R16). -/

namespace Sys2Proof.Machine

/-! ### The state of the block's step -/

/-- An action of the environment that is not the `run` mark leaves the block no step. -/
theorem blockState_of_env {s : State} {a : EnvAction} {rest : List EnvAction} (he : s.env = a :: rest) (ha : a ≠ .run) :
    s.blockState = none := by
  unfold State.blockState
  cases a <;> simp_all

/-- Taking the `run` mark off keeps the invariant. -/
theorem State.Inv.of_blockState {s u : State} (hi : s.Inv) (hb : s.blockState = some u) : u.Inv := by
  rw [blockState_spec hb]
  exact ⟨hi.params, hi.flash, hi.buf, hi.request, hi.phase⟩

/-! ### Progress: outcomes that are a next state -/

/-- The outcome is a next state: no fault and no refusal. -/
def Answers (o : Outcome) : Prop := ∃ t, o = .next t

theorem goTo_answers (c : CommandState) (s : State) : Answers (goTo c s) := ⟨_, rfl⟩

theorem hold_answers (s : State) : Answers (hold s) := ⟨_, rfl⟩

theorem abort_answers (cause : AbortCause) (s : State) : Answers (abort cause s) := ⟨_, rfl⟩

theorem rxByte_answers {k : Byte → State → Outcome} {s : State}
    (hk : ∀ b rest, Answers (k b ({ s with rx := rest }.emit (.rx b)))) : Answers (rxByte k s) := by
  cases hx : s.rx with
  | nil => exact ⟨s, rxByte_nil hx⟩
  | cons b rest => rw [rxByte_cons hx]; exact hk b rest

theorem txByte_answers {b : Byte} {k : State → Outcome} {s : State} (hk : ∀ v, Answers (k v)) :
    Answers (txByte b k s) := by
  unfold txByte
  split
  · exact hk _
  · exact hold_answers s

theorem memRead_answers {a : Addr} {k : Byte → State → Outcome} {s : State} (hk : ∀ b v, Answers (k b v)) :
    Answers (memRead a k s) := by
  unfold memRead
  split
  · exact hk _ _
  · exact hold_answers s

theorem memWrite_answers {a : Addr} {b : Byte} {k : State → Outcome} {s : State} (hk : ∀ v, Answers (k v)) :
    Answers (memWrite a b k s) := by
  unfold memWrite
  split
  · exact hk _
  · exact hold_answers s

theorem flashErase_answers {r : RegionName} {k : State → Outcome} {s : State} (hk : ∀ v, Answers (k v)) :
    Answers (flashErase r k s) := by
  unfold flashErase
  split
  · exact hk _
  · exact hold_answers s

theorem imageValid_answers {k : Bool → State → Outcome} {s : State} (hk : ∀ b v, Answers (k b v)) :
    Answers (imageValid k s) := by
  unfold imageValid
  split
  · exact hk _ _
  · exact hold_answers s

theorem takeEoc_answers {cause : AbortCause} {k : State → Outcome} {s : State} (hk : ∀ v, Answers (k v)) :
    Answers (takeEoc cause k s) := by
  refine rxByte_answers fun t rest => ?_
  split
  · exact hk _
  · exact abort_answers _ _

theorem preEoc_answers (c : CommandState) (s : State) : Answers (preEoc c s) := takeEoc_answers (goTo_answers c)

theorem progMultiCount_answers (s : State) : Answers (progMultiCount s) := by
  refine rxByte_answers fun count rest => ?_
  dsimp only
  split
  · exact abort_answers _ _
  · split <;> exact goTo_answers _ _

/-- `PM_DATA` needs its index inside the buffer (spec/45_multi.md R223). -/
theorem progMultiData_answers {s : State} (hb : s.idx.toNat < s.buf.length) : Answers (progMultiData s) := by
  refine rxByte_answers fun b rest => ?_
  rw [if_pos (by simpa using hb)]
  exact goTo_answers _ _

/-- `PM_WRITE` needs its index inside the buffer (spec/45_multi.md R223). -/
theorem progMultiWrite_answers {s : State} (hb : s.idx.toNat < s.buf.length) : Answers (progMultiWrite s) := by
  unfold progMultiWrite
  rw [List.getElem?_eq_getElem hb]
  exact memWrite_answers fun v => goTo_answers _ _

/-- Every command has a step at `IDLE`: its dispatch (spec/41_framing_dispatch.md R151). -/
theorem exec_idle_answers (i : Instr) {s : State} (hc : s.cs = .idle) : Answers (exec i s) := by
  cases i <;> simp only [exec, execGetSync, execGetDevice, execChipErase, execLoadAddress, execProgFlash, execReadFlash,
    execProgMulti, execReadMulti, execParamErase, execReboot, hc] <;> exact goTo_answers _ s

/-- The zero-argument commands have a step at `PRE_EOC` (spec/41_framing_dispatch.md R152). -/
theorem exec_preEoc_answers {i : Instr} {s : State} (hf : i.format = .z) (hc : s.cs = .preEoc) : Answers (exec i s) := by
  cases i <;> simp only [Instr.format, reduceCtorEq] at hf <;>
    simp only [exec, execGetSync, execGetDevice, execChipErase, execReadFlash, execParamErase, hc] <;>
    exact preEoc_answers _ s

theorem intake_answers {s : State} (hc : s.cs = .idle) : Answers (intake s).outcome := by
  unfold intake
  split
  · exact hold_answers s
  · split
    · exact exec_idle_answers _ hc
    · exact abort_answers _ _

theorem precheck_answers {s : State} (hc : s.cs = .preEoc) (hop : (s.params.classify s.op).map Instr.format = some .z) :
    Answers (precheck s).outcome := by
  obtain ⟨i, hi, hf⟩ := Option.map_eq_some_iff.1 hop
  simp only [precheck, hi]
  exact exec_preEoc_answers hf hc

/-- Inside a transfer of `PROG_MULTI` the index lies inside the buffer (spec/45_multi.md R223). -/
theorem State.Inv.idx_lt_buf {s : State} (hi : s.Inv) (h : s.cnt.toNat ≤ s.params.cap ∧ s.idx < s.cnt) :
    s.idx.toNat < s.buf.length := by
  obtain ⟨hcnt, hlt⟩ := h
  have : s.idx.toNat < s.cnt.toNat := hlt
  have := hi.buf
  omega

/-- Under the invariant the block's step is a next state (spec/00_scope.md R15). -/
theorem blockStep_answers {u : State} (hi : u.Inv) : Answers (blockStep u) := by
  have hp := hi.phase
  unfold State.PhaseInv at hp
  unfold blockStep blockTurn
  cases hc : u.cs <;> simp only [hc] at hp ⊢
  case bgFault => exact goTo_answers _ _
  case bgValid => exact imageValid_answers fun _ => goTo_answers _
  case bgForce => exact goTo_answers _ _
  case bgScFreq => exact goTo_answers _ _
  case bgScVer => exact goTo_answers _ _
  case bgJump => exact goTo_answers _ _
  case bgEnterCmd => exact goTo_answers _ _
  case idle => exact intake_answers hc
  case preEoc => exact precheck_answers hc hp
  case handedOff => exact hold_answers u
  case resetPending => exact hold_answers u
  case ackInsync => exact txByte_answers (goTo_answers _)
  case ackOk => exact txByte_answers (goTo_answers _)
  all_goals simp only [Turn.outcome, exec, execGetDevice, execChipErase, execLoadAddress, execProgFlash, execReadFlash,
    execProgMulti, execReadMulti, execParamErase, execReboot, hc]
  case gdId => exact txByte_answers (goTo_answers _)
  case gdFreq => exact txByte_answers (goTo_answers _)
  case ceErase => exact flashErase_answers (goTo_answers _)
  case peErase => exact flashErase_answers (goTo_answers _)
  case rfRead => exact memRead_answers fun _ _ => goTo_answers _ _
  case rfSend => exact txByte_answers (goTo_answers _)
  case laLo => exact rxByte_answers fun _ _ => goTo_answers _ _
  case laHi => exact rxByte_answers fun _ _ => goTo_answers _ _
  case laEoc => exact takeEoc_answers fun _ => goTo_answers _ _
  case pfData => exact rxByte_answers fun _ _ => goTo_answers _ _
  case pfEoc => exact takeEoc_answers (goTo_answers _)
  case pfWrite => exact memWrite_answers fun _ => goTo_answers _ _
  case pmCount => exact progMultiCount_answers u
  case pmData => exact progMultiData_answers (hi.idx_lt_buf hp)
  case pmEoc => exact takeEoc_answers fun _ => goTo_answers _ _
  case pmWrite => exact progMultiWrite_answers (hi.idx_lt_buf hp)
  case rmCount => exact rxByte_answers fun _ _ => goTo_answers _ _
  case rmEoc => exact takeEoc_answers fun _ => goTo_answers _ _
  case rmRead => exact memRead_answers fun _ _ => goTo_answers _ _
  case rmSend => exact txByte_answers fun _ => goTo_answers _ _
  case rbSet => exact goTo_answers _ _

/-- Under the invariant the machine's step is a next state, the environment's actions among them. -/
theorem step_answers {s : State} (hi : s.Inv) : Answers (step s) := by
  cases hb : s.blockState with
  | some u =>
    rw [step_of_blockState hi.params hb]
    exact blockStep_answers (hi.of_blockState hb)
  | none =>
    cases he : s.env with
    | nil => simp [State.blockState, he] at hb
    | cons a rest =>
      have ha : a ≠ .run := by
        rintro rfl
        simp [State.blockState, he] at hb
      exact ⟨_, step_env he ha⟩

/-! ### Waiting -/

/-- A row of the transition table applies only where the block does not wait. -/
theorem Row.waits_eq_false {s t : State} (h : Row s t) : s.waits = false := by
  cases h <;> simp [State.waits, CommandState.port, *]

/-- While the block waits, its step changes nothing (spec/00_scope.md R15, R16). -/
theorem blockStep_of_waits {u : State} (hi : u.Inv) (hw : u.waits = true) : blockStep u = .next u := by
  obtain ⟨t, ht⟩ := blockStep_answers hi
  rcases blockStep_next ht with rfl | hrow | ⟨b, rest, hc, hx, -⟩ | ⟨v, hc, hf, -⟩ | ⟨hc, htx, -⟩
  · exact ht
  · simp [hrow.waits_eq_false] at hw
  · simp [State.waits, CommandState.port, hc, hx] at hw
  · simp [State.waits, CommandState.port, hc, hf] at hw
  · simp [State.waits, CommandState.port, hc, htx] at hw

/-- A state that its own step leaves as it is stays for any number of steps. -/
theorem reaches_self {s : State} (h : step s = .next s) (n : Nat) : Reaches n s s := by
  induction n with
  | zero => rfl
  | succ n ih => exact reaches_succ.2 ⟨s, h, ih⟩

/-! ### The parameters -/

theorem Row.params_eq {s t : State} (h : Row s t) : t.params = s.params := by
  cases h <;> rfl

theorem blockStep_params {u t : State} (h : blockStep u = .next t) : t.params = u.params := by
  rcases blockStep_next h with rfl | hrow | ⟨_, _, -, -, -, rfl⟩ | ⟨_, -, -, -, rfl⟩ | ⟨-, -, rfl⟩
  · rfl
  · exact hrow.params_eq
  all_goals rfl

theorem preEoc_params {c : CommandState} {s t : State} (h : preEoc c s = .next t) : t.params = s.params := by
  rcases preEoc_next.1 h with ⟨-, rfl⟩ | ⟨_, _, -, ⟨-, rfl⟩ | ⟨-, rfl⟩⟩ <;> rfl

theorem step_params {s t : State} (h : step s = .next t) : t.params = s.params := by
  rcases step_cases h with ⟨a, rest, -, -, rfl⟩ | ⟨u, hb, -, hu⟩
  · exact (applyEnv_spec a _).1
  · rw [blockStep_params hu, blockState_spec hb]

/-- A command's meaning either dispatches (`IDLE`), or checks a terminator (`PRE_EOC`), or is the block's own step: in every
other command state the block's step is the meaning of the command that owns the state
(spec/41_framing_dispatch.md R170). -/
theorem exec_next {i : Instr} {s t : State} (h : exec i s = .next t) :
    (∃ c, s.cs = .idle ∧ t = s.goto c) ∨ (∃ c, s.cs = .preEoc ∧ preEoc c s = .next t) ∨ blockStep s = .next t := by
  have owned (hc : blockTurn s = .command i s) : blockStep s = .next t := by rwa [blockStep, hc]
  have shared {o : Outcome} (hc : blockTurn s = .settled o) (ho : o = .next t) : blockStep s = .next t := by
    rwa [blockStep, hc]
  cases i
  case getSync =>
    rcases execGetSync_next h with ⟨hc, ht⟩ | ⟨hc, ht⟩ | ⟨hc, ht⟩ | ⟨hc, ht⟩
    · exact .inl ⟨_, hc, ht⟩
    · exact .inr (.inl ⟨_, hc, ht⟩)
    all_goals exact .inr (.inr (shared (by simp [blockTurn, hc]) ht))
  case getDevice =>
    rcases execGetDevice_next h with ⟨hc, ht⟩ | ⟨hc, ht⟩ | ⟨hc, -⟩ | ⟨hc, -⟩ | ⟨hc, ht⟩ | ⟨hc, ht⟩
    · exact .inl ⟨_, hc, ht⟩
    · exact .inr (.inl ⟨_, hc, ht⟩)
    iterate 2 exact .inr (.inr (owned (by simp [blockTurn, hc])))
    all_goals exact .inr (.inr (shared (by simp [blockTurn, hc]) ht))
  case chipErase =>
    rcases execChipErase_next h with ⟨hc, ht⟩ | ⟨hc, ht⟩ | ⟨hc, -⟩ | ⟨hc, ht⟩ | ⟨hc, ht⟩
    · exact .inl ⟨_, hc, ht⟩
    · exact .inr (.inl ⟨_, hc, ht⟩)
    · exact .inr (.inr (owned (by simp [blockTurn, hc])))
    all_goals exact .inr (.inr (shared (by simp [blockTurn, hc]) ht))
  case paramErase =>
    rcases execParamErase_next h with ⟨hc, ht⟩ | ⟨hc, ht⟩ | ⟨hc, -⟩ | ⟨hc, ht⟩ | ⟨hc, ht⟩
    · exact .inl ⟨_, hc, ht⟩
    · exact .inr (.inl ⟨_, hc, ht⟩)
    · exact .inr (.inr (owned (by simp [blockTurn, hc])))
    all_goals exact .inr (.inr (shared (by simp [blockTurn, hc]) ht))
  case loadAddress =>
    rcases execLoadAddress_next h with ⟨hc, ht⟩ | ⟨hc, -⟩ | ⟨hc, -⟩ | ⟨hc, -⟩ | ⟨hc, ht⟩ | ⟨hc, ht⟩
    · exact .inl ⟨_, hc, ht⟩
    iterate 3 exact .inr (.inr (owned (by simp [blockTurn, hc])))
    all_goals exact .inr (.inr (shared (by simp [blockTurn, hc]) ht))
  case progFlash =>
    rcases execProgFlash_next h with ⟨hc, ht⟩ | ⟨hc, -⟩ | ⟨hc, -⟩ | ⟨hc, -⟩ | ⟨hc, ht⟩ | ⟨hc, ht⟩
    · exact .inl ⟨_, hc, ht⟩
    iterate 3 exact .inr (.inr (owned (by simp [blockTurn, hc])))
    all_goals exact .inr (.inr (shared (by simp [blockTurn, hc]) ht))
  case readFlash =>
    rcases execReadFlash_next h with ⟨hc, ht⟩ | ⟨hc, ht⟩ | ⟨hc, -⟩ | ⟨hc, -⟩ | ⟨hc, ht⟩ | ⟨hc, ht⟩
    · exact .inl ⟨_, hc, ht⟩
    · exact .inr (.inl ⟨_, hc, ht⟩)
    iterate 2 exact .inr (.inr (owned (by simp [blockTurn, hc])))
    all_goals exact .inr (.inr (shared (by simp [blockTurn, hc]) ht))
  case progMulti =>
    rcases execProgMulti_next h with
      ⟨hc, ht⟩ | ⟨hc, -⟩ | ⟨hc, -⟩ | ⟨hc, -⟩ | ⟨hc, -⟩ | ⟨hc, ht⟩ | ⟨hc, ht⟩
    · exact .inl ⟨_, hc, ht⟩
    iterate 4 exact .inr (.inr (owned (by simp [blockTurn, hc])))
    all_goals exact .inr (.inr (shared (by simp [blockTurn, hc]) ht))
  case readMulti =>
    rcases execReadMulti_next h with
      ⟨hc, ht⟩ | ⟨hc, -⟩ | ⟨hc, -⟩ | ⟨hc, -⟩ | ⟨hc, -⟩ | ⟨hc, ht⟩ | ⟨hc, ht⟩
    · exact .inl ⟨_, hc, ht⟩
    iterate 4 exact .inr (.inr (owned (by simp [blockTurn, hc])))
    all_goals exact .inr (.inr (shared (by simp [blockTurn, hc]) ht))
  case reboot =>
    rcases execReboot_next h with ⟨hc, ht⟩ | ⟨hc, -⟩
    · exact .inl ⟨_, hc, ht⟩
    · exact .inr (.inr (owned (by simp [blockTurn, hc])))

theorem exec_params {i : Instr} {s t : State} (h : exec i s = .next t) : t.params = s.params := by
  rcases exec_next h with ⟨c, -, rfl⟩ | ⟨c, -, hp⟩ | hb
  · rfl
  · exact preEoc_params hp
  · exact blockStep_params hb

/-! ### What a step adds to the observation -/

/-- What a step of the block in command state `c` adds to the observation: nothing, or one transaction on the port of `c`,
which an abort may follow (spec/00_scope.md R5, spec/10_state.md R32). -/
inductive StepEvents (c : CommandState) : List Event → Prop
  | silent : StepEvents c []
  | completed (e : Event) : e.port = c.port → StepEvents c [e]
  | aborted (e : Event) (cause : AbortCause) : e.port = c.port → StepEvents c [e, .abort cause]

theorem StepEvents.transactions_length_le {c : CommandState} {es : List Event} (h : StepEvents c es) :
    (transactions es).length ≤ 1 := by
  cases h with
  | silent => simp [transactions]
  | completed e _ => exact List.length_filter_le _ [e]
  | aborted e cause _ =>
    have habort : transactions [e, .abort cause] = transactions [e] := by simp [transactions, List.filter_cons, Event.port]
    rw [habort]
    exact List.length_filter_le _ [e]

theorem StepEvents.port_eq {c : CommandState} {es : List Event} (h : StepEvents c es) :
    ∀ e ∈ transactions es, e.port = c.port := by
  cases h <;> simp_all [transactions, Event.port]

theorem Row.trace_eq {s t : State} (h : Row s t) : ∃ es, t.trace = s.trace ++ es ∧ StepEvents s.cs es := by
  cases h
  case bgEnterCmd => exact ⟨[], by simp, .silent⟩
  case idleInvalid hc _ _ => exact ⟨_, rfl, .aborted _ _ (by rw [hc]; rfl)⟩
  case preEocBad hc _ _ => exact ⟨_, rfl, .aborted _ _ (by rw [hc]; rfl)⟩
  case laEocBad hc _ _ => exact ⟨_, rfl, .aborted _ _ (by rw [hc]; rfl)⟩
  case pfEocBad hc _ _ => exact ⟨_, rfl, .aborted _ _ (by rw [hc]; rfl)⟩
  case pmCountOver hc _ _ => exact ⟨_, rfl, .aborted _ _ (by rw [hc]; rfl)⟩
  case pmEocBad hc _ _ => exact ⟨_, rfl, .aborted _ _ (by rw [hc]; rfl)⟩
  case rmEocBad hc _ _ => exact ⟨_, rfl, .aborted _ _ (by rw [hc]; rfl)⟩
  all_goals exact ⟨_, rfl, .completed _ (by rw [‹s.cs = _›]; rfl)⟩

theorem blockStep_trace {u t : State} (h : blockStep u = .next t) :
    ∃ es, t.trace = u.trace ++ es ∧ StepEvents u.cs es := by
  rcases blockStep_next h with rfl | hrow | ⟨_, _, hc, -, -, rfl⟩ | ⟨_, hc, -, -, rfl⟩ | ⟨hc, -, rfl⟩
  · exact ⟨[], by simp, .silent⟩
  · exact hrow.trace_eq
  all_goals exact ⟨_, rfl, .completed _ (by rw [hc]; rfl)⟩

/-- An action of the environment makes no transaction: it adds nothing, or the mark of a reset. -/
theorem applyEnv_trace (a : EnvAction) (s : State) :
    ∃ es, (applyEnv a s).trace = s.trace ++ es ∧ transactions es = [] := by
  cases a with
  | reset kind =>
    simp only [applyEnv]
    split
    · exact ⟨[], by simp, rfl⟩
    · exact ⟨[.reset kind], rfl, rfl⟩
  | _ => exact ⟨[], by simp [applyEnv], rfl⟩

/-! ### The obligations -/

/-- Settles O9: in the block's turn the launch premise is checked before anything else. -/
theorem launchPremiseRefused : Obligations.LaunchPremiseRefused :=
  fun _ _ => step_refused

/-- Settles O12: every operation of the block answers, a hold included; the invariant gives `PRE_EOC` its opcode and keeps
the index of `PROG_MULTI` inside the buffer. -/
theorem noFaultOutcome : Obligations.NoFaultOutcome :=
  fun _ => step_answers

/-- Settles O13: every row of the transition table, every meaning and every action of the environment leaves `params`. -/
theorem paramsConstant : Obligations.ParamsConstant :=
  ⟨fun _ _ => step_params, fun _ _ _ => exec_params, fun a s => (applyEnv_spec a s).1⟩

/-- Settles O15: a step of the block adds at most one transaction, on the port of its command state; an action of the
environment adds none. -/
theorem oneTransactionPerStep : Obligations.OneTransactionPerStep := by
  intro s t h
  rcases step_cases h with ⟨a, rest, he, ha, rfl⟩ | ⟨v, hb, -, hv⟩
  · obtain ⟨es, htrace, hnone⟩ := applyEnv_trace a { s with env := rest }
    exact ⟨es, htrace, by simp [hnone], by simp [blockState_of_env he ha]⟩
  · obtain ⟨es, htrace, hes⟩ := blockStep_trace hv
    refine ⟨es, by rw [htrace, blockState_spec hb], hes.transactions_length_le, fun u hu => ?_⟩
    obtain rfl : v = u := Option.some_inj.1 (hb.symm.trans hu)
    exact hes.port_eq

/-- Settles O16: no row of the table applies while the block waits, so its step, which is a next state, is the state
itself. -/
theorem holdHasNoTimeLimit : Obligations.HoldHasNoTimeLimit := by
  intro s hi he hw
  exact reaches_self ((step_of_env_nil hi.params he).trans (blockStep_of_waits hi hw))

end Sys2Proof.Machine
end

section
/-! What one step of the block may change (spec/10_state.md R31 to R58): the owner of each command state, the serial
bytes, the registers, the external state and the mode. -/

namespace Sys2Proof.Machine

/-! ### The owner of a command state -/

/-- The command that owns a command state (spec/10_state.md R32); `IDLE`, `PRE_EOC` and the acknowledgement are shared,
and the boot gate and the two stops belong to no command. -/
def CommandState.owner : CommandState → Option Instr
  | .gdId | .gdFreq => some .getDevice
  | .ceErase => some .chipErase
  | .peErase => some .paramErase
  | .rfRead | .rfSend => some .readFlash
  | .laLo | .laHi | .laEoc => some .loadAddress
  | .pfData | .pfEoc | .pfWrite => some .progFlash
  | .pmCount | .pmData | .pmEoc | .pmWrite => some .progMulti
  | .rmCount | .rmEoc | .rmRead | .rmSend => some .readMulti
  | .rbSet => some .reboot
  | _ => none

theorem blockStep_of_owner {u : State} {i : Instr} (h : u.cs.owner = some i) : blockStep u = exec i u := by
  unfold blockStep blockTurn
  cases hc : u.cs <;> simp only [hc, CommandState.owner, reduceCtorEq, Option.some.injEq] at h <;> subst h <;> rfl

/-- In the acknowledgement every command but `REBOOT` has the same step (spec/41_framing_dispatch.md R159). -/
theorem blockStep_of_ack {u : State} {i : Instr} (hi : i ≠ .reboot) (hc : u.cs ∈ [.ackInsync, .ackOk]) :
    blockStep u = exec i u := by
  unfold blockStep blockTurn
  simp only [List.mem_cons, List.not_mem_nil, or_false] at hc
  rcases hc with hc | hc <;> rw [hc] <;> cases i
  case inl.reboot | inr.reboot => exact absurd rfl hi
  all_goals simp only [Turn.outcome, exec, execGetSync, execGetDevice, execChipErase, execLoadAddress, execProgFlash,
    execReadFlash, execProgMulti, execReadMulti, execParamErase, hc]

/-- In the block's turn a step that answers a next state is the block's own. -/
theorem blockStep_of_step {s u t : State} (hb : s.blockState = some u) (h : step s = .next t) : blockStep u = .next t := by
  rcases step_cases h with ⟨a, rest, he, ha, -⟩ | ⟨v, hv, -, hstep⟩
  · simp [blockState_of_env he ha] at hb
  · obtain rfl : v = u := Option.some_inj.1 (hv.symm.trans hb)
    exact hstep

/-! ### Serial traffic -/

theorem CommandState.mem_of_port_rx {c : CommandState} (h : c.port = some .rx) :
    c ∈ [.idle, .preEoc, .laLo, .laHi, .laEoc, .pfData, .pfEoc, .pmCount, .pmData, .pmEoc, .rmCount, .rmEoc] := by
  cases c <;> simp_all [CommandState.port]

theorem CommandState.mem_of_port_tx {c : CommandState} (h : c.port = some .tx) :
    c ∈ [.gdId, .gdFreq, .rfSend, .rmSend, .ackInsync, .ackOk] := by
  cases c <;> simp_all [CommandState.port]

/-- A row of the table leaves the input alone, or takes one byte in a receiving state. -/
theorem Row.rx_cases {s t : State} (h : Row s t) : t.rx = s.rx ∨ (s.cs.port = some .rx ∧ ∃ b, s.rx = b :: t.rx) := by
  cases h <;> simp [CommandState.port, *]

theorem blockStep_rx {u t : State} (h : blockStep u = .next t) (hne : t.rx ≠ u.rx) :
    u.cs.port = some .rx ∧ ∃ b, u.rx = b :: t.rx := by
  rcases blockStep_next h with rfl | hrow | ⟨b, rest, hc, hx, -, rfl⟩ | ⟨_, -, -, -, rfl⟩ | ⟨-, -, rfl⟩
  · exact absurd rfl hne
  · exact hrow.rx_cases.resolve_left hne
  · exact ⟨by rw [hc]; rfl, b, hx⟩
  all_goals exact absurd rfl hne

/-- An event sends no byte, or it is a transaction on `tx` and sends one. -/
theorem Event.sentByte_cases (e : Event) : e.sentByte = none ∨ (e.port = some .tx ∧ ∃ b, e.sentByte = some b) := by
  cases e <;> simp [Event.sentByte, Event.port]

@[simp] theorem Event.sentByte_abort (cause : AbortCause) : (Event.abort cause).sentByte = none := rfl

/-- A step of the block sends at most one byte, and only on the port of its command state. -/
theorem StepEvents.sent_cases {c : CommandState} {es : List Event} (h : StepEvents c es) :
    es.filterMap Event.sentByte = [] ∨ (c.port = some .tx ∧ ∃ b, es.filterMap Event.sentByte = [b]) := by
  cases h with
  | silent => exact .inl rfl
  | completed e he | aborted e _ he =>
    rcases e.sentByte_cases with hs | ⟨hp, b, hs⟩
    · exact .inl (by simp [hs])
    · exact .inr ⟨he ▸ hp, b, by simp [hs]⟩

theorem blockStep_sent {u t : State} (h : blockStep u = .next t) (hne : t.sent ≠ u.sent) :
    u.cs.port = some .tx ∧ ∃ b, t.sent = u.sent ++ [b] := by
  obtain ⟨es, htrace, hes⟩ := blockStep_trace h
  have hsent : t.sent = u.sent ++ es.filterMap Event.sentByte := by
    simp only [State.sent, htrace, List.filterMap_append]
  rcases hes.sent_cases with hnone | ⟨hp, b, hb⟩
  · exact absurd (by rw [hsent, hnone, List.append_nil]) hne
  · exact ⟨hp, b, by rw [hsent, hb]⟩

/-! ### The rows that write each field (the table of spec/10_state.md R40) -/

section
variable {s t : State} (h : Row s t)
include h

theorem Row.cur_writers (hne : t.cur ≠ s.cur) :
    s.cs ∈ [.bgEnterCmd, .laEoc, .pfWrite, .rfRead, .pmWrite, .rmRead] ∨
      (s.cs = .laHi ∧ s.params.laEarlyCommit = true) := by
  cases h with
  | bgEnterCmd hc | laEocGood _ _ hc | pfWrite hc | rfRead hc | pmWriteLast _ hc | pmWrite _ hc | rmRead hc =>
    exact .inl (by simp [hc])
  | laHiEarly _ _ hc _ he => exact .inr ⟨hc, he⟩
  | _ => exact absurd rfl hne

theorem Row.buf_writers (hne : t.buf ≠ s.buf) : s.cs = .pmData := by
  cases h with
  | pmDataLast _ _ hc | pmData _ _ hc => exact hc
  | _ => exact absurd rfl hne

theorem Row.cnt_writers (hne : t.cnt ≠ s.cnt) : s.cs ∈ [.pmCount, .rmCount] := by
  cases h with
  | pmCountOver _ _ hc | pmCountZero _ _ hc | pmCount _ _ hc | rmCount _ _ hc => simp [hc]
  | _ => exact absurd rfl hne

theorem Row.idx_writers (hne : t.idx ≠ s.idx) : s.cs ∈ [.pmCount, .pmData, .pmEoc, .pmWrite, .rmEoc, .rmRead] := by
  cases h with
  | pmCountOver _ _ hc | pmCountZero _ _ hc | pmCount _ _ hc | pmDataLast _ _ hc | pmData _ _ hc | pmEocZero _ _ hc
  | pmEocGood _ _ hc | pmWriteLast _ hc | pmWrite _ hc | rmEocZero _ _ hc | rmEocGood _ _ hc | rmRead hc => simp [hc]
  | _ => exact absurd rfl hne

theorem Row.arg_writers (hne : t.arg ≠ s.arg) : s.cs ∈ [.laLo, .laHi] := by
  cases h with
  | laLo _ _ hc | laHi _ _ hc | laHiEarly _ _ hc => simp [hc]
  | _ => exact absurd rfl hne

theorem Row.data_writers (hne : t.data ≠ s.data) : s.cs ∈ [.pfData, .rfRead, .rmRead] := by
  cases h with
  | pfData _ _ hc | rfRead hc | rmRead hc => simp [hc]
  | _ => exact absurd rfl hne

theorem Row.op_writers (hne : t.op ≠ s.op) : s.cs = .idle := by
  cases h with
  | idle _ _ _ _ hc | idleInvalid _ _ hc => exact hc
  | _ => exact absurd rfl hne

theorem Row.flash_writers (hne : t.flash ≠ s.flash) : s.cs ∈ [.ceErase, .peErase, .pfWrite, .pmWrite] := by
  cases h with
  | ceErase hc | peErase hc | pfWrite hc | pmWriteLast _ hc | pmWrite _ hc => simp [hc]
  | _ => exact absurd rfl hne

theorem Row.rc_writers (hne : t.rc ≠ s.rc) : s.cs = .rbSet ∧ t.rc = { s.rc with swReset := true } := by
  cases h with
  | rbSet hc => exact ⟨hc, rfl⟩
  | _ => exact absurd rfl hne

theorem Row.resetRequest_writers (hne : t.resetRequest ≠ s.resetRequest) : s.cs = .rbSet ∧ t.resetRequest = true := by
  cases h with
  | rbSet hc => exact ⟨hc, rfl⟩
  | _ => exact absurd rfl hne

theorem Row.scFreq_writers (hne : t.scFreq ≠ s.scFreq) : s.cs = .bgScFreq ∧ t.scFreq = s.params.boardFreq := by
  cases h with
  | bgScFreq hc => exact ⟨hc, rfl⟩
  | _ => exact absurd rfl hne

theorem Row.scVer_writers (hne : t.scVer ≠ s.scVer) : s.cs = .bgScVer ∧ t.scVer = s.params.blVersion := by
  cases h with
  | bgScVer hc => exact ⟨hc, rfl⟩
  | _ => exact absurd rfl hne

/-- No row changes a port's state or what belongs to the environment. -/
theorem Row.ports_eq :
    t.force = s.force ∧ t.txReady = s.txReady ∧ t.flashReady = s.flashReady ∧ t.env = s.env ∧ t.draws = s.draws := by
  cases h <;> exact ⟨rfl, rfl, rfl, rfl, rfl⟩

end

/-! ### Modes -/

/-- The command states that a good terminator of a zero-argument command leads to (spec/41_framing_dispatch.md R152). -/
theorem mem_precheck_targets {i : Instr} {c : CommandState}
    (h : (i, c) ∈ [(Instr.getSync, CommandState.ackInsync), (.getDevice, .gdId), (.chipErase, .ceErase),
      (.paramErase, .peErase), (.readFlash, .rfRead)]) : c ∈ [.ackInsync, .gdId, .ceErase, .peErase, .rfRead] :=
  List.mem_map_of_mem (f := Prod.snd) h

/-- Where a row of the table leads from the mode it starts in (spec/10_state.md R31). -/
theorem Row.mode_cases {s t : State} (h : Row s t) :
    (s.cs.mode = .boot ∧
      (t.cs.mode = .boot ∨ (s.cs = .bgJump ∧ t.cs = .handedOff) ∨ (s.cs = .bgEnterCmd ∧ t.cs = .idle))) ∨
    (s.cs.mode = .cmd ∧ (t.cs.mode = .cmd ∨ (s.cs = .rbSet ∧ t.cs = .resetPending))) := by
  cases h
  case idle i c hc _ _ hi => subst hi; cases i <;> simp [hc, CommandState.mode]
  case preEocGood hc _ _ _ hm =>
    have htarget : ∀ c ∈ [CommandState.ackInsync, .gdId, .ceErase, .peErase, .rfRead], c.mode = .cmd := by decide
    exact .inr ⟨by rw [hc]; rfl, .inl (htarget _ (mem_precheck_targets hm))⟩
  all_goals simp [CommandState.mode, *]

theorem mode_ite (p : Prop) [Decidable p] {c d : CommandState} {m : Mode} (hc : c.mode = m) (hd : d.mode = m) :
    (if p then c else d).mode = m := by split <;> assumption

/-! ### The obligations -/

/-- Settles O17: the input by the rows that receive, the output by what a step adds to the observation. -/
theorem serialTraffic : Obligations.SerialTraffic := by
  intro s u t hb h
  have hu := blockStep_of_step hb h
  exact ⟨fun hne => (blockStep_rx hu hne).imp_left CommandState.mem_of_port_rx,
    fun hne => (blockStep_sent hu hne).imp_left CommandState.mem_of_port_tx⟩

/-- Settles O18: no row of the table writes a register in another command state, nor does a step whose index is out of
bounds. -/
theorem registerWriters : Obligations.RegisterWriters := by
  intro s u t hb h
  rcases blockStep_next (blockStep_of_step hb h) with
    rfl | hrow | ⟨_, _, hc, -, -, rfl⟩ | ⟨_, hc, -, -, rfl⟩ | ⟨hc, -, rfl⟩
  · simp
  · exact ⟨hrow.cur_writers, hrow.buf_writers, hrow.cnt_writers, hrow.idx_writers, hrow.arg_writers, hrow.data_writers,
      hrow.op_writers⟩
  all_goals simp [hc]

/-- Settles O19: flash, `RC`, the request and the side-channel registers each have their rows; no row touches a
port's state. -/
theorem externalWriters : Obligations.ExternalWriters := by
  intro s u t hb h
  rcases blockStep_next (blockStep_of_step hb h) with
    rfl | hrow | ⟨_, _, hc, -, -, rfl⟩ | ⟨_, hc, -, -, rfl⟩ | ⟨hc, -, rfl⟩
  · simp
  · exact ⟨hrow.flash_writers, hrow.rc_writers, hrow.resetRequest_writers, hrow.scFreq_writers, hrow.scVer_writers,
      hrow.ports_eq⟩
  all_goals simp [hc]

/-- Settles O21: the rows stay in their mode but for the three that leave it, and no row starts in the two modes
without a step. -/
theorem modeChanges : Obligations.ModeChanges := by
  intro s u t hb h
  rcases blockStep_next (blockStep_of_step hb h) with
    rfl | hrow | ⟨_, _, hc, -, -, rfl⟩ | ⟨_, hc, -, -, rfl⟩ | ⟨hc, -, rfl⟩
  · cases hm : t.cs.mode <;> simp
  · rcases hrow.mode_cases with ⟨hm, ht⟩ | ⟨hm, ht⟩ <;> rw [hm] <;> exact ht
  all_goals
    rw [hc]
    exact .inl (mode_ite _ rfl rfl)

/-- Settles O8: a command state with an owner has that command's step, and the acknowledgement is the same step for all but
`REBOOT`. -/
theorem handlerStepsRunTheirCommand : Obligations.HandlerStepsRunTheirCommand := by
  intro s u hw hb
  rw [step_of_blockState hw hb]
  have owned {cs : List CommandState} {i : Instr} (hcs : ∀ c ∈ cs, c.owner = some i) (hc : u.cs ∈ cs) :
      blockStep u = exec i u := blockStep_of_owner (hcs _ hc)
  have ownedOne {c : CommandState} {i : Instr} (ho : c.owner = some i) (hc : u.cs = c) :
      blockStep u = exec i u := blockStep_of_owner (hc ▸ ho)
  exact ⟨owned (by decide), ownedOne rfl, ownedOne rfl, owned (by decide), owned (by decide), owned (by decide),
    owned (by decide), owned (by decide), ownedOne rfl, fun i hi => blockStep_of_ack hi⟩

/-- Settles O38: the step is `SetSwReset` followed by `CS <- RESET_PENDING`. -/
theorem rebootStep : Obligations.RebootStep := by
  intro s hc
  simp only [exec, execReboot, hc]
  rfl

end Sys2Proof.Machine
end

section
/-! The invariant of the machine, the reset, and the boot gate after a reset (spec/10_state.md R60, R61,
spec/40_boot_gate.md R131 to R135). -/

namespace Sys2Proof.Machine

/-! ### The invariant -/

/-- An index below a count reaches it with its next value, or stays below it: it does not wrap. -/
theorem idx_succ_cases {i n : Byte} (h : i < n) :
    (i + 1 = n ∧ i.toNat + 1 = n.toNat) ∨ (i + 1 ≠ n ∧ i.toNat + 1 < n.toNat) := by
  bv_omega

theorem idx_succ_eq {i n : Byte} (h : i.toNat + 1 = n.toNat) : i + 1 = n := by bv_omega

theorem idx_succ_lt {i n : Byte} (h : i.toNat + 1 < n.toNat) : i + 1 < n := by bv_omega

section
variable {s : State} (hi : s.Inv)
include hi

theorem State.Inv.pmData (hc : s.cs = .pmData) : s.cnt.toNat ≤ s.params.cap ∧ s.idx < s.cnt := by
  simpa only [State.PhaseInv, hc] using hi.phase

theorem State.Inv.pmEoc (hc : s.cs = .pmEoc) : s.cnt.toNat ≤ s.params.cap ∧ s.idx = s.cnt := by
  simpa only [State.PhaseInv, hc] using hi.phase

theorem State.Inv.pmWrite (hc : s.cs = .pmWrite) : s.cnt.toNat ≤ s.params.cap ∧ s.idx < s.cnt := by
  simpa only [State.PhaseInv, hc] using hi.phase

theorem State.Inv.rmRead (hc : s.cs = .rmRead) : s.idx < s.cnt := by
  simpa only [State.PhaseInv, hc] using hi.phase

theorem State.Inv.rmSend (hc : s.cs = .rmSend) : 0 < s.idx ∧ s.idx ≤ s.cnt := by
  simpa only [State.PhaseInv, hc] using hi.phase

end

/-- Under the invariant the block's step is a wait or a row of the transition table (spec/41_framing_dispatch.md R170): the
index of a multi-byte command is within the bounds that its rows ask for. -/
theorem blockStep_row {u t : State} (hi : u.Inv) (h : blockStep u = .next t) : t = u ∨ Row u t := by
  rcases blockStep_next h with rfl | hrow | ⟨b, rest, hc, hx, -, rfl⟩ | ⟨v, hc, hf, hv, rfl⟩ | ⟨hc, htx, rfl⟩
  · exact .inl rfl
  · exact .inr hrow
  all_goals right
  · obtain ⟨-, hlt⟩ := hi.pmData hc
    rcases idx_succ_cases hlt with ⟨he, hn⟩ | ⟨he, hn⟩
    · rw [if_pos he]; exact .pmDataLast b rest hc hx hn
    · rw [if_neg he]; exact .pmData b rest hc hx hn
  · obtain ⟨-, hlt⟩ := hi.pmWrite hc
    rcases idx_succ_cases hlt with ⟨he, hn⟩ | ⟨he, hn⟩
    · rw [if_pos he]; exact .pmWriteLast v hc hf hv hn
    · rw [if_neg he]; exact .pmWrite v hc hf hv hn
  · obtain ⟨-, hle⟩ := hi.rmSend hc
    by_cases he : u.idx = u.cnt
    · rw [if_pos he]; exact .rmSendLast hc htx he
    · rw [if_neg he]; exact .rmSend hc htx (by bv_omega)

theorem Row.flash_wf {s t : State} (h : Row s t) (hf : s.flash.wf) : t.flash.wf := by
  cases h with
  | ceErase | peErase => exact Memory.wf_fill _ _ hf
  | pfWrite | pmWriteLast | pmWrite => exact Memory.wf_write _ s.cur.isLt hf
  | _ => exact hf

theorem Row.buf_length {s t : State} (h : Row s t) : t.buf.length = s.buf.length := by
  cases h with
  | pmDataLast | pmData => exact List.length_set
  | _ => rfl

/-- A row that leaves a request pending is `RB_SET`: no row starts in `RESET_PENDING`. -/
theorem Row.request_pending {s t : State} (h : Row s t) (hs : s.resetRequest = true → s.cs = .resetPending)
    (ht : t.resetRequest = true) : t.cs = .resetPending := by
  have hw := h.waits_eq_false
  have hno : s.resetRequest = true → False := fun hr => by
    simp [State.waits, CommandState.port, hs hr] at hw
  cases h with
  | rbSet => rfl
  | _ => exact (hno ht).elim

/-- Where a row leads, the clause of its target on `OP`, the index and the count holds. -/
theorem Row.phaseInv {s t : State} (h : Row s t) (hi : s.Inv) : t.PhaseInv := by
  cases h with
  | idle b rest i c hc hx hb hci =>
    subst hb hci
    cases i <;> simp only [State.PhaseInv, Params.classify_opcode hi.params, Option.map_some, Instr.format]
  | preEocGood t rest i c hc hx ht hop hm =>
    have hc' := mem_precheck_targets hm
    simp only [List.mem_cons, List.not_mem_nil, or_false] at hc'
    rcases hc' with rfl | rfl | rfl | rfl | rfl <;> trivial
  | pmCountZero c rest hc hx h0 => subst h0; exact ⟨Nat.zero_le _, rfl⟩
  | pmCount c rest hc hx hpos hcap => exact ⟨hcap, hpos⟩
  | pmDataLast b rest hc hx hlast => exact (hi.pmData hc).imp_right fun _ => idx_succ_eq hlast
  | pmData b rest hc hx hlt => exact (hi.pmData hc).imp_right fun _ => idx_succ_lt hlt
  | pmEocGood t rest hc hx ht hpos => exact (hi.pmEoc hc).imp_right fun _ => hpos
  | pmWrite v hc hf hv hlt => exact (hi.pmWrite hc).imp_right fun _ => idx_succ_lt hlt
  | rmEocGood t rest hc hx ht hpos => exact hpos
  | rmRead hc hf =>
    have hlt := hi.rmRead hc
    exact (show 0 < s.idx + 1 ∧ s.idx + 1 ≤ s.cnt by bv_omega)
  | rmSend hc htx hlt => exact hlt
  | rbSet => rfl
  | _ => trivial

theorem Row.keeps_inv {s t : State} (h : Row s t) (hi : s.Inv) : t.Inv where
  params := h.params_eq ▸ hi.params
  flash := h.flash_wf hi.flash
  buf := by rw [h.buf_length, h.params_eq, hi.buf]
  request := h.request_pending hi.request
  phase := h.phaseInv hi

theorem takeReset_inv (kind : ResetKind) {s : State} (hi : s.Inv) : (takeReset kind s).Inv where
  params := hi.params
  flash := hi.flash
  buf := by simp [takeReset]
  request := nofun
  phase := trivial

theorem applyEnv_inv (a : EnvAction) {s : State} (hi : s.Inv) : (applyEnv a s).Inv := by
  cases a with
  | reset kind =>
    simp only [applyEnv]
    split
    · exact hi
    · exact takeReset_inv kind hi
  | _ => exact ⟨hi.params, hi.flash, hi.buf, hi.request, hi.phase⟩

theorem step_inv {s t : State} (hi : s.Inv) (h : step s = .next t) : t.Inv := by
  rcases step_cases h with ⟨a, rest, -, -, rfl⟩ | ⟨u, hb, -, hu⟩
  · exact applyEnv_inv a ⟨hi.params, hi.flash, hi.buf, hi.request, hi.phase⟩
  · have hiu := hi.of_blockState hb
    rcases blockStep_row hiu hu with rfl | hrow
    · exact hiu
    · exact hrow.keeps_inv hiu

/-! ### The reset -/

/-- A reset that the controller lets through: any but a software reset that nobody requested. -/
theorem applyEnv_reset {kind : ResetKind} {s : State} (h : kind = .software → s.resetRequest = true) :
    applyEnv (.reset kind) s = takeReset kind s :=
  if_neg fun hn => by simp [h hn.1] at hn

/-- A reset adds nothing to the output stream. -/
theorem takeReset_sent (kind : ResetKind) (s : State) : (takeReset kind s).sent = s.sent := by
  simp [State.sent, takeReset, Event.sentByte]

/-! ### The boot gate after a reset -/

/-- From `s` the block runs, with no further reset, into the command loop with the cursor at 0 or into the handoff; it
consumes and sends nothing on the way (spec/10_state.md R61). -/
def GateEnds (s : State) : Prop :=
  ∃ n t, Reaches n s t ∧ ((t.cs = .idle ∧ t.cur = 0) ∨ t.cs = .handedOff) ∧ t.rx = s.rx ∧ t.sent = s.sent ∧
    t.draws = s.draws

/-- What the gate needs to go on: the launch premise, nothing pending from the environment, flash able to complete. -/
structure GateReady (s : State) : Prop where
  launched : s.params.wf = true
  env : s.env = []
  flash : s.flashReady = true

theorem GateReady.step_eq {s : State} (h : GateReady s) : step s = blockStep s := step_of_env_nil h.launched h.env

theorem gateEnds_of_end {s : State} (h : (s.cs = .idle ∧ s.cur = 0) ∨ s.cs = .handedOff) : GateEnds s :=
  ⟨0, s, rfl, h, rfl, rfl, rfl⟩

theorem GateEnds.of_step {s u : State} (hg : GateReady s) (h : blockStep s = .next u) (hrx : u.rx = s.rx)
    (hsent : u.sent = s.sent) (hdraws : u.draws = s.draws) (hu : GateEnds u) : GateEnds s := by
  obtain ⟨n, t, hr, hend, hrx', hsent', hdraws'⟩ := hu
  exact ⟨n + 1, t, reaches_succ.2 ⟨u, by rw [hg.step_eq, h], hr⟩, hend, hrx'.trans hrx, hsent'.trans hsent,
    hdraws'.trans hdraws⟩

/-- A step of the gate that makes one transaction, on no serial port, and then goes to `c`. -/
theorem GateEnds.of_transaction {s v : State} {e : Event} {c : CommandState} (hg : GateReady s)
    (h : blockStep s = goTo c (v.emit e)) (he : e.sentByte = none) (htrace : v.trace = s.trace) (hrx : v.rx = s.rx)
    (hdraws : v.draws = s.draws) (hu : GateEnds ((v.emit e).goto c)) : GateEnds s :=
  .of_step hg h hrx (by simp [State.sent, he, htrace]) hdraws hu

/-! The steps of the gate, from its two ends back to `BG_FAULT` (spec/40_boot_gate.md R131 to R135). -/

section
variable {s : State} (hg : GateReady s)
include hg

theorem gateEnds_enterCmd (hc : s.cs = .bgEnterCmd) : GateEnds s :=
  .of_step hg (u := { s with cs := .idle, cur := 0 }) (by rw [blockStep, blockTurn, hc]; rfl) rfl rfl rfl
    (gateEnds_of_end (.inl ⟨rfl, rfl⟩))

theorem gateEnds_jump (hc : s.cs = .bgJump) : GateEnds s :=
  .of_transaction hg (by rw [blockStep, blockTurn, hc]; rfl) rfl rfl rfl rfl (gateEnds_of_end (.inr rfl))

theorem gateEnds_scVer (hc : s.cs = .bgScVer) : GateEnds s :=
  .of_transaction (v := { s with scVer := s.params.blVersion }) hg (by rw [blockStep, blockTurn, hc]; rfl) rfl rfl rfl rfl
    (gateEnds_jump ⟨hg.launched, hg.env, hg.flash⟩ rfl)

theorem gateEnds_scFreq (hc : s.cs = .bgScFreq) : GateEnds s :=
  .of_transaction (v := { s with scFreq := s.params.boardFreq }) hg (by rw [blockStep, blockTurn, hc]; rfl) rfl rfl rfl rfl
    (gateEnds_scVer ⟨hg.launched, hg.env, hg.flash⟩ rfl)

theorem gateEnds_force (hc : s.cs = .bgForce) : GateEnds s := by
  refine .of_transaction hg (by rw [blockStep, blockTurn, hc]; rfl) rfl rfl rfl rfl ?_
  split
  · exact gateEnds_enterCmd ⟨hg.launched, hg.env, hg.flash⟩ rfl
  · exact gateEnds_scFreq ⟨hg.launched, hg.env, hg.flash⟩ rfl

theorem gateEnds_valid (hc : s.cs = .bgValid) : GateEnds s := by
  refine .of_transaction hg (e := .imageValid (Params.imageValid s.params s.flash))
    (by rw [blockStep, blockTurn, hc]; exact if_pos hg.flash) rfl rfl rfl rfl ?_
  split
  · exact gateEnds_force ⟨hg.launched, hg.env, hg.flash⟩ rfl
  · exact gateEnds_enterCmd ⟨hg.launched, hg.env, hg.flash⟩ rfl

theorem gateEnds_fault (hc : s.cs = .bgFault) : GateEnds s := by
  refine .of_transaction hg (by rw [blockStep, blockTurn, hc]; rfl) rfl rfl rfl rfl ?_
  split
  · exact gateEnds_enterCmd ⟨hg.launched, hg.env, hg.flash⟩ rfl
  · exact gateEnds_valid ⟨hg.launched, hg.env, hg.flash⟩ rfl

end

/-! ### The obligations -/

/-- Settles O11: a step is an action of the environment, a wait, or a row of the table, and each keeps every clause. -/
theorem stepKeepsInv : Obligations.StepKeepsInv := fun _ _ => step_inv

/-- Settles O52: the gate runs from `BG_FAULT` to one of its two ends, whatever the reset left in the registers. -/
theorem cursorZeroAfterReset : Obligations.CursorZeroAfterReset := by
  intro s kind hi hf he hk
  have hreset := step_env he (a := .reset kind) (by simp)
  rw [applyEnv_reset (by exact hk)] at hreset
  obtain ⟨n, t, hr, hend, hrx, hsent, hdraws⟩ :=
    gateEnds_fault (s := takeReset kind { s with env := [] }) ⟨hi.params, rfl, hf⟩ rfl
  exact ⟨n, t, reaches_succ.2 ⟨_, hreset, hr⟩, hend, hrx, hsent.trans (takeReset_sent _ _), hdraws⟩

/-- Settles O10: the clauses at the reset values. -/
theorem invAtReset : Obligations.InvAtReset where
  params := by decide
  flash := Memory.wf_nil
  buf := List.length_replicate
  request := by decide
  phase := trivial

/-- Settles O50: the step is the reset itself, which the controller lets through. -/
theorem resetEffect : Obligations.ResetEffect := by
  intro s kind rest he hk
  have hstep := step_env he (a := .reset kind) (by simp)
  rw [applyEnv_reset (by exact hk)] at hstep
  obtain ⟨hcs, hflash, hparams, hbuf, hreq, henv⟩ := takeReset_spec kind { s with env := rest }
  exact ⟨_, hstep, hcs, hflash, hparams, rfl, rfl, hbuf, hreq, takeReset_sent _ _, rfl, henv⟩

end Sys2Proof.Machine
end

section
/-! The registers a reset loses are never observed (spec/10_state.md R40, R60, R61): a simulation between two runs that
differ in nothing a later step can still read. -/

namespace Sys2Proof.Machine

/-! ### Two runs that differ in the registers a reset loses -/

/-- Values of the registers that a reset loses (spec/10_state.md R60), the side-channel registers apart. -/
structure Lost where
  buf : List Byte
  cnt : Byte
  idx : Byte
  arg : Addr
  data : Byte
  op : Byte
  cur : Addr

/-- The state with other values in the registers that a reset loses. -/
def State.withLost (s : State) (l : Lost) : State :=
  { s with buf := l.buf, cnt := l.cnt, idx := l.idx, arg := l.arg, data := l.data, op := l.op, cur := l.cur }

@[simp] theorem State.withLost_cs (s : State) (l : Lost) : (s.withLost l).cs = s.cs := rfl
@[simp] theorem State.withLost_rx (s : State) (l : Lost) : (s.withLost l).rx = s.rx := rfl
@[simp] theorem State.withLost_params (s : State) (l : Lost) : (s.withLost l).params = s.params := rfl
@[simp] theorem State.withLost_env (s : State) (l : Lost) : (s.withLost l).env = s.env := rfl
@[simp] theorem State.withLost_op (s : State) (l : Lost) : (s.withLost l).op = l.op := rfl

/-- The values those registers have. -/
def State.lost (s : State) : Lost := ⟨s.buf, s.cnt, s.idx, s.arg, s.data, s.op, s.cur⟩

/-- The buffers agree at the indices below `n`. -/
def SameBelow (n : Nat) (b b' : List Byte) : Prop := ∀ j < n, b'[j]? = b[j]?

theorem setLowByte_low (a : Addr) (b : Byte) : (setLowByte a b).extractLsb' 0 8 = b :=
  BitVec.extractLsb'_append_eq_right

/-- `LA_HI` keeps of `ARG` only the low byte. -/
theorem setHighByte_congr {a a' : Addr} (h : a'.extractLsb' 0 8 = a.extractLsb' 0 8) (b : Byte) :
    setHighByte a' b = setHighByte a b := by
  rw [setHighByte, setHighByte, h]

theorem sameBelow_zero {b b' : List Byte} : SameBelow 0 b b' := fun j hj => absurd hj (Nat.not_lt_zero j)

/-- Writing the same byte at index `n` of both extends the agreement by one index. -/
theorem sameBelow_set {n : Nat} {b b' : List Byte} (hlen : b'.length = b.length) (h : SameBelow n b b') (v : Byte) :
    SameBelow (n + 1) (b.set n v) (b'.set n v) := by
  intro j hj
  simp only [List.getElem?_set, hlen]
  by_cases hjn : n = j
  · rw [if_pos hjn, if_pos hjn]
  · rw [if_neg hjn, if_neg hjn, h j (by omega)]

theorem SameBelow.mono {n k : Nat} {b b' : List Byte} (h : SameBelow n b b') (hk : k ≤ n) : SameBelow k b b' :=
  fun j hj => h j (by omega)

/-- The two agree on what a step from command state `c` on can still read, before it is written again, of the registers a
reset loses. Inside the gate and after the handoff that is nothing, in the command loop always the cursor, and inside a
frame what the command has taken so far. -/
def Lost.AgreeAt (c : CommandState) (m l : Lost) : Prop :=
  match c with
  | .bgFault | .bgValid | .bgForce | .bgScFreq | .bgScVer | .bgJump | .bgEnterCmd | .handedOff => True
  | .preEoc => l.cur = m.cur ∧ l.op = m.op
  | .laHi => l.cur = m.cur ∧ l.arg.extractLsb' 0 8 = m.arg.extractLsb' 0 8
  | .laEoc => l.cur = m.cur ∧ l.arg = m.arg
  | .pfEoc | .pfWrite | .rfSend => l.cur = m.cur ∧ l.data = m.data
  | .pmData => l.cur = m.cur ∧ l.cnt = m.cnt ∧ l.idx = m.idx ∧ SameBelow m.idx.toNat m.buf l.buf
  | .pmEoc => l.cur = m.cur ∧ l.cnt = m.cnt ∧ SameBelow m.cnt.toNat m.buf l.buf
  | .pmWrite => l.cur = m.cur ∧ l.cnt = m.cnt ∧ l.idx = m.idx ∧ SameBelow m.cnt.toNat m.buf l.buf
  | .rmEoc => l.cur = m.cur ∧ l.cnt = m.cnt
  | .rmRead => l.cur = m.cur ∧ l.cnt = m.cnt ∧ l.idx = m.idx
  | .rmSend => l.cur = m.cur ∧ l.cnt = m.cnt ∧ l.idx = m.idx ∧ l.data = m.data
  | _ => l.cur = m.cur

theorem Lost.AgreeAt.refl (c : CommandState) (l : Lost) : l.AgreeAt c l := by
  cases c <;> simp [Lost.AgreeAt, SameBelow]

/-- The two states differ only in the registers a reset loses, and in nothing of them that a later step reads. -/
def Alike (s s' : State) : Prop :=
  ∃ l : Lost, s' = s.withLost l ∧ l.buf.length = s.buf.length ∧ s.lost.AgreeAt s.cs l

theorem Alike.refl (s : State) : Alike s s := ⟨s.lost, rfl, rfl, .refl _ _⟩

/-- Whatever next state the first outcome is, the second is one alike. -/
def AlikeOutcome (o o' : Outcome) : Prop := ∀ t, o = .next t → ∃ t', o' = .next t' ∧ Alike t t'

theorem alikeOutcome_next {s s' : State} (h : Alike s s') : AlikeOutcome (.next s) (.next s') := by
  intro t ht
  cases ht
  exact ⟨s', rfl, h⟩

theorem alikeOutcome_fault (r : Fault) (o : Outcome) : AlikeOutcome (.fault r) o := by
  intro t ht
  cases ht

theorem alikeOutcome_ite {p : Bool} {o₁ o₁' o₂ o₂' : Outcome} (h₁ : p = true → AlikeOutcome o₁ o₁')
    (h₂ : AlikeOutcome o₂ o₂') : AlikeOutcome (if p then o₁ else o₂) (if p then o₁' else o₂') := by
  cases p with
  | true => exact h₁ rfl
  | false => exact h₂

/-! ### The operations on alike states -/

section
variable {c : CommandState} {s : State} {l : Lost} (hlen : l.buf.length = s.buf.length)
include hlen

theorem alikeOutcome_goTo (h : s.lost.AgreeAt c l) :
    AlikeOutcome (goTo c s) (goTo c (s.withLost l)) :=
  alikeOutcome_next ⟨l, rfl, hlen, h⟩

theorem alikeOutcome_abort (cause : AbortCause) (h : l.cur = s.cur) :
    AlikeOutcome (abort cause s) (abort cause (s.withLost l)) :=
  alikeOutcome_next ⟨l, rfl, hlen, h⟩

variable (hlive : s.lost.AgreeAt s.cs l)
include hlive

theorem alikeOutcome_hold : AlikeOutcome (hold s) (hold (s.withLost l)) :=
  alikeOutcome_next ⟨l, rfl, hlen, hlive⟩

/-- A transaction on a port that holds unless it is ready. -/
theorem alikeOutcome_ready {r : Bool} {o o' : Outcome} (ho : AlikeOutcome o o') :
    AlikeOutcome (if r then o else hold s) (if r then o' else hold (s.withLost l)) :=
  alikeOutcome_ite (fun _ => ho) (alikeOutcome_hold hlen hlive)

theorem alikeOutcome_rxByte {k k' : Byte → State → Outcome}
    (hk : ∀ b rest, AlikeOutcome (k b ({ s with rx := rest }.emit (.rx b)))
      (k' b (({ s with rx := rest }.emit (.rx b)).withLost l))) :
    AlikeOutcome (rxByte k s) (rxByte k' (s.withLost l)) := by
  cases hx : s.rx with
  | nil => rw [rxByte_nil hx, rxByte_nil (by exact hx)]; exact alikeOutcome_hold hlen hlive
  | cons b rest => rw [rxByte_cons hx, rxByte_cons (by exact hx)]; exact hk b rest

theorem alikeOutcome_txByte {b b' : Byte} {k k' : State → Outcome} (hb : b' = b)
    (hk : AlikeOutcome (k (s.emit (.tx b))) (k' ((s.emit (.tx b)).withLost l))) :
    AlikeOutcome (txByte b k s) (txByte b' k' (s.withLost l)) := by
  subst hb
  exact alikeOutcome_ready hlen hlive hk

theorem alikeOutcome_memRead {a a' : Addr} {k k' : Byte → State → Outcome} (ha : a' = a)
    (hk : ∀ b, AlikeOutcome (k b (s.emit (.memRead a b))) (k' b ((s.emit (.memRead a b)).withLost l))) :
    AlikeOutcome (memRead a k s) (memRead a' k' (s.withLost l)) := by
  subst ha
  exact alikeOutcome_ready hlen hlive (hk _)

theorem alikeOutcome_memWrite {a a' : Addr} {v v' : Byte} {k k' : State → Outcome} (ha : a' = a) (hv : v' = v)
    (hk : AlikeOutcome (k ((s.programByte a v).emit (.memWrite a v)))
      (k' (((s.programByte a v).emit (.memWrite a v)).withLost l))) :
    AlikeOutcome (memWrite a v k s) (memWrite a' v' k' (s.withLost l)) := by
  subst ha hv
  exact alikeOutcome_ready hlen hlive hk

theorem alikeOutcome_flashErase {r : RegionName} {k : State → Outcome}
    (hk : AlikeOutcome (k ((s.eraseRegion r).emit (.flashErase r)))
      (k (((s.eraseRegion r).emit (.flashErase r)).withLost l))) :
    AlikeOutcome (flashErase r k s) (flashErase r k (s.withLost l)) :=
  alikeOutcome_ready hlen hlive hk

theorem alikeOutcome_takeEoc {cause : AbortCause} {k : State → Outcome} (hcur : l.cur = s.cur)
    (hk : ∀ rest, AlikeOutcome (k ({ s with rx := rest }.emit (.rx s.params.eoc)))
      (k (({ s with rx := rest }.emit (.rx s.params.eoc)).withLost l))) :
    AlikeOutcome (takeEoc cause k s) (takeEoc cause k (s.withLost l)) := by
  refine alikeOutcome_rxByte hlen hlive fun b rest => alikeOutcome_ite (p := b == s.params.eoc) (fun hb => ?_) ?_
  · rw [beq_iff_eq.1 hb]
    exact hk rest
  · exact alikeOutcome_abort (s := { s with rx := rest }.emit (.rx b)) hlen cause hcur

/-- The handlers of the zero-argument commands start with the cursor alone. -/
theorem alikeOutcome_preEoc (hcur : l.cur = s.cur) (hc : s.lost.AgreeAt c l) :
    AlikeOutcome (preEoc c s) (preEoc c (s.withLost l)) :=
  alikeOutcome_takeEoc hlen hlive hcur fun _ => alikeOutcome_goTo hlen hc

end

/-! ### The steps of the block on alike states -/

/-- The command state that a command's dispatch leads to (spec/41_framing_dispatch.md R151). -/
def entryOf : Instr → CommandState
  | .loadAddress => .laLo
  | .progFlash => .pfData
  | .progMulti => .pmCount
  | .readMulti => .rmCount
  | .reboot => .rbSet
  | _ => .preEoc

theorem exec_idle (i : Instr) {s : State} (hc : s.cs = .idle) : exec i s = goTo (entryOf i) s := by
  cases i <;> simp only [exec, execGetSync, execGetDevice, execChipErase, execLoadAddress, execProgFlash, execReadFlash,
    execProgMulti, execReadMulti, execParamErase, execReboot, hc, entryOf]

/-- At a command's entry only the cursor and the opcode can still be read. -/
theorem agreeAt_entryOf (i : Instr) {m l : Lost} (hcur : l.cur = m.cur) (hop : l.op = m.op) : m.AgreeAt (entryOf i) l := by
  cases i <;> simp [Lost.AgreeAt, entryOf, hcur, hop]

section
variable {s : State} {l : Lost} (hlen : l.buf.length = s.buf.length) (hlive : s.lost.AgreeAt s.cs l)
include hlen hlive

theorem alikeOutcome_intake (hc : s.cs = .idle) (hcur : s.lost.AgreeAt .idle l) :
    AlikeOutcome (intake s).outcome (intake (s.withLost l)).outcome := by
  unfold intake
  simp only [State.withLost_rx, State.withLost_params]
  cases hx : s.rx with
  | nil => exact alikeOutcome_hold hlen hlive
  | cons b rest =>
    cases hcl : s.params.classify b with
    | some i =>
      simp only [hcl, Turn.outcome]
      rw [exec_idle i (by exact hc), exec_idle i (by exact hc)]
      exact alikeOutcome_goTo (l := { l with op := b }) hlen (agreeAt_entryOf i hcur rfl)
    | none =>
      simp only [hcl, Turn.outcome]
      exact alikeOutcome_abort (s := s.takeOpcode b rest) (l := { l with op := b }) hlen _ hcur

theorem alikeOutcome_precheck (hc : s.cs = .preEoc) (h : s.lost.AgreeAt .preEoc l) :
    AlikeOutcome (precheck s).outcome (precheck (s.withLost l)).outcome := by
  obtain ⟨hcur, hop : l.op = s.op⟩ := h
  unfold precheck
  simp only [State.withLost_params, State.withLost_op, hop]
  cases s.params.classify s.op with
  | none => exact alikeOutcome_fault _ _
  | some i =>
    cases i <;> simp only [Turn.outcome, exec, execGetSync, execGetDevice, execChipErase, execLoadAddress, execProgFlash,
      execReadFlash, execProgMulti, execReadMulti, execParamErase, execReboot, State.withLost_cs, hc]
    case getSync | getDevice | chipErase | readFlash | paramErase => exact alikeOutcome_preEoc hlen hlive hcur hcur
    all_goals exact alikeOutcome_fault _ _

theorem alikeOutcome_loadHigh (h : s.lost.AgreeAt .laHi l) :
    AlikeOutcome (rxByte (fun b s => goTo .laEoc (loadHighByte b s)) s)
      (rxByte (fun b s => goTo .laEoc (loadHighByte b s)) (s.withLost l)) := by
  obtain ⟨hcur, hlow⟩ := h
  refine alikeOutcome_rxByte hlen hlive fun b rest => ?_
  have harg := setHighByte_congr hlow b
  refine alikeOutcome_goTo (l := { l with
    arg := setHighByte l.arg b
    cur := if s.params.laEarlyCommit then setHighByte l.arg b else l.cur }) hlen ⟨?_, harg⟩
  dsimp only
  rw [harg, hcur]
  rfl

theorem alikeOutcome_progMultiCount (hcur : s.lost.AgreeAt .pmCount l) :
    AlikeOutcome (progMultiCount s) (progMultiCount (s.withLost l)) := by
  intro t ht
  rcases progMultiCount_next.1 ht with ⟨hx, rfl⟩ | ⟨c, rest, hx, ⟨ho, rfl⟩ | ⟨ho, rfl⟩⟩
  · exact ⟨_, progMultiCount_next.2 (.inl ⟨hx, rfl⟩), l, rfl, hlen, hlive⟩
  · exact ⟨_, progMultiCount_next.2 (.inr ⟨c, rest, hx, .inl ⟨ho, rfl⟩⟩), { l with cnt := c, idx := 0 }, rfl, hlen, hcur⟩
  · refine ⟨_, progMultiCount_next.2 (.inr ⟨c, rest, hx, .inr ⟨ho, rfl⟩⟩), { l with cnt := c, idx := 0 }, rfl, hlen, ?_⟩
    by_cases h0 : c = 0
    · subst h0
      exact ⟨hcur, rfl, sameBelow_zero⟩
    · simp only [if_neg h0]
      exact ⟨hcur, rfl, rfl, sameBelow_zero⟩

theorem alikeOutcome_progMultiData (h : s.lost.AgreeAt .pmData l) :
    AlikeOutcome (progMultiData s) (progMultiData (s.withLost l)) := by
  obtain ⟨buf, cnt, idx, arg, data, op, cur⟩ := l
  obtain ⟨rfl, rfl, rfl, hbuf⟩ := h
  intro t ht
  rcases progMultiData_next.1 ht with ⟨hx, rfl⟩ | ⟨b, rest, hx, hi, rfl⟩
  · exact ⟨_, progMultiData_next.2 (.inl ⟨hx, rfl⟩), _, rfl, hlen, hlive⟩
  · refine ⟨_, progMultiData_next.2 (.inr ⟨b, rest, hx, hi.trans_eq hlen.symm, rfl⟩),
      ⟨buf.set s.idx.toNat b, s.cnt, s.idx + 1, arg, data, op, s.cur⟩, rfl, by simpa using hlen, ?_⟩
    have hset : SameBelow (s.idx + 1).toNat (s.buf.set s.idx.toNat b) (buf.set s.idx.toNat b) :=
      (sameBelow_set (n := s.idx.toNat) hlen hbuf b).mono (by bv_omega)
    by_cases hlast : s.idx + 1 = s.cnt
    · simp only [if_pos hlast]
      exact ⟨rfl, rfl, hlast ▸ hset⟩
    · simp only [if_neg hlast]
      exact ⟨rfl, rfl, rfl, hset⟩

theorem alikeOutcome_progMultiEoc (h : s.lost.AgreeAt .pmEoc l) :
    AlikeOutcome (progMultiEoc s) (progMultiEoc (s.withLost l)) := by
  obtain ⟨buf, cnt, idx, arg, data, op, cur⟩ := l
  obtain ⟨rfl, rfl, hbuf⟩ := h
  refine alikeOutcome_takeEoc hlen hlive rfl fun rest =>
    alikeOutcome_goTo (l := ⟨buf, s.cnt, 0, arg, data, op, s.cur⟩) hlen ?_
  split
  · rfl
  · exact ⟨rfl, rfl, rfl, hbuf⟩

/-- `PM_WRITE` reads a staged byte, so it needs its index below the count. -/
theorem alikeOutcome_progMultiWrite (hlt : s.idx < s.cnt) (h : s.lost.AgreeAt .pmWrite l) :
    AlikeOutcome (progMultiWrite s) (progMultiWrite (s.withLost l)) := by
  obtain ⟨buf, cnt, idx, arg, data, op, cur⟩ := l
  obtain ⟨rfl, rfl, rfl, hbuf⟩ := h
  intro t ht
  obtain ⟨v, hv, ht⟩ := progMultiWrite_next.1 ht
  have hv' : buf[s.idx.toNat]? = some v := (hbuf _ hlt).trans hv
  rcases ht with ⟨hf, rfl⟩ | ⟨hf, rfl⟩
  · exact ⟨_, progMultiWrite_next.2 ⟨v, hv', .inl ⟨hf, rfl⟩⟩, _, rfl, hlen, hlive⟩
  · refine ⟨_, progMultiWrite_next.2 ⟨v, hv', .inr ⟨hf, rfl⟩⟩,
      ⟨buf, s.cnt, s.idx + 1, arg, data, op, s.cur + 1⟩, rfl, hlen, ?_⟩
    dsimp only
    split
    · rfl
    · exact ⟨rfl, rfl, rfl, hbuf⟩

theorem alikeOutcome_readMultiEoc (h : s.lost.AgreeAt .rmEoc l) :
    AlikeOutcome (readMultiEoc s) (readMultiEoc (s.withLost l)) := by
  obtain ⟨buf, cnt, idx, arg, data, op, cur⟩ := l
  obtain ⟨rfl, rfl⟩ := h
  refine alikeOutcome_takeEoc hlen hlive rfl fun rest =>
    alikeOutcome_goTo (l := ⟨buf, s.cnt, 0, arg, data, op, s.cur⟩) hlen ?_
  split
  · rfl
  · exact ⟨rfl, rfl, rfl⟩

theorem alikeOutcome_readMultiSend (h : s.lost.AgreeAt .rmSend l) :
    AlikeOutcome (txByte s.data (fun s => goTo (if s.allSent then .ackInsync else .rmRead) s) s)
      (txByte l.data (fun s => goTo (if s.allSent then .ackInsync else .rmRead) s) (s.withLost l)) := by
  obtain ⟨buf, cnt, idx, arg, data, op, cur⟩ := l
  obtain ⟨rfl, rfl, rfl, rfl⟩ := h
  refine alikeOutcome_txByte hlen hlive rfl (alikeOutcome_goTo hlen ?_)
  split
  · rfl
  · exact ⟨rfl, rfl, rfl⟩

/-- The block's steps from alike states lead to alike states: what a step reads is live, and what it leaves live it has
read or written. -/
theorem alikeOutcome_blockStep (hi : s.Inv) : AlikeOutcome (blockStep s) (blockStep (s.withLost l)) := by
  have h := hlive
  unfold blockStep blockTurn
  simp only [State.withLost_cs]
  cases hc : s.cs <;> rw [hc] at h
  case bgFault => exact alikeOutcome_goTo hlen (by split <;> trivial)
  case bgValid => exact alikeOutcome_ready hlen hlive (alikeOutcome_goTo hlen (by split <;> trivial))
  case bgForce => exact alikeOutcome_goTo hlen (by split <;> trivial)
  case bgScFreq => exact alikeOutcome_goTo hlen trivial
  case bgScVer => exact alikeOutcome_goTo hlen trivial
  case bgJump => exact alikeOutcome_goTo hlen trivial
  case bgEnterCmd => exact alikeOutcome_goTo (l := { l with cur := 0 }) hlen rfl
  case idle => exact alikeOutcome_intake hlen hlive hc h
  case preEoc => exact alikeOutcome_precheck hlen hlive hc h
  case handedOff => exact alikeOutcome_hold hlen hlive
  case resetPending => exact alikeOutcome_hold hlen hlive
  case ackInsync => exact alikeOutcome_txByte hlen hlive rfl (alikeOutcome_goTo hlen h)
  case ackOk => exact alikeOutcome_txByte hlen hlive rfl (alikeOutcome_goTo hlen h)
  all_goals simp only [Turn.outcome, exec, execGetDevice, execChipErase, execLoadAddress, execProgFlash, execReadFlash,
    execProgMulti, execReadMulti, execParamErase, execReboot, State.withLost_cs, hc]
  case gdId => exact alikeOutcome_txByte hlen hlive rfl (alikeOutcome_goTo hlen h)
  case gdFreq => exact alikeOutcome_txByte hlen hlive rfl (alikeOutcome_goTo hlen h)
  case ceErase => exact alikeOutcome_flashErase hlen hlive (alikeOutcome_goTo hlen h)
  case peErase => exact alikeOutcome_flashErase hlen hlive (alikeOutcome_goTo hlen h)
  case rfRead =>
    exact alikeOutcome_memRead hlen hlive h fun b =>
      alikeOutcome_goTo (l := { l with cur := l.cur + 1, data := b }) hlen ⟨congrArg (· + 1) h, rfl⟩
  case rfSend =>
    obtain ⟨hcur, hdata⟩ := h
    exact alikeOutcome_txByte hlen hlive hdata (alikeOutcome_goTo hlen hcur)
  case laLo =>
    exact alikeOutcome_rxByte hlen hlive fun b rest =>
      alikeOutcome_goTo (l := { l with arg := setLowByte l.arg b }) hlen
        ⟨h, (setLowByte_low l.arg b).trans (setLowByte_low s.arg b).symm⟩
  case laHi => exact alikeOutcome_loadHigh hlen hlive h
  case laEoc =>
    obtain ⟨hcur, harg⟩ := h
    exact alikeOutcome_takeEoc hlen hlive hcur fun _ => alikeOutcome_goTo (l := { l with cur := l.arg }) hlen harg
  case pfData =>
    exact alikeOutcome_rxByte hlen hlive fun b _ => alikeOutcome_goTo (l := { l with data := b }) hlen ⟨h, rfl⟩
  case pfEoc =>
    obtain ⟨hcur, hdata⟩ := h
    exact alikeOutcome_takeEoc hlen hlive hcur fun _ => alikeOutcome_goTo hlen ⟨hcur, hdata⟩
  case pfWrite =>
    obtain ⟨hcur, hdata⟩ := h
    exact alikeOutcome_memWrite hlen hlive hcur hdata
      (alikeOutcome_goTo (l := { l with cur := l.cur + 1 }) hlen (congrArg (· + 1) hcur))
  case pmCount => exact alikeOutcome_progMultiCount hlen hlive h
  case pmData => exact alikeOutcome_progMultiData hlen hlive h
  case pmEoc => exact alikeOutcome_progMultiEoc hlen hlive h
  case pmWrite =>
    obtain ⟨-, hlt⟩ := hi.pmWrite hc
    exact alikeOutcome_progMultiWrite hlen hlive hlt h
  case rmCount =>
    exact alikeOutcome_rxByte hlen hlive fun n _ => alikeOutcome_goTo (l := { l with cnt := n }) hlen ⟨h, rfl⟩
  case rmEoc => exact alikeOutcome_readMultiEoc hlen hlive h
  case rmRead =>
    obtain ⟨hcur, hcnt, hidx⟩ := h
    exact alikeOutcome_memRead hlen hlive hcur fun b =>
      alikeOutcome_goTo (l := { l with cur := l.cur + 1, idx := l.idx + 1, data := b }) hlen
        ⟨congrArg (· + 1) hcur, hcnt, congrArg (· + 1) hidx, rfl⟩
  case rmSend => exact alikeOutcome_readMultiSend hlen hlive h
  case rbSet => exact alikeOutcome_goTo hlen h

end

/-! ### The environment and whole runs -/

/-- A reset overwrites every register it loses, so two states that differ in them become equal. -/
theorem takeReset_withLost (kind : ResetKind) (s : State) (l : Lost) :
    takeReset kind (s.withLost l) = takeReset kind s := rfl

theorem Alike.afterEnv (a : EnvAction) {s s' : State} (h : Alike s s') : Alike (applyEnv a s) (applyEnv a s') := by
  obtain ⟨l, rfl, hlen, hlive⟩ := h
  cases a with
  | reset kind =>
    unfold applyEnv
    dsimp only
    split
    · exact ⟨l, if_pos ‹_›, hlen, hlive⟩
    · rw [if_neg (by exact ‹_›), takeReset_withLost]
      exact .refl _
  | _ => exact ⟨l, rfl, hlen, hlive⟩

theorem blockState_withLost {s u : State} (l : Lost) (h : s.blockState = some u) :
    (s.withLost l).blockState = some (u.withLost l) := by
  unfold State.blockState at h ⊢
  rw [State.withLost_env]
  split at h <;> cases h <;> rfl

theorem Alike.turn {s s' u : State} (h : Alike s s') (hb : s.blockState = some u) :
    ∃ u', s'.blockState = some u' ∧ Alike u u' := by
  obtain ⟨l, rfl, hlen, hlive⟩ := h
  refine ⟨_, blockState_withLost l hb, l, rfl, ?_⟩
  rw [blockState_spec hb]
  exact ⟨hlen, hlive⟩

/-- Alike states have alike next states. -/
theorem Alike.next {s s' t : State} (hi : s.Inv) (h : Alike s s') (ht : step s = .next t) :
    ∃ t', step s' = .next t' ∧ Alike t t' := by
  have hparams : s'.params = s.params := by obtain ⟨l, rfl, -⟩ := h; rfl
  rcases step_cases ht with ⟨a, rest, he, ha, rfl⟩ | ⟨u, hb, hw, hu⟩
  · obtain ⟨l, rfl, hlen, hlive⟩ := h
    exact ⟨_, step_env (by exact he) ha, Alike.afterEnv a ⟨l, rfl, hlen, hlive⟩⟩
  · obtain ⟨u', hb', l, rfl, hlen, hlive⟩ := h.turn hb
    rw [step_of_blockState (hparams ▸ hw) hb']
    exact alikeOutcome_blockStep hlen hlive (hi.of_blockState hb) t hu

/-- Alike states have alike runs. -/
theorem Alike.reaches {n : Nat} {s s' t : State} (hi : s.Inv) (h : Alike s s') (hr : Reaches n s t) :
    ∃ t', Reaches n s' t' ∧ Alike t t' := by
  induction n generalizing s s' with
  | zero =>
    obtain rfl : t = s := hr
    exact ⟨s', rfl, h⟩
  | succ n ih =>
    obtain ⟨u, hu, hr⟩ := hr
    obtain ⟨u', hu', hau⟩ := h.next hi hu
    obtain ⟨t', hr', hat⟩ := ih (step_inv hi hu) hau hr
    exact ⟨t', ⟨u', hu', hr'⟩, hat⟩

/-! ### The obligation -/

/-- Settles O22: the two starts are alike, and alike states have alike runs. -/
theorem lostRegistersNeverObserved : Obligations.LostRegistersNeverObserved := by
  intro s s' hi hi' hs hstart n t hr
  have hparams : s'.params = s.params := by rw [hs]
  have hlive : s.lost.AgreeAt s.cs s'.lost := by
    rcases hstart with ⟨hc, hcur⟩ | hc <;> rw [hc]
    · exact hcur
    · trivial
  have halike : Alike s s' := ⟨s'.lost, hs, by simp only [State.lost]; rw [hi'.buf, hi.buf, hparams], hlive⟩
  obtain ⟨t', hr', l, rfl, -⟩ := halike.reaches hi hr
  exact ⟨_, hr', rfl, rfl, rfl⟩

end Sys2Proof.Machine
end

section
/-! Flash contents and the steps that access them (spec/20_memory.md R70 to R86). -/

namespace Sys2Proof.Machine

/-! ### Flash contents -/

theorem Memory.wf_tail {c : Host.Cell} {m : Memory} (h : Memory.wf (c :: m)) : Memory.wf m := by
  obtain ⟨-, -, -, hm⟩ := Memory.wf_cons.1 h
  exact hm

theorem Memory.read_head (c : Host.Cell) (m : Memory) : Memory.read (c :: m) c.1 = c.2 := if_pos rfl

theorem Memory.read_below {c : Host.Cell} {m : Memory} (h : Memory.wf (c :: m)) {a : Nat} (ha : a < c.1) :
    Memory.read (c :: m) a = Memory.blank := by
  obtain ⟨hlt, -⟩ := Memory.wf_cons.1 h
  exact Memory.read_of_lt (List.forall_mem_cons.2 ⟨ha, fun d hd => ha.trans (hlt d hd)⟩)

/-- The head address of canonical contents is the least one that does not read as blank, so contents that read alike do
not begin below each other. -/
theorem Memory.head_not_lt {c d : Host.Cell} {m q : Memory} (hm : Memory.wf (c :: m)) (hq : Memory.wf (d :: q))
    (h : ∀ a < 65536, Memory.read (c :: m) a = Memory.read (d :: q) a) : ¬ c.1 < d.1 := by
  obtain ⟨-, hc, hne, -⟩ := Memory.wf_cons.1 hm
  intro hlt
  exact hne (by rw [← Memory.read_head c m, h c.1 hc, Memory.read_below hq hlt])

theorem Memory.cons_not_blank {c : Host.Cell} {m : Memory} (hm : Memory.wf (c :: m)) :
    ¬ ∀ a < 65536, Memory.read (c :: m) a = Memory.blank := by
  obtain ⟨-, hc, hne, -⟩ := Memory.wf_cons.1 hm
  exact fun h => hne ((Memory.read_head c m).symm.trans (h c.1 hc))

/-- What the tail of canonical contents reads as: blank at the head's address, and elsewhere what the whole does. -/
theorem Memory.read_tail {c : Host.Cell} {m : Memory} (h : Memory.wf (c :: m)) (a : Nat) :
    Memory.read m a = if a = c.1 then Memory.blank else Memory.read (c :: m) a := by
  obtain ⟨hlt, -⟩ := Memory.wf_cons.1 h
  split
  · next ha => exact Memory.read_of_lt fun d hd => ha ▸ hlt d hd
  · next ha => exact (if_neg ha).symm

/-- Canonical contents are determined by what they read as (spec/20_memory.md R70). -/
theorem Memory.ext_read {m q : Memory} (hm : Memory.wf m) (hq : Memory.wf q)
    (h : ∀ a < 65536, Memory.read m a = Memory.read q a) : m = q := by
  induction m generalizing q with
  | nil =>
    cases q with
    | nil => rfl
    | cons d q => exact absurd (fun a ha => (h a ha).symm) (Memory.cons_not_blank hq)
  | cons c m ih =>
    cases q with
    | nil => exact absurd h (Memory.cons_not_blank hm)
    | cons d q =>
      have haddr : c.1 = d.1 := le_antisymm (not_lt.1 (Memory.head_not_lt hq hm fun a ha => (h a ha).symm))
        (not_lt.1 (Memory.head_not_lt hm hq h))
      obtain ⟨-, hc, -⟩ := Memory.wf_cons.1 hm
      have hbyte : c.2 = d.2 := by rw [← Memory.read_head c m, h c.1 hc, haddr, Memory.read_head]
      have htail : m = q := ih (Memory.wf_tail hm) (Memory.wf_tail hq) fun a ha => by
        rw [Memory.read_tail hm, Memory.read_tail hq, haddr, h a ha]
      rw [Prod.ext haddr hbyte, htail]

/-- What an address reads as after one byte is programmed (spec/20_memory.md R73). -/
theorem Memory.read_program (p : Params) {m : Memory} (hm : m.wf) (a : Addr) (v : Byte) (x : Nat) :
    Memory.read (m.write a.toNat (Params.flashProgram p a (m.read a.toNat) v)) x =
      if x = a.toNat then Params.flashProgram p a (m.read x) v else m.read x := by
  rw [Memory.read_write hm]
  split
  · next hx => rw [hx]
  · rfl

/-! ### The steps of the commands that access flash -/

section
variable {s : State} {b : Byte} {rest : List Byte}

theorem exec_ceErase (hc : s.cs = .ceErase) (hf : s.flashReady = true) :
    exec .chipErase s = .next { s with
      cs := .ackInsync, flash := s.flash.fill s.params.appRegion s.params.erasedByte
      trace := s.trace ++ [.flashErase .app] } := by
  simp only [exec, execChipErase, hc]
  exact flashErase_next.2 (.inr ⟨hf, rfl⟩)

theorem exec_peErase (hc : s.cs = .peErase) (hf : s.flashReady = true) :
    exec .paramErase s = .next { s with
      cs := .ackInsync, flash := s.flash.fill s.params.paramRegion s.params.erasedByte
      trace := s.trace ++ [.flashErase .param] } := by
  simp only [exec, execParamErase, hc]
  exact flashErase_next.2 (.inr ⟨hf, rfl⟩)

theorem exec_pfData (hc : s.cs = .pfData) (hx : s.rx = b :: rest) :
    exec .progFlash s = .next { s with cs := .pfEoc, data := b, rx := rest, trace := s.trace ++ [.rx b] } := by
  simp only [exec, execProgFlash, hc]
  exact rxByte_next.2 (.inr ⟨b, rest, hx, rfl⟩)

theorem exec_pfEoc (hc : s.cs = .pfEoc) (hx : s.rx = s.params.eoc :: rest) :
    exec .progFlash s = .next { s with cs := .pfWrite, rx := rest, trace := s.trace ++ [.rx s.params.eoc] } := by
  simp only [exec, execProgFlash, hc]
  exact takeEoc_next.2 (.inr ⟨_, rest, hx, .inl ⟨rfl, rfl⟩⟩)

theorem exec_pfWrite (hc : s.cs = .pfWrite) (hf : s.flashReady = true) :
    exec .progFlash s = .next { s with
      cs := .ackInsync, cur := s.cur + 1
      flash := s.flash.write s.cur.toNat (Params.flashProgram s.params s.cur (s.flash.read s.cur.toNat) s.data)
      trace := s.trace ++ [.memWrite s.cur s.data] } := by
  simp only [exec, execProgFlash, hc]
  exact memWrite_next.2 (.inr ⟨hf, rfl⟩)

theorem exec_rfRead (hc : s.cs = .rfRead) (hf : s.flashReady = true) :
    exec .readFlash s = .next { s with
      cs := .rfSend, data := s.flash.read s.cur.toNat, cur := s.cur + 1
      trace := s.trace ++ [.memRead s.cur (s.flash.read s.cur.toNat)] } := by
  simp only [exec, execReadFlash, hc]
  exact memRead_next.2 (.inr ⟨hf, rfl⟩)

theorem exec_rfSend (hc : s.cs = .rfSend) (htx : s.txReady = true) :
    exec .readFlash s = .next { s with cs := .ackInsync, trace := s.trace ++ [.tx s.data] } := by
  simp only [exec, execReadFlash, hc]
  exact txByte_next.2 (.inr ⟨htx, rfl⟩)

theorem exec_pmCount (hc : s.cs = .pmCount) (hx : s.rx = b :: rest) :
    exec .progMulti s = .next (if s.params.cap < b.toNat then { s with
        cs := .idle, cnt := b, idx := 0, rx := rest, trace := s.trace ++ [.rx b, .abort .oversize] }
      else { s with
        cs := if b = 0 then .pmEoc else .pmData
        cnt := b, idx := 0, rx := rest, trace := s.trace ++ [.rx b] }) := by
  simp only [exec, execProgMulti, hc]
  refine progMultiCount_next.2 (.inr ⟨b, rest, hx, ?_⟩)
  split
  · next ho => exact .inl ⟨ho, by simp⟩
  · next ho => exact .inr ⟨ho, rfl⟩

theorem exec_pmData (hc : s.cs = .pmData) (hx : s.rx = b :: rest) (hi : s.idx.toNat < s.buf.length) :
    exec .progMulti s = .next { s with
      cs := if s.idx + 1 = s.cnt then .pmEoc else .pmData
      buf := s.buf.set s.idx.toNat b, idx := s.idx + 1, rx := rest, trace := s.trace ++ [.rx b] } := by
  simp only [exec, execProgMulti, hc]
  exact progMultiData_next.2 (.inr ⟨b, rest, hx, hi, rfl⟩)

theorem exec_pmEoc (hc : s.cs = .pmEoc) (hx : s.rx = s.params.eoc :: rest) :
    exec .progMulti s = .next { s with
      cs := if s.cnt = 0 then .ackInsync else .pmWrite
      idx := 0, rx := rest, trace := s.trace ++ [.rx s.params.eoc] } := by
  simp only [exec, execProgMulti, hc]
  exact progMultiEoc_next.2 (.inr ⟨_, rest, hx, .inl ⟨rfl, rfl⟩⟩)

theorem exec_pmWrite (hc : s.cs = .pmWrite) (hf : s.flashReady = true) (hb : s.buf[s.idx.toNat]? = some b) :
    exec .progMulti s = .next { s with
      cs := if s.idx + 1 = s.cnt then .ackInsync else .pmWrite
      cur := s.cur + 1, idx := s.idx + 1
      flash := s.flash.write s.cur.toNat (Params.flashProgram s.params s.cur (s.flash.read s.cur.toNat) b)
      trace := s.trace ++ [.memWrite s.cur b] } := by
  simp only [exec, execProgMulti, hc]
  exact progMultiWrite_next.2 ⟨b, hb, .inr ⟨hf, rfl⟩⟩

theorem exec_rmCount (hc : s.cs = .rmCount) (hx : s.rx = b :: rest) :
    exec .readMulti s = .next { s with cs := .rmEoc, cnt := b, rx := rest, trace := s.trace ++ [.rx b] } := by
  simp only [exec, execReadMulti, hc]
  exact rxByte_next.2 (.inr ⟨b, rest, hx, rfl⟩)

theorem exec_rmEoc (hc : s.cs = .rmEoc) (hx : s.rx = s.params.eoc :: rest) :
    exec .readMulti s = .next { s with
      cs := if s.cnt = 0 then .ackInsync else .rmRead
      idx := 0, rx := rest, trace := s.trace ++ [.rx s.params.eoc] } := by
  simp only [exec, execReadMulti, hc]
  exact readMultiEoc_next.2 (.inr ⟨_, rest, hx, .inl ⟨rfl, rfl⟩⟩)

theorem exec_rmRead (hc : s.cs = .rmRead) (hf : s.flashReady = true) :
    exec .readMulti s = .next { s with
      cs := .rmSend, data := s.flash.read s.cur.toNat, cur := s.cur + 1, idx := s.idx + 1
      trace := s.trace ++ [.memRead s.cur (s.flash.read s.cur.toNat)] } := by
  simp only [exec, execReadMulti, hc]
  exact memRead_next.2 (.inr ⟨hf, rfl⟩)

theorem exec_rmSend (hc : s.cs = .rmSend) (htx : s.txReady = true) :
    exec .readMulti s = .next { s with
      cs := if s.idx = s.cnt then .ackInsync else .rmRead
      trace := s.trace ++ [.tx s.data] } := by
  simp only [exec, execReadMulti, hc]
  exact txByte_next.2 (.inr ⟨htx, by simp [State.allSent, State.emit, State.goto]⟩)

end

/-! ### The obligations -/

/-- Settles O32: the erase step fills the command's region. -/
theorem eraseSteps : Obligations.EraseSteps := by
  intro s hf i c r region hm hc
  simp only [List.mem_cons, List.not_mem_nil, or_false, Prod.mk.injEq] at hm
  rcases hm with ⟨rfl, rfl, rfl, rfl⟩ | ⟨rfl, rfl, rfl, rfl⟩
  · exact ⟨_, exec_ceErase hc hf, rfl, fun _ => Memory.read_fill _ _ _⟩
  · exact ⟨_, exec_peErase hc hf, rfl, fun _ => Memory.read_fill _ _ _⟩

/-- Settles O53: a program request is one write, of what `FLASH_PROGRAM` gives. -/
theorem programThenRead : Obligations.ProgramThenRead := fun s a v hf =>
  ⟨Memory.read_program s.params hf a v, State.programByte_wf a v hf⟩

/-- Settles O54: two canonical contents that read alike have the same head, and their tails read alike. -/
theorem canonicalFlashExt : Obligations.CanonicalFlashExt := fun _ _ => Memory.ext_read

/-- Settles O34, step by step. -/
theorem progFlashSteps : Obligations.ProgFlashSteps := fun _ =>
  ⟨fun _ _ => exec_pfData, fun _ => exec_pfEoc, exec_pfWrite⟩

/-- Settles O35, step by step. -/
theorem readFlashSteps : Obligations.ReadFlashSteps := fun _ => ⟨exec_rfRead, exec_rfSend⟩

/-- Settles O36, step by step; `PM_COUNT` alone decides on `CAP`. -/
theorem progMultiSteps : Obligations.ProgMultiSteps := fun _ =>
  ⟨fun _ _ => exec_pmCount, fun _ _ => exec_pmData, fun _ => exec_pmEoc, fun _ => exec_pmWrite⟩

/-- Settles O37, step by step. -/
theorem readMultiSteps : Obligations.ReadMultiSteps := fun _ =>
  ⟨fun _ _ => exec_rmCount, fun _ => exec_rmEoc, exec_rmRead, exec_rmSend⟩

end Sys2Proof.Machine
end

section
/-! A whole well-formed frame, command by command (spec/20_memory.md R79 to R86, spec/41_framing_dispatch.md R160). -/

namespace Sys2Proof.Machine

/-! ### Runs of the block -/

/-- `n` steps of the block lead from `s` to `t`, whatever the environment holds. -/
def BlockReaches : Nat → State → State → Prop
  | 0, s, t => t = s
  | n + 1, s, t => ∃ u, blockStep s = .next u ∧ BlockReaches n u t

theorem BlockReaches.step {n : Nat} {s u t : State} (h : blockStep s = .next u) (hr : BlockReaches n u t) :
    BlockReaches (n + 1) s t := ⟨u, h, hr⟩

theorem BlockReaches.refl (s : State) : BlockReaches 0 s s := rfl

/-- A step of the command that owns the command state, and then the rest of the run. -/
theorem BlockReaches.owned {n : Nat} {i : Instr} {s u t : State} (h : exec i s = .next u) (ho : s.cs.owner = some i)
    (hr : BlockReaches n u t) : BlockReaches (n + 1) s t :=
  .step ((blockStep_of_owner ho).trans h) hr

theorem BlockReaches.trans {n m : Nat} {s u t : State} (h : BlockReaches n s u) (h' : BlockReaches m u t) :
    BlockReaches (m + n) s t := by
  induction n generalizing s with
  | zero => cases h; exact h'
  | succ n ih =>
    obtain ⟨v, hv, hr⟩ := h
    exact .step hv (ih hr)

theorem blockStep_env {u t : State} (h : blockStep u = .next t) : t.env = u.env := by
  rcases blockStep_next h with rfl | hrow | ⟨_, _, -, -, -, rfl⟩ | ⟨_, -, -, -, rfl⟩ | ⟨-, -, rfl⟩
  · rfl
  · obtain ⟨-, -, -, henv, -⟩ := hrow.ports_eq
    exact henv
  all_goals rfl

/-- With nothing pending from the environment the machine's steps are the block's. -/
theorem BlockReaches.reaches {n : Nat} {s t : State} (h : BlockReaches n s t) (hw : s.params.wf = true)
    (he : s.env = []) : Reaches n s t := by
  induction n generalizing s with
  | zero => exact h
  | succ n ih =>
    obtain ⟨u, hu, hr⟩ := h
    exact reaches_succ.2 ⟨u, (step_of_env_nil hw he).trans hu,
      ih hr (by rw [blockStep_params hu, hw]) (by rw [blockStep_env hu, he])⟩

/-! ### The steps that frames share -/

theorem blockStep_dispatch (i : Instr) {s : State} {rest : List Byte} (hw : s.params.wf = true) (hc : s.cs = .idle)
    (hx : s.rx = s.params.opcode i :: rest) :
    blockStep s = .next { s with
      cs := entryOf i, op := s.params.opcode i, rx := rest, trace := s.trace ++ [.rx (s.params.opcode i)] } := by
  simp only [blockStep, blockTurn, hc, intake, hx, Params.classify_opcode hw, Turn.outcome]
  exact exec_idle i (by exact hc)

/-- A good terminator leads from the pre-check to the command's handler (spec/41_framing_dispatch.md R152). -/
theorem exec_preEoc_good {i : Instr} {c : CommandState} {s : State} {rest : List Byte} (hc : s.cs = .preEoc)
    (hx : s.rx = s.params.eoc :: rest)
    (hm : (i, c) ∈ [(Instr.getSync, CommandState.ackInsync), (.getDevice, .gdId), (.chipErase, .ceErase),
      (.paramErase, .peErase), (.readFlash, .rfRead)]) :
    exec i s = .next { s with cs := c, rx := rest, trace := s.trace ++ [.rx s.params.eoc] } := by
  have hpre : preEoc c s = .next { s with cs := c, rx := rest, trace := s.trace ++ [.rx s.params.eoc] } :=
    preEoc_next.2 (.inr ⟨_, rest, hx, .inl ⟨rfl, rfl⟩⟩)
  simp only [List.mem_cons, List.not_mem_nil, or_false, Prod.mk.injEq] at hm
  rcases hm with ⟨rfl, rfl⟩ | ⟨rfl, rfl⟩ | ⟨rfl, rfl⟩ | ⟨rfl, rfl⟩ | ⟨rfl, rfl⟩ <;>
    simpa only [exec, execGetSync, execGetDevice, execChipErase, execParamErase, execReadFlash, hc] using hpre

/-- The two bytes of a frame without arguments lead from `IDLE` to its handler. -/
theorem zeroArg_reaches {i : Instr} {c : CommandState} {s : State} {rest : List Byte} (hw : s.params.wf = true)
    (hc : s.cs = .idle) (hx : s.rx = s.params.opcode i :: s.params.eoc :: rest) (hentry : entryOf i = .preEoc)
    (hm : (i, c) ∈ [(Instr.getSync, CommandState.ackInsync), (.getDevice, .gdId), (.chipErase, .ceErase),
      (.paramErase, .peErase), (.readFlash, .rfRead)]) :
    BlockReaches 2 s { s with
      cs := c, op := s.params.opcode i, rx := rest
      trace := s.trace ++ [.rx (s.params.opcode i)] ++ [.rx s.params.eoc] } := by
  refine .step (blockStep_dispatch i hw hc hx) (.step ?_ (.refl _))
  simp only [blockStep, blockTurn, hentry, precheck, Params.classify_opcode hw, Turn.outcome]
  exact exec_preEoc_good rfl rfl hm

theorem ack_reaches {s : State} (hc : s.cs = .ackInsync) (htx : s.txReady = true) :
    BlockReaches 2 s { s with
      cs := .idle, trace := s.trace ++ [.tx s.params.inSync] ++ [.tx s.params.okByte] } := by
  refine .step (u := { s with cs := .ackOk, trace := s.trace ++ [.tx s.params.inSync] }) ?_ (.step ?_ (.refl _))
  · simp only [blockStep, blockTurn, hc]
    exact ackInsync_next.2 (.inr ⟨htx, rfl⟩)
  · exact ackOk_next.2 (.inr ⟨htx, rfl⟩)

/-! ### The handlers that take a number of steps -/

theorem addr_add_succ (a : Addr) (n : Nat) : a + BitVec.ofNat 16 (n + 1) = a + 1 + BitVec.ofNat 16 n := by
  rw [BitVec.add_assoc, Nat.add_comm, BitVec.ofNat_add]
  rfl

/-- An index `k + 1` below a count is not the count, and the next index, which does not wrap, is `k` below it. -/
theorem idx_succ_of_below {i n : Byte} {k : Nat} (h : n.toNat = i.toNat + (k + 1)) :
    i ≠ n ∧ (i + 1).toNat = i.toNat + 1 ∧ n.toNat = (i + 1).toNat + k := by
  have hlt := n.isLt
  bv_omega

/-- `PM_DATA` stages the bytes `vs` behind those it has staged, `done`. -/
theorem progMulti_stages {vs done free rest : List Byte} {s : State}
    (hc : s.cs = if s.idx = s.cnt then .pmEoc else .pmData) (hx : s.rx = vs ++ rest) (hbuf : s.buf = done ++ free)
    (hidx : s.idx.toNat = done.length) (hcnt : s.cnt.toNat = s.idx.toNat + vs.length)
    (hfit : vs.length ≤ free.length) :
    BlockReaches vs.length s { s with
      cs := .pmEoc, buf := done ++ vs ++ free.drop vs.length, idx := s.cnt, rx := rest
      trace := s.trace ++ vs.map .rx } := by
  induction vs generalizing done free s with
  | nil =>
    have he : s.idx = s.cnt := BitVec.eq_of_toNat_eq hcnt.symm
    rw [if_pos he] at hc
    cases s
    simp_all [BlockReaches]
  | cons v vs ih =>
    cases free with
    | nil => simp at hfit
    | cons w free =>
      obtain ⟨hne, hnext, hleft⟩ := idx_succ_of_below hcnt
      rw [if_neg hne] at hc
      have hset : s.buf.set s.idx.toNat v = done ++ [v] ++ free := by simp [hbuf, hidx]
      have hstep := exec_pmData hc hx (by simp [hbuf, hidx])
      have hrest := ih (done := done ++ [v]) (free := free) (s := { s with
        cs := if s.idx + 1 = s.cnt then .pmEoc else .pmData
        buf := s.buf.set s.idx.toNat v, idx := s.idx + 1, rx := vs ++ rest, trace := s.trace ++ [.rx v] })
        rfl rfl hset (hnext.trans (by simp [hidx])) hleft (by simpa using hfit)
      simp only [List.append_assoc, List.cons_append, List.nil_append] at hrest ⊢
      exact .owned hstep (by rw [hc]; rfl) hrest

/-- The bytes of a `PROG_MULTI` frame lead from `IDLE` to the commit phase, with the payload staged. -/
theorem progMulti_receives {count : Byte} {payload rest : List Byte} {s : State} (hw : s.params.wf = true)
    (hc : s.cs = .idle) (hx : s.rx = s.params.opcode .progMulti :: count :: (payload ++ s.params.eoc :: rest))
    (hlen : payload.length = count.toNat) (hcap : count.toNat ≤ s.params.cap) (hbuf : s.buf.length = s.params.cap) :
    BlockReaches (payload.length + 3) s { s with
      cs := if count = 0 then .ackInsync else .pmWrite
      buf := payload ++ s.buf.drop payload.length, cnt := count, idx := 0, op := s.params.opcode .progMulti, rx := rest
      trace :=
        s.trace ++ [.rx (s.params.opcode .progMulti)] ++ [.rx count] ++ payload.map .rx ++ [.rx s.params.eoc] } := by
  have hdispatch := blockStep_dispatch .progMulti hw hc hx
  have hcount := exec_pmCount (s := { s with
    cs := .pmCount, op := s.params.opcode .progMulti, rx := count :: (payload ++ s.params.eoc :: rest)
    trace := s.trace ++ [.rx (s.params.opcode .progMulti)] }) rfl rfl
  rw [if_neg (not_lt.2 hcap)] at hcount
  have hstage := progMulti_stages (vs := payload) (done := []) (free := s.buf) (rest := s.params.eoc :: rest)
    (s := { s with
      cs := if count = 0 then .pmEoc else .pmData
      cnt := count, idx := 0, op := s.params.opcode .progMulti, rx := payload ++ s.params.eoc :: rest
      trace := s.trace ++ [.rx (s.params.opcode .progMulti)] ++ [.rx count] })
    (by simp only [eq_comm (a := count)]) rfl rfl rfl (by simp [hlen]) (by omega)
  have heoc := hstage.trans (.owned (exec_pmEoc rfl rfl) rfl (.refl _))
  rw [Nat.add_comm] at heoc
  exact .step hdispatch (.owned hcount rfl heoc)

/-- `PM_WRITE` programs the staged bytes `vs` that stand in the buffer from the index on. -/
theorem progMulti_commits {vs done free : List Byte} {s : State}
    (hc : s.cs = if s.idx = s.cnt then .ackInsync else .pmWrite) (hf : s.flashReady = true)
    (hbuf : s.buf = done ++ vs ++ free) (hidx : s.idx.toNat = done.length)
    (hcnt : s.cnt.toNat = s.idx.toNat + vs.length) :
    BlockReaches vs.length s { s with
      cs := .ackInsync, cur := s.cur + BitVec.ofNat 16 vs.length, idx := s.cnt
      flash := programAll s.params s.flash s.cur vs, trace := s.trace ++ programEvents s.cur vs } := by
  induction vs generalizing done s with
  | nil =>
    have he : s.idx = s.cnt := BitVec.eq_of_toNat_eq hcnt.symm
    rw [if_pos he] at hc
    cases s
    simp_all [BlockReaches, programAll]
  | cons v vs ih =>
    obtain ⟨hne, hnext, hleft⟩ := idx_succ_of_below hcnt
    rw [if_neg hne] at hc
    have hstep := exec_pmWrite hc hf (b := v) (by simp [hbuf, hidx])
    have hrest := ih (done := done ++ [v]) (s := { s with
      cs := if s.idx + 1 = s.cnt then .ackInsync else .pmWrite
      cur := s.cur + 1, idx := s.idx + 1
      flash := s.flash.write s.cur.toNat (Params.flashProgram s.params s.cur (s.flash.read s.cur.toNat) v)
      trace := s.trace ++ [.memWrite s.cur v] }) rfl hf (by simp [hbuf]) (hnext.trans (by simp [hidx])) hleft
    rw [List.length_cons, addr_add_succ]
    simp only [List.append_assoc, List.cons_append, List.nil_append] at hrest
    exact .owned hstep (by rw [hc]; rfl) hrest

theorem readMulti_transfers_one {s : State} (hc : s.cs = .rmRead) (hf : s.flashReady = true) (htx : s.txReady = true) :
    BlockReaches 2 s { s with
      cs := if s.idx + 1 = s.cnt then .ackInsync else .rmRead
      cur := s.cur + 1, idx := s.idx + 1, data := s.flash.read s.cur.toNat
      trace := s.trace ++ [.memRead s.cur (s.flash.read s.cur.toNat)] ++ [.tx (s.flash.read s.cur.toNat)] } :=
  .owned (exec_rmRead hc hf) (by rw [hc]; rfl) (.owned (exec_rmSend rfl htx) rfl (.refl _))

/-- `RM_READ` and `RM_SEND` read and send `n` bytes; what is left in `DATA` is not said. -/
theorem readMulti_transfers {n : Nat} {s : State} (hc : s.cs = if s.idx = s.cnt then .ackInsync else .rmRead)
    (hf : s.flashReady = true) (htx : s.txReady = true) (hcnt : s.cnt.toNat = s.idx.toNat + n) :
    ∃ d, BlockReaches (2 * n) s { s with
      cs := .ackInsync, cur := s.cur + BitVec.ofNat 16 n, idx := s.cnt, data := d
      trace := s.trace ++ readEvents s.flash s.cur n } := by
  induction n generalizing s with
  | zero =>
    have he : s.idx = s.cnt := BitVec.eq_of_toNat_eq hcnt.symm
    rw [if_pos he] at hc
    refine ⟨s.data, ?_⟩
    cases s
    simp_all [BlockReaches]
  | succ n ih =>
    obtain ⟨hne, -, hleft⟩ := idx_succ_of_below hcnt
    rw [if_neg hne] at hc
    obtain ⟨d, hrest⟩ := ih (s := { s with
      cs := if s.idx + 1 = s.cnt then .ackInsync else .rmRead
      cur := s.cur + 1, idx := s.idx + 1, data := s.flash.read s.cur.toNat
      trace := s.trace ++ [.memRead s.cur (s.flash.read s.cur.toNat)] ++ [.tx (s.flash.read s.cur.toNat)] })
      rfl hf htx hleft
    have hrun := (readMulti_transfers_one hc hf htx).trans hrest
    rw [addr_add_succ]
    simp only [List.append_assoc, List.cons_append, List.nil_append] at hrun
    exact ⟨d, hrun⟩

/-! ### The handlers of a fixed number of steps -/

theorem exec_gdId {s : State} (hc : s.cs = .gdId) (htx : s.txReady = true) :
    exec .getDevice s = .next { s with cs := .gdFreq, trace := s.trace ++ [.tx s.params.boardId] } := by
  simp only [exec, execGetDevice, hc]
  exact txByte_next.2 (.inr ⟨htx, rfl⟩)

theorem exec_gdFreq {s : State} (hc : s.cs = .gdFreq) (htx : s.txReady = true) :
    exec .getDevice s = .next { s with cs := .ackInsync, trace := s.trace ++ [.tx s.params.boardFreq] } := by
  simp only [exec, execGetDevice, hc]
  exact txByte_next.2 (.inr ⟨htx, rfl⟩)

theorem exec_laLo {s : State} {b : Byte} {rest : List Byte} (hc : s.cs = .laLo) (hx : s.rx = b :: rest) :
    exec .loadAddress s = .next { s with
      cs := .laHi, arg := setLowByte s.arg b, rx := rest, trace := s.trace ++ [.rx b] } := by
  simp only [exec, execLoadAddress, hc]
  exact rxByte_cons hx

theorem exec_laHi {s : State} {b : Byte} {rest : List Byte} (hc : s.cs = .laHi) (hx : s.rx = b :: rest) :
    exec .loadAddress s = .next { s with
      cs := .laEoc, arg := setHighByte s.arg b
      cur := if s.params.laEarlyCommit then setHighByte s.arg b else s.cur
      rx := rest, trace := s.trace ++ [.rx b] } := by
  simp only [exec, execLoadAddress, hc]
  exact rxByte_cons hx

theorem exec_laEoc {s : State} {rest : List Byte} (hc : s.cs = .laEoc) (hx : s.rx = s.params.eoc :: rest) :
    exec .loadAddress s = .next { s with
      cs := .ackInsync, cur := s.arg, rx := rest, trace := s.trace ++ [.rx s.params.eoc] } := by
  simp only [exec, execLoadAddress, hc]
  exact takeEoc_next.2 (.inr ⟨_, rest, hx, .inl ⟨rfl, rfl⟩⟩)

/-- The two steps that load `ARG` assemble the address operand, whatever `ARG` held (spec/30_encoding.md R110). -/
theorem setHighByte_setLowByte (old : Addr) (lo hi : Byte) : setHighByte (setLowByte old lo) hi = assemble lo hi := by
  rw [setHighByte, setLowByte_low, assemble, BitVec.or_comm, BitVec.append_def, BitVec.shiftLeftZeroExtend_eq]
  rfl

/-! ### Each command's frame -/

/-- The state after a frame, but for the registers that the command uses on the way. -/
def State.afterFrame (s : State) (f : Frame) (rest : List Byte) : State :=
  { s with
    cs := if f.instr = .reboot then .resetPending else .idle
    cur := s.cursorAfter f
    flash := s.flashAfter f
    rc := if f.instr = .reboot then { s.rc with swReset := true } else s.rc
    resetRequest := if f.instr = .reboot then true else s.resetRequest
    rx := rest
    trace := s.trace ++ s.frameEvents f }

/-- The block runs the frame `f` from `s` and ends as `State.afterFrame` says, whatever is left in the other registers. -/
def FrameRuns (s : State) (f : Frame) (rest : List Byte) : Prop :=
  ∃ l : Lost, l.cur = s.cursorAfter f ∧ BlockReaches (frameSteps f) s ((s.afterFrame f rest).withLost l)

/-- A frame sends its response (spec/30_encoding.md R113). -/
theorem State.afterFrame_sent (s : State) (f : Frame) (rest : List Byte) :
    (s.afterFrame f rest).sent = s.sent ++ s.response f := by
  simp only [State.sent, State.afterFrame, List.filterMap_append, State.frameEvents_sent]

/-- A run is that of the frame when it ends as `State.afterFrame` says but for the observation, and the observation is
that of the frame: for all but `PROG_MULTI` the transactions written out in order. -/
theorem FrameRuns.of_reaches {n : Nat} {s t : State} {f : Frame} {rest : List Byte} (h : BlockReaches n s t)
    (hn : n = frameSteps f) (hcur : t.cur = s.cursorAfter f)
    (ht : t = { (s.afterFrame f rest).withLost t.lost with trace := t.trace })
    (htrace : t.trace = s.trace ++ s.frameEvents f := by simp only [List.append_assoc]; rfl) : FrameRuns s f rest := by
  refine ⟨t.lost, hcur, ?_⟩
  rw [htrace] at ht
  rw [ht, hn] at h
  exact h

section
variable {s : State} {rest : List Byte} (hr : s.Ready) (hc : s.cs = .idle)
include hr hc

theorem getSync_frameRuns (hx : s.rx = encode s.params ⟨.getSync, []⟩ ++ rest) :
    FrameRuns s ⟨.getSync, []⟩ rest := by
  have hrecv := zeroArg_reaches hr.launched hc hx rfl (c := .ackInsync) (by simp)
  exact .of_reaches (hrecv.trans (ack_reaches rfl hr.tx)) rfl rfl rfl

theorem getDevice_frameRuns (hx : s.rx = encode s.params ⟨.getDevice, []⟩ ++ rest) :
    FrameRuns s ⟨.getDevice, []⟩ rest := by
  have hrecv := zeroArg_reaches hr.launched hc hx rfl (c := .gdId) (by simp)
  exact .of_reaches (hrecv.trans (.owned (exec_gdId rfl hr.tx) rfl
    (.owned (exec_gdFreq rfl hr.tx) rfl (ack_reaches rfl hr.tx)))) rfl rfl rfl

theorem chipErase_frameRuns (hx : s.rx = encode s.params ⟨.chipErase, []⟩ ++ rest) :
    FrameRuns s ⟨.chipErase, []⟩ rest := by
  have hrecv := zeroArg_reaches hr.launched hc hx rfl (c := .ceErase) (by simp)
  exact .of_reaches (hrecv.trans (.owned (exec_ceErase rfl hr.flash) rfl (ack_reaches rfl hr.tx))) rfl rfl rfl

theorem paramErase_frameRuns (hx : s.rx = encode s.params ⟨.paramErase, []⟩ ++ rest) :
    FrameRuns s ⟨.paramErase, []⟩ rest := by
  have hrecv := zeroArg_reaches hr.launched hc hx rfl (c := .peErase) (by simp)
  exact .of_reaches (hrecv.trans (.owned (exec_peErase rfl hr.flash) rfl (ack_reaches rfl hr.tx))) rfl rfl rfl

theorem readFlash_frameRuns (hx : s.rx = encode s.params ⟨.readFlash, []⟩ ++ rest) :
    FrameRuns s ⟨.readFlash, []⟩ rest := by
  have hrecv := zeroArg_reaches hr.launched hc hx rfl (c := .rfRead) (by simp)
  exact .of_reaches (hrecv.trans (.owned (exec_rfRead rfl hr.flash) rfl
    (.owned (exec_rfSend rfl hr.tx) rfl (ack_reaches rfl hr.tx)))) rfl rfl rfl

theorem loadAddress_frameRuns (lo hi : Byte) (hx : s.rx = encode s.params ⟨.loadAddress, [lo, hi]⟩ ++ rest) :
    FrameRuns s ⟨.loadAddress, [lo, hi]⟩ rest :=
  .of_reaches (.step (blockStep_dispatch .loadAddress hr.launched hc hx) (.owned (exec_laLo rfl rfl) rfl
      (.owned (exec_laHi rfl rfl) rfl (.owned (exec_laEoc rfl rfl) rfl (ack_reaches rfl hr.tx)))))
    rfl (setHighByte_setLowByte _ lo hi) rfl

theorem progFlash_frameRuns (v : Byte) (hx : s.rx = encode s.params ⟨.progFlash, [v]⟩ ++ rest) :
    FrameRuns s ⟨.progFlash, [v]⟩ rest :=
  .of_reaches (.step (blockStep_dispatch .progFlash hr.launched hc hx) (.owned (exec_pfData rfl rfl) rfl
      (.owned (exec_pfEoc rfl rfl) rfl (.owned (exec_pfWrite rfl hr.flash) rfl (ack_reaches rfl hr.tx)))))
    rfl rfl rfl

theorem reboot_frameRuns (hx : s.rx = encode s.params ⟨.reboot, []⟩ ++ rest) : FrameRuns s ⟨.reboot, []⟩ rest :=
  .of_reaches (.step (blockStep_dispatch .reboot hr.launched hc hx) (.owned (rebootStep _ rfl) rfl (.refl _)))
    rfl rfl rfl

theorem progMulti_frameRuns (count : Byte) (payload : List Byte) (hlen : payload.length = count.toNat)
    (hcap : count.toNat ≤ s.params.cap) (hbuf : s.buf.length = s.params.cap)
    (hx : s.rx = encode s.params ⟨.progMulti, count :: payload⟩ ++ rest) :
    FrameRuns s ⟨.progMulti, count :: payload⟩ rest := by
  have hx' : s.rx = s.params.opcode .progMulti :: count :: (payload ++ s.params.eoc :: rest) := by
    simpa [encode, Params.terminator, Format.regime, Instr.format] using hx
  have hrecv := progMulti_receives hr.launched hc hx' hlen hcap hbuf
  have hcommit := hrecv.trans
    (progMulti_commits (vs := payload) (done := []) (by simp only [eq_comm (a := count)]) hr.flash rfl rfl
      (by simp [hlen]))
  refine .of_reaches (hcommit.trans (ack_reaches rfl hr.tx)) ?_ (by rw [hlen]; rfl) rfl ?_
  · show 2 + (payload.length + (payload.length + 3)) = 2 * count.toNat + 5
    omega
  · simp [State.frameEvents, State.handlerEvents, encode, Params.terminator, Format.regime, Instr.format,
      Frame.payload, Params.ack]

theorem readMulti_frameRuns (count : Byte) (hx : s.rx = encode s.params ⟨.readMulti, [count]⟩ ++ rest) :
    FrameRuns s ⟨.readMulti, [count]⟩ rest := by
  obtain ⟨d, htransfer⟩ := readMulti_transfers (n := count.toNat) (s := { s with
    cs := if count = 0 then .ackInsync else .rmRead
    op := s.params.opcode .readMulti, cnt := count, idx := 0, rx := rest
    trace := s.trace ++ [.rx (s.params.opcode .readMulti)] ++ [.rx count] ++ [.rx s.params.eoc] })
    (by simp only [eq_comm (a := count)]) hr.flash hr.tx (by simp)
  refine .of_reaches (.step (blockStep_dispatch .readMulti hr.launched hc hx) (.owned (exec_rmCount rfl rfl) rfl
    (.owned (exec_rmEoc rfl rfl) rfl (htransfer.trans (ack_reaches rfl hr.tx))))) ?_ rfl rfl
  show 2 + 2 * count.toNat + 3 = 2 * count.toNat + 5
  omega

end

/-- The block runs every well-formed frame as its command's rule says. -/
theorem frameRuns {s : State} {f : Frame} {rest : List Byte} (hi : s.Inv) (hr : s.Ready) (hc : s.cs = .idle)
    (hf : f.wf s.params.cap = true) (hx : s.rx = encode s.params f ++ rest) : FrameRuns s f rest := by
  obtain ⟨i, args⟩ := f
  cases i <;> simp only [Frame.wf, Instr.format, Format.argsOk, List.isEmpty_iff, beq_iff_eq] at hf
  case getSync => subst hf; exact getSync_frameRuns hr hc hx
  case getDevice => subst hf; exact getDevice_frameRuns hr hc hx
  case chipErase => subst hf; exact chipErase_frameRuns hr hc hx
  case readFlash => subst hf; exact readFlash_frameRuns hr hc hx
  case paramErase => subst hf; exact paramErase_frameRuns hr hc hx
  case reboot => subst hf; exact reboot_frameRuns hr hc hx
  case loadAddress =>
    obtain ⟨lo, hi, rfl⟩ := List.length_eq_two.1 hf
    exact loadAddress_frameRuns hr hc lo hi hx
  case progFlash =>
    obtain ⟨v, rfl⟩ := List.length_eq_one_iff.1 hf
    exact progFlash_frameRuns hr hc v hx
  case readMulti =>
    obtain ⟨count, rfl⟩ := List.length_eq_one_iff.1 hf
    exact readMulti_frameRuns hr hc count hx
  case progMulti =>
    cases args with
    | nil => simp at hf
    | cons count payload =>
      simp only [Bool.and_eq_true, beq_iff_eq, decide_eq_true_eq] at hf
      obtain ⟨hlen, hcap⟩ := hf
      exact progMulti_frameRuns hr hc count payload hlen hcap hi.buf hx

/-- The machine runs every well-formed frame as its command's rule says: it ends as `State.afterFrame` says, but for the
registers that the command uses on the way. -/
theorem frame_reaches {s : State} {f : Frame} {rest : List Byte} (hi : s.Inv) (hr : s.Ready) (hc : s.cs = .idle)
    (hf : f.wf s.params.cap = true) (hx : s.rx = encode s.params f ++ rest) :
    ∃ l : Lost, l.cur = s.cursorAfter f ∧ Reaches (frameSteps f) s ((s.afterFrame f rest).withLost l) := by
  obtain ⟨l, hcur, hrun⟩ := frameRuns hi hr hc hf hx
  exact ⟨l, hcur, hrun.reaches hr.launched hr.env⟩

/-! ### Flash after a payload has been programmed -/

theorem programAll_read_of_ne {p : Params} {vs : List Byte} {m : Memory} {a : Addr} {x : Nat} (hm : m.wf)
    (hx : ∀ i < vs.length, x ≠ (a + BitVec.ofNat 16 i).toNat) : (programAll p m a vs).read x = m.read x := by
  induction vs generalizing m a with
  | nil => rfl
  | cons v vs ih =>
    have hhead : x ≠ a.toNat := by simpa using hx 0 (by simp)
    rw [programAll, ih (Memory.wf_write _ a.isLt hm), Memory.read_program p hm, if_neg hhead]
    intro i hi
    rw [← addr_add_succ]
    exact hx (i + 1) (by simpa using hi)

theorem addr_add_ne {a : Addr} {n : Nat} (hpos : 0 < n) (hlt : n < 65536) :
    (a + BitVec.ofNat 16 n).toNat ≠ a.toNat := by
  have ha := a.isLt
  rw [BitVec.toNat_add, BitVec.toNat_ofNat]
  omega

/-- Each byte is programmed over what its address held before; no more bytes than there are addresses, so no address
is programmed twice (spec/20_memory.md R79). -/
theorem programAll_read {p : Params} {vs : List Byte} {m : Memory} {a : Addr} {i : Nat} {v : Byte} (hm : m.wf)
    (hlen : vs.length ≤ 65536) (hv : vs[i]? = some v) :
    (programAll p m a vs).read (a + BitVec.ofNat 16 i).toNat =
      Params.flashProgram p (a + BitVec.ofNat 16 i) (m.read (a + BitVec.ofNat 16 i).toNat) v := by
  induction vs generalizing m a i with
  | nil => simp at hv
  | cons w vs ih =>
    rw [List.length_cons] at hlen
    have hm' := Memory.wf_write (Params.flashProgram p a (m.read a.toNat) w) a.isLt hm
    cases i with
    | zero =>
      obtain rfl : w = v := by simpa using hv
      have hlater : ∀ j < vs.length, a.toNat ≠ (a + 1 + BitVec.ofNat 16 j).toNat := fun j hj => by
        rw [← addr_add_succ]
        exact (addr_add_ne (Nat.succ_pos j) (by omega)).symm
      rw [BitVec.add_zero, programAll, programAll_read_of_ne hm' hlater, Memory.read_program p hm, if_pos rfl]
    | succ i =>
      have hv' : vs[i]? = some v := by simpa using hv
      obtain ⟨hi, -⟩ := List.getElem?_eq_some_iff.1 hv'
      have hne := addr_add_ne (a := a) (Nat.succ_pos i) (by omega)
      rw [addr_add_succ] at hne ⊢
      rw [programAll, ih hm' (by omega) hv', Memory.read_program p hm, if_neg hne]

/-! ### Flash accesses and sent bytes in one frame -/

/-- Among the events no flash access follows a sent byte (spec/20_memory.md R86). -/
def FlashBeforeTx (es : List Event) : Prop := es.Pairwise fun e e' => e.port = some .tx → e'.port ≠ some .flash

theorem flashBeforeTx_of_no_tx {es : List Event} (h : ∀ e ∈ es, e.port ≠ some .tx) : FlashBeforeTx es :=
  List.pairwise_of_forall_mem_list fun e he _ _ htx => absurd htx (h e he)

theorem FlashBeforeTx.append_of_no_tx {es es' : List Event} (h : ∀ e ∈ es, e.port ≠ some .tx)
    (h' : FlashBeforeTx es') : FlashBeforeTx (es ++ es') :=
  List.pairwise_append.2 ⟨flashBeforeTx_of_no_tx h, h', fun e he _ _ htx => absurd htx (h e he)⟩

theorem FlashBeforeTx.append_of_no_flash {es es' : List Event} (h : FlashBeforeTx es)
    (h' : ∀ e ∈ es', e.port ≠ some .flash) : FlashBeforeTx (es ++ es') :=
  List.pairwise_append.2 ⟨h, List.pairwise_of_forall_mem_list fun _ _ e he _ => h' e he, fun _ _ e he _ => h' e he⟩

theorem programEvents_port {a : Addr} {vs : List Byte} : ∀ e ∈ programEvents a vs, e.port = some .flash := by
  induction vs generalizing a with
  | nil => simp
  | cons v vs ih => exact List.forall_mem_cons.2 ⟨rfl, ih⟩

theorem rxEvents_port {bytes : List Byte} : ∀ e ∈ bytes.map Event.rx, e.port = some .rx := by
  simp [Event.port]

/-- One byte read and sent is a flash access and then a response byte; of two the second access comes after a response
byte. -/
theorem readEvents_flashBeforeTx (m : Memory) (a : Addr) {n : Nat} (h : n ≤ 1) : FlashBeforeTx (readEvents m a n) := by
  obtain rfl | rfl : n = 0 ∨ n = 1 := by omega
  · exact List.Pairwise.nil
  · simp [FlashBeforeTx, Event.port]

theorem handlerEvents_flashBeforeTx (s : State) {f : Frame} (h : f.instr = .readMulti → transferCount f ≤ 1) :
    FlashBeforeTx (s.handlerEvents f) := by
  have hprogram (vs : List Byte) : FlashBeforeTx (programEvents s.cur vs) :=
    flashBeforeTx_of_no_tx fun e he => by simp [programEvents_port e he]
  obtain ⟨i, args⟩ := f
  cases i
  case progFlash | progMulti => exact hprogram _
  case readFlash => exact readEvents_flashBeforeTx _ _ le_rfl
  case readMulti => exact readEvents_flashBeforeTx _ _ (h rfl)
  all_goals simp [State.handlerEvents, FlashBeforeTx, Event.port]

theorem frameEvents_flashBeforeTx (s : State) {f : Frame} (h : f.instr = .readMulti → transferCount f ≤ 1) :
    FlashBeforeTx (s.frameEvents f) := by
  refine .append_of_no_flash (.append_of_no_tx (fun e he => ?_) (handlerEvents_flashBeforeTx s h)) fun e he => ?_
  · simp [rxEvents_port e he]
  · split at he
    · simp at he
    · obtain ⟨b, -, rfl⟩ := List.mem_map.1 he
      simp [Event.port]

/-! ### The obligations -/

/-- Settles O47: flash is the payload programmed in order, of which the two lemmas on `programAll` say what each address
reads. -/
theorem progMultiProgramsPayload : Obligations.ProgMultiProgramsPayload := by
  intro s payload rest hi hr hc hlen hx
  obtain ⟨-, hcap⟩ := Params.cap_bounds hi.params
  have hcount : (BitVec.ofNat 8 payload.length).toNat = payload.length := Nat.mod_eq_of_lt (by omega)
  have hwf : (progMultiFrame payload).wf s.params.cap = true := by
    simp [progMultiFrame, Frame.wf, Instr.format, Format.argsOk, hcount, hlen]
  obtain ⟨l, hcur, hrun⟩ := frame_reaches hi hr hc hwf hx
  exact ⟨_, _, hrun, rfl, rfl, hcur.trans (congrArg (s.cur + BitVec.ofNat 16 ·) hcount),
    s.afterFrame_sent (progMultiFrame payload) rest, fun i v => programAll_read hi.flash (by omega),
    fun a _ => programAll_read_of_ne hi.flash⟩

/-- Settles O55: the run of the frame says what it adds to the observation. -/
theorem frameTransactionOrder : Obligations.FrameTransactionOrder := by
  intro s f rest hi hr hc hf hx
  obtain ⟨l, -, hrun⟩ := frame_reaches hi hr hc hf hx
  exact ⟨_, hrun, rfl, rfl⟩

/-- Settles O56: the frame's bytes come first, the acknowledgement last, and between them the handler's transactions. -/
theorem responseAfterFlash : Obligations.ResponseAfterFlash := by
  intro s f rest hi hr hc hf hx
  obtain ⟨l, -, hrun⟩ := frame_reaches hi hr hc hf hx
  refine ⟨_, s.frameEvents f, hrun, rfl, rfl, frameEvents_flashBeforeTx s, fun hne => ?_⟩
  rw [State.frameEvents, if_neg hne]
  exact ⟨_, rfl⟩

end Sys2Proof.Machine
end

section
/-! Reading bytes as frames (spec/30_encoding.md R100 to R118): what the decoder answers for every byte string, and its
two directions against the encoder. -/

namespace Sys2Proof

/-! ### Classification -/

theorem Params.classify_eq_some {p : Params} (h : p.wf = true) {b : Byte} {i : Instr} :
    p.classify b = some i ↔ b = p.opcode i :=
  ⟨Params.opcode_of_classify, fun hb => hb ▸ Params.classify_opcode h i⟩

theorem Params.classify_eq_none {p : Params} (h : p.wf = true) {b : Byte} :
    p.classify b = none ↔ ∀ i, b ≠ p.opcode i := by
  simp only [Option.eq_none_iff_forall_ne_some, ne_eq, Params.classify_eq_some h]

theorem decode_cons_of_classify {p : Params} {b : Byte} {i : Instr} (h : p.classify b = some i) (bytes : List Byte) :
    decode p (b :: bytes) = decodeArgs p i i.format bytes := by
  simp only [decode, h]

theorem decode_cons_invalid {p : Params} {b : Byte} (h : p.classify b = none) (bytes : List Byte) :
    decode p (b :: bytes) = .abort .invalidOpcode bytes := by
  simp only [decode, h]

/-! ### The end of a frame, by its terminator regime -/

/-- What the decoder answers after a frame's argument bytes: the terminator check of the regime
(spec/30_encoding.md R117). -/
def decodeEnd (p : Params) (f : Frame) : Regime → List Byte → Decoded
  | .precheck, bytes => decodeEoc p .precheckEoc f bytes
  | .handler, bytes => decodeEoc p .handlerEoc f bytes
  | .none, bytes => .frame f bytes

theorem decodeEoc_eq_frame {p : Params} {cause : AbortCause} {f g : Frame} {bytes rest : List Byte} :
    decodeEoc p cause f bytes = .frame g rest ↔ bytes = p.eoc :: rest ∧ f = g := by
  cases bytes with
  | nil => simp [decodeEoc]
  | cons t bytes => by_cases ht : t = p.eoc <;> simp [decodeEoc, ht, and_comm]

theorem decodeEoc_eq_abort {p : Params} {cause c : AbortCause} {f : Frame} {bytes rest : List Byte} :
    decodeEoc p cause f bytes = .abort c rest ↔ ∃ t, t ≠ p.eoc ∧ bytes = t :: rest ∧ c = cause := by
  cases bytes with
  | nil => simp [decodeEoc]
  | cons t bytes => by_cases ht : t = p.eoc <;> simp [decodeEoc, ht, and_comm, eq_comm]

/-- The decoder ends a frame exactly at its format's terminator. -/
theorem decodeEnd_eq_frame {p : Params} {fmt : Format} {f g : Frame} {bytes rest : List Byte} :
    decodeEnd p f fmt.regime bytes = .frame g rest ↔ bytes = p.terminator fmt ++ rest ∧ f = g := by
  cases fmt
  case b => simp [Format.regime, decodeEnd, Params.terminator, and_comm]
  all_goals exact decodeEoc_eq_frame

/-- The decoder drops a frame exactly at a byte other than `EOC`, with the cause of the format's regime. -/
theorem decodeEnd_eq_abort {p : Params} {r : Regime} {f : Frame} {bytes rest : List Byte} {cause : AbortCause} :
    decodeEnd p f r bytes = .abort cause rest ↔ ∃ t, t ≠ p.eoc ∧ bytes = t :: rest ∧
      ((r = .precheck ∧ cause = .precheckEoc) ∨ (r = .handler ∧ cause = .handlerEoc)) := by
  cases r
  case none => simp [decodeEnd]
  all_goals simp [decodeEnd, decodeEoc_eq_abort]

/-! ### The argument bytes -/

/-- Argument bytes that fit the format are read off, and then comes the end of the frame. -/
theorem decodeArgs_args {p : Params} {i : Instr} {fmt : Format} {args : List Byte} (h : fmt.argsOk p.cap args = true)
    (bytes : List Byte) : decodeArgs p i fmt (args ++ bytes) = decodeEnd p ⟨i, args⟩ fmt.regime bytes := by
  cases fmt <;> simp only [Format.argsOk, List.isEmpty_iff, beq_iff_eq] at h
  case z => subst h; rfl
  case b => subst h; rfl
  case a16 => obtain ⟨lo, hi, rfl⟩ := List.length_eq_two.1 h; rfl
  case d8 => obtain ⟨d, rfl⟩ := List.length_eq_one_iff.1 h; rfl
  case n => obtain ⟨count, rfl⟩ := List.length_eq_one_iff.1 h; rfl
  case nd =>
    cases args with
    | nil => simp at h
    | cons count payload =>
      simp only [Bool.and_eq_true, beq_iff_eq, decide_eq_true_eq] at h
      obtain ⟨hlen, hcap⟩ := h
      rw [← hlen] at hcap
      simp [decodeArgs, decodeEnd, Format.regime, ← hlen, not_lt.2 hcap]

/-- Everything the bytes after an opcode can be: too few, a count above `CAP`, or fitting argument bytes before what
follows them. -/
theorem decodeArgs_cases (p : Params) (i : Instr) (fmt : Format) (bytes : List Byte) :
    decodeArgs p i fmt bytes = .more ∨
      (fmt = .nd ∧ ∃ count body, bytes = count :: body ∧ p.cap < count.toNat ∧
        decodeArgs p i fmt bytes = .abort .oversize body) ∨
      ∃ args body, bytes = args ++ body ∧ fmt.argsOk p.cap args = true := by
  cases fmt
  case z => exact .inr (.inr ⟨[], bytes, rfl, rfl⟩)
  case b => exact .inr (.inr ⟨[], bytes, rfl, rfl⟩)
  case a16 =>
    match bytes with
    | lo :: hi :: body => exact .inr (.inr ⟨[lo, hi], body, rfl, rfl⟩)
    | [] | [_] => exact .inl rfl
  case d8 =>
    match bytes with
    | d :: body => exact .inr (.inr ⟨[d], body, rfl, rfl⟩)
    | [] => exact .inl rfl
  case n =>
    match bytes with
    | count :: body => exact .inr (.inr ⟨[count], body, rfl, rfl⟩)
    | [] => exact .inl rfl
  case nd =>
    match bytes with
    | [] => exact .inl rfl
    | count :: body =>
      by_cases hcap : p.cap < count.toNat
      · exact .inr (.inl ⟨rfl, count, body, rfl, hcap, if_pos hcap⟩)
      by_cases hlen : body.length < count.toNat
      · exact .inl (by simp [decodeArgs, hcap, hlen])
      · refine .inr (.inr ⟨count :: body.take count.toNat, body.drop count.toNat, by simp, ?_⟩)
        simp only [Format.argsOk, Bool.and_eq_true, beq_iff_eq, decide_eq_true_eq, List.length_take]
        omega

/-! ### Whole frames -/

theorem decode_encode {p : Params} (hp : p.wf = true) {f : Frame} (hf : f.wf p.cap = true) (rest : List Byte) :
    decode p (encode p f ++ rest) = .frame f rest := by
  rw [encode, List.cons_append, List.cons_append, List.append_assoc,
    decode_cons_of_classify (Params.classify_opcode hp f.instr), decodeArgs_args hf]
  exact decodeEnd_eq_frame.2 ⟨rfl, rfl⟩

/-- The bytes of a decoded frame, from those after its opcode. -/
theorem decodeArgs_frame {p : Params} {i : Instr} {bytes rest : List Byte} {f : Frame}
    (h : decodeArgs p i i.format bytes = .frame f rest) :
    f.instr = i ∧ bytes = f.args ++ p.terminator i.format ++ rest ∧ f.wf p.cap = true := by
  rcases decodeArgs_cases p i i.format bytes with hmore | ⟨-, _, _, -, -, hover⟩ | ⟨args, body, rfl, hargs⟩
  · simp [hmore] at h
  · simp [hover] at h
  · rw [decodeArgs_args hargs] at h
    obtain ⟨rfl, rfl⟩ := decodeEnd_eq_frame.1 h
    exact ⟨rfl, (List.append_assoc ..).symm, hargs⟩

/-- The wire length of a well-formed frame (spec/30_encoding.md R109). -/
theorem encode_length {p : Params} {cap : Nat} {f : Frame} (h : f.wf cap = true) :
    (encode p f).length = f.wireLength := by
  obtain ⟨i, args⟩ := f
  unfold Frame.wf at h
  cases hfmt : i.format <;> simp only [hfmt, Format.argsOk, List.isEmpty_iff, beq_iff_eq] at h
  case nd =>
    cases args with
    | nil => simp at h
    | cons count payload =>
      simp only [encode, Params.terminator, Frame.wireLength, Frame.payload, hfmt, Format.regime, List.length_append,
        List.length_cons, List.length_nil]
      omega
  all_goals simp [encode, Params.terminator, Frame.wireLength, hfmt, Format.regime, h]

theorem Instr.eq_progMulti_of_format {i : Instr} (h : i.format = .nd) : i = .progMulti := by
  cases i <;> simp_all [Instr.format]

theorem Format.eq_z_of_regime {fmt : Format} (h : fmt.regime = .precheck) : fmt = .z := by
  cases fmt <;> simp_all [Format.regime]

/-! ### The obligations -/

/-- Settles O3: the opcode is classified as the frame's command, its argument bytes are read off by their format, and the
terminator is found where the encoder put it. -/
theorem decodeEncode : Obligations.DecodeEncode :=
  fun _ hp _ hf rest => decode_encode hp hf rest

/-- Settles O2: the opcodes are pairwise distinct. -/
theorem classifyExact : Obligations.ClassifyExact :=
  fun _ hp _ => ⟨fun _ => Params.classify_eq_some hp, Params.classify_eq_none hp⟩

/-- Settles O4, from what the decoder can answer after an opcode. -/
theorem decodedFrameIsEncoded : Obligations.DecodedFrameIsEncoded := by
  intro p bytes rest f h
  cases bytes with
  | nil => simp [decode] at h
  | cons b bytes =>
    cases hcl : p.classify b with
    | none => simp [decode_cons_invalid hcl] at h
    | some i =>
      rw [decode_cons_of_classify hcl] at h
      obtain ⟨rfl, rfl, hwf⟩ := decodeArgs_frame h
      exact ⟨by rw [Params.opcode_of_classify hcl]; rfl, hwf, encode_length hwf⟩

/-- Settles O5: an abort comes from the classification, from a count above `CAP`, or from the end of a frame whose
argument bytes fit, and there the regime gives the cause. -/
theorem abortedFrameBytes : Obligations.AbortedFrameBytes := by
  intro p bytes rest cause h
  cases bytes with
  | nil => simp [decode] at h
  | cons b bytes =>
    cases hcl : p.classify b with
    | none =>
      rw [decode_cons_invalid hcl] at h
      cases h
      exact ⟨b, rfl, hcl⟩
    | some i =>
      rw [decode_cons_of_classify hcl] at h
      obtain rfl := Params.opcode_of_classify hcl
      rcases decodeArgs_cases p i i.format bytes with
        hmore | ⟨hnd, count, body, rfl, hcap, hover⟩ | ⟨args, body, rfl, hargs⟩
      · simp [hmore] at h
      · rw [hover] at h
        cases h
        obtain rfl := Instr.eq_progMulti_of_format hnd
        exact ⟨count, rfl, hcap⟩
      · rw [decodeArgs_args hargs] at h
        obtain ⟨t, ht, rfl, ⟨hr, rfl⟩ | ⟨hr, rfl⟩⟩ := decodeEnd_eq_abort.1 h
        · have hz := Format.eq_z_of_regime hr
          obtain rfl : args = [] := by simpa [hz, Format.argsOk] using hargs
          exact ⟨i, t, hz, rfl, ht⟩
        · exact ⟨⟨i, args⟩, t, hargs, hr, ht, rfl⟩

/-- Settles O1: the decoder runs on the words. -/
theorem opcodeWordsDecode : Obligations.OpcodeWordsDecode := by
  unfold Obligations.OpcodeWordsDecode
  decide

end Sys2Proof
end

section
/-! Frames as the block takes them, byte by byte: the steps that encoded bytes lead to, a whole well-formed frame, and the
dropping of a malformed one (spec/41_framing_dispatch.md R151 to R163). -/

namespace Sys2Proof.Machine

/-! ### The address operand -/

theorem assemble_eq_append (lo hi : Byte) : assemble lo hi = hi ++ lo := by
  rw [← setHighByte_setLowByte 0, setHighByte, setLowByte_low]

theorem assemble_toNat (lo hi : Byte) : (assemble lo hi).toNat = lo.toNat + 256 * hi.toNat := by
  rw [assemble_eq_append, BitVec.toNat_append, ← Nat.shiftLeft_add_eq_or_of_lt lo.isLt, Nat.shiftLeft_eq]
  omega

/-! ### Steps of the framer -/

theorem blockStep_idle {u : State} {b : Byte} {rest : List Byte} {i : Instr} (hc : u.cs = .idle) (hx : u.rx = b :: rest)
    (hcl : u.params.classify b = some i) : blockStep u = exec i (u.takeOpcode b rest) := by
  simp only [blockStep, blockTurn, hc, intake, hx, hcl, Turn.outcome]

theorem blockStep_preEoc {u : State} {i : Instr} (hc : u.cs = .preEoc) (hcl : u.params.classify u.op = some i) :
    blockStep u = exec i u := by
  simp only [blockStep, blockTurn, hc, precheck, hcl, Turn.outcome]

theorem blockStep_invalid {u : State} {b : Byte} {rest : List Byte} (hc : u.cs = .idle) (hx : u.rx = b :: rest)
    (hcl : u.params.classify b = none) :
    blockStep u = .next { u with op := b, rx := rest, trace := u.trace ++ [.rx b, .abort .invalidOpcode] } := by
  simp only [blockStep, blockTurn, hc, intake, hx, hcl, Turn.outcome]
  refine abort_next.2 ?_
  simp [State.takeOpcode, State.emit, State.goto, hc]

/-- In `PRE_EOC` a zero-argument command checks its terminator (spec/41_framing_dispatch.md R152). -/
theorem exec_preEoc_of_format {i : Instr} {s : State} (hf : i.format = .z) (hc : s.cs = .preEoc) :
    ∃ k, exec i s = takeEoc .precheckEoc k s := by
  cases i <;> simp only [Instr.format, reduceCtorEq] at hf <;>
    simp only [exec, execGetSync, execGetDevice, execChipErase, execReadFlash, execParamErase, hc] <;>
    exact ⟨_, rfl⟩

/-- In the terminator state of its handler a command checks its terminator (spec/30_encoding.md R117). -/
theorem blockStep_handlerEoc {u : State} (hc : u.cs ∈ [.laEoc, .pfEoc, .pmEoc, .rmEoc]) :
    ∃ k, blockStep u = takeEoc .handlerEoc k u := by
  simp only [List.mem_cons, List.not_mem_nil, or_false] at hc
  rcases hc with hc | hc | hc | hc <;>
    simp only [blockStep, blockTurn, Turn.outcome, exec, execLoadAddress, execProgFlash, execProgMulti, execReadMulti,
      hc] <;>
    exact ⟨_, rfl⟩

theorem entryOf_of_format {i : Instr} (h : i.format = .z) : entryOf i = .preEoc := by
  cases i <;> simp_all [Instr.format, entryOf]

/-! ### Dropping a frame -/

/-- The block runs from `s` back to `IDLE` with `rest` left in the input; it has sent nothing and committed nothing, and
the observation ends with the cause (spec/41_framing_dispatch.md R156, R163; the cursor but for `LA_EARLY_COMMIT`,
log 12). -/
def Drops (s : State) (cause : AbortCause) (rest : List Byte) : Prop :=
  ∃ n t, BlockReaches n s t ∧ t.rx = rest ∧ t.cs = .idle ∧ t.flash = s.flash ∧ t.sent = s.sent ∧
    (s.params.laEarlyCommit = false → t.cur = s.cur) ∧ t.trace.getLast? = some (.abort cause)

/-- A frame whose bytes so far have only been received is dropped by a bad terminator. -/
theorem Drops.of_bad_eoc {n : Nat} {s u : State} {t : Byte} {bytes rest : List Byte} {cause : AbortCause}
    (hrun : BlockReaches n s u) (hstep : ∃ k, blockStep u = takeEoc cause k u)
    (hx : u.rx = t :: rest) (ht : t ≠ u.params.eoc) (htrace : u.trace = s.trace ++ bytes.map .rx)
    (hflash : u.flash = s.flash) (hcur : s.params.laEarlyCommit = false → u.cur = s.cur) : Drops s cause rest := by
  obtain ⟨k, hk⟩ := hstep
  have hbad := hk.trans (takeEoc_next.2 (.inr ⟨t, rest, hx, .inr ⟨ht, rfl⟩⟩))
  refine ⟨_, _, hrun.trans (.step hbad (.refl _)), rfl, rfl, hflash, ?_, hcur, ?_⟩
  · simp [State.sent, htrace, Event.sentByte]
  · simp

theorem invalid_drops {s : State} {b : Byte} {rest : List Byte} (hc : s.cs = .idle) (hx : s.rx = b :: rest)
    (hcl : s.params.classify b = none) : Drops s .invalidOpcode rest :=
  ⟨_, _, .step (blockStep_invalid hc hx hcl) (.refl _), rfl, hc, rfl, by simp [State.sent, Event.sentByte],
    fun _ => rfl, by simp⟩

section
variable {s : State} {t : Byte} {rest : List Byte} (hw : s.params.wf = true) (hc : s.cs = .idle)
include hw hc

theorem zeroArg_drops {i : Instr} (hf : i.format = .z) (ht : t ≠ s.params.eoc)
    (hx : s.rx = s.params.opcode i :: t :: rest) : Drops s .precheckEoc rest := by
  have hdispatch := blockStep_dispatch i hw hc hx
  rw [entryOf_of_format hf] at hdispatch
  have hstep := exec_preEoc_of_format (s := { s with
    cs := .preEoc, op := s.params.opcode i, rx := t :: rest, trace := s.trace ++ [.rx (s.params.opcode i)] }) hf rfl
  rw [← blockStep_preEoc rfl (Params.classify_opcode hw i)] at hstep
  exact .of_bad_eoc (bytes := [s.params.opcode i]) (.step hdispatch (.refl _)) hstep rfl ht rfl rfl fun _ => rfl

theorem loadAddress_drops {lo hi : Byte} (ht : t ≠ s.params.eoc)
    (hx : s.rx = s.params.opcode .loadAddress :: lo :: hi :: t :: rest) : Drops s .handlerEoc rest := by
  have hrun := BlockReaches.step (blockStep_dispatch .loadAddress hw hc hx)
    (.owned (exec_laLo rfl rfl) rfl (.owned (exec_laHi rfl rfl) rfl (.refl _)))
  refine .of_bad_eoc (bytes := [s.params.opcode .loadAddress, lo, hi]) hrun (blockStep_handlerEoc (by simp)) rfl ht
    (by simp) rfl fun he => ?_
  simp [he]

theorem progFlash_drops {d : Byte} (ht : t ≠ s.params.eoc)
    (hx : s.rx = s.params.opcode .progFlash :: d :: t :: rest) : Drops s .handlerEoc rest :=
  .of_bad_eoc (bytes := [s.params.opcode .progFlash, d]) (.step (blockStep_dispatch .progFlash hw hc hx)
    (.owned (exec_pfData rfl rfl) rfl (.refl _))) (blockStep_handlerEoc (by simp)) rfl ht (by simp) rfl fun _ => rfl

theorem readMulti_drops {count : Byte} (ht : t ≠ s.params.eoc)
    (hx : s.rx = s.params.opcode .readMulti :: count :: t :: rest) : Drops s .handlerEoc rest :=
  .of_bad_eoc (bytes := [s.params.opcode .readMulti, count]) (.step (blockStep_dispatch .readMulti hw hc hx)
    (.owned (exec_rmCount rfl rfl) rfl (.refl _))) (blockStep_handlerEoc (by simp)) rfl ht (by simp) rfl fun _ => rfl

/-- The count step of `PROG_MULTI` after its dispatch (spec/45_multi.md R220). -/
theorem progMulti_counts {count : Byte} (hx : s.rx = s.params.opcode .progMulti :: count :: rest) :
    BlockReaches 2 s (if s.params.cap < count.toNat then { s with
        cs := .idle, cnt := count, idx := 0, op := s.params.opcode .progMulti, rx := rest
        trace := s.trace ++ [.rx (s.params.opcode .progMulti)] ++ [.rx count, .abort .oversize] }
      else { s with
        cs := if count = 0 then .pmEoc else .pmData
        cnt := count, idx := 0, op := s.params.opcode .progMulti, rx := rest
        trace := s.trace ++ [.rx (s.params.opcode .progMulti)] ++ [.rx count] }) :=
  .step (blockStep_dispatch .progMulti hw hc hx) (.owned (exec_pmCount rfl rfl) rfl (.refl _))

theorem oversize_drops {count : Byte} (hcap : s.params.cap < count.toNat)
    (hx : s.rx = s.params.opcode .progMulti :: count :: rest) : Drops s .oversize rest := by
  have hrun := progMulti_counts hw hc hx
  rw [if_pos hcap] at hrun
  exact ⟨_, _, hrun, rfl, rfl, rfl, by simp [State.sent, Event.sentByte], fun _ => rfl, by simp⟩

theorem progMulti_drops {count : Byte} {payload : List Byte} (hlen : payload.length = count.toNat)
    (hcap : count.toNat ≤ s.params.cap) (hbuf : s.buf.length = s.params.cap) (ht : t ≠ s.params.eoc)
    (hx : s.rx = s.params.opcode .progMulti :: count :: (payload ++ t :: rest)) : Drops s .handlerEoc rest := by
  have hcount := progMulti_counts hw hc hx
  rw [if_neg (not_lt.2 hcap)] at hcount
  have hstage := progMulti_stages (vs := payload) (done := []) (free := s.buf) (rest := t :: rest)
    (s := { s with
      cs := if count = 0 then .pmEoc else .pmData
      cnt := count, idx := 0, op := s.params.opcode .progMulti, rx := payload ++ t :: rest
      trace := s.trace ++ [.rx (s.params.opcode .progMulti)] ++ [.rx count] })
    (by simp only [eq_comm (a := count)]) rfl rfl rfl (by simp [hlen]) (by omega)
  exact .of_bad_eoc (bytes := s.params.opcode .progMulti :: count :: payload) (hcount.trans hstage)
    (blockStep_handlerEoc (by simp)) rfl ht (by simp) rfl fun _ => rfl

/-- A bad byte at the terminator's place drops the frame of every command whose handler checks its terminator. -/
theorem handler_drops {f : Frame} (hbuf : s.buf.length = s.params.cap) (hf : f.wf s.params.cap = true)
    (hr : f.instr.format.regime = .handler) (ht : t ≠ s.params.eoc)
    (hx : s.rx = s.params.opcode f.instr :: (f.args ++ t :: rest)) : Drops s .handlerEoc rest := by
  obtain ⟨i, args⟩ := f
  cases i <;> simp only [Instr.format, Format.regime, reduceCtorEq] at hr <;>
    simp only [Frame.wf, Instr.format, Format.argsOk, beq_iff_eq] at hf
  case loadAddress =>
    obtain ⟨lo, hi, rfl⟩ := List.length_eq_two.1 hf
    exact loadAddress_drops hw hc ht hx
  case progFlash =>
    obtain ⟨d, rfl⟩ := List.length_eq_one_iff.1 hf
    exact progFlash_drops hw hc ht hx
  case readMulti =>
    obtain ⟨count, rfl⟩ := List.length_eq_one_iff.1 hf
    exact readMulti_drops hw hc ht hx
  case progMulti =>
    cases args with
    | nil => simp at hf
    | cons count payload =>
      simp only [Bool.and_eq_true, beq_iff_eq, decide_eq_true_eq] at hf
      obtain ⟨hlen, hcap⟩ := hf
      exact progMulti_drops hw hc hlen hcap hbuf ht hx

end

/-! ### The obligations -/

/-- Settles O45: the run of the frame, field by field. -/
theorem frameRunsAsSpecified : Obligations.FrameRunsAsSpecified := by
  intro s f rest hi hr hc hf hx
  obtain ⟨l, hcur, hrun⟩ := frame_reaches hi hr hc hf hx
  exact ⟨_, hrun, rfl, rfl, hcur, rfl, s.afterFrame_sent f rest, rfl, rfl, rfl, rfl⟩

/-- Settles O46: the cause says which bytes have been received, and each kind of frame is dropped at its last one. -/
theorem malformedFrameIsSilent : Obligations.MalformedFrameIsSilent := by
  intro s cause rest hi he hc hd
  have hdrops : Drops s cause rest := by
    have hbytes := abortedFrameBytes _ _ _ _ hd
    cases cause with
    | invalidOpcode =>
      obtain ⟨b, hx, hcl⟩ := hbytes
      exact invalid_drops hc hx hcl
    | precheckEoc =>
      obtain ⟨i, t, hz, hx, ht⟩ := hbytes
      exact zeroArg_drops hi.params hc hz ht hx
    | handlerEoc =>
      obtain ⟨f, t, hf, hr, ht, hx⟩ := hbytes
      exact handler_drops hi.params hc hi.buf hf hr ht hx
    | oversize =>
      obtain ⟨count, hx, hcap⟩ := hbytes
      exact oversize_drops hi.params hc hcap hx
  obtain ⟨n, t, hrun, hend⟩ := hdrops
  exact ⟨n, t, hrun.reaches hi.params he, hend⟩

/-- Settles O6: both ways to assemble the operand put the high byte before the low one. -/
theorem addressOperand : Obligations.AddressOperand := fun lo hi =>
  ⟨assemble_eq_append lo hi, rfl, assemble_toNat lo hi, fun old => setHighByte_setLowByte old lo hi⟩

/-- Settles O7: the step is the block's, and there the byte taken, or `OP`, chooses the command. -/
theorem stepRunsDecodedInstruction : Obligations.StepRunsDecodedInstruction := by
  intro s u hw hb
  rw [step_of_blockState hw hb]
  exact ⟨fun _ _ _ => blockStep_idle, fun _ => blockStep_preEoc⟩

/-- Settles O30: a byte that is no opcode is classified as no command. -/
theorem invalidOpcodeAborts : Obligations.InvalidOpcodeAborts := by
  intro s b rest hw he hc hx hb
  rw [step_of_env_nil hw he]
  exact blockStep_invalid hc hx ((Params.classify_eq_none hw).2 hb)

/-- Settles O33, step by step. -/
theorem loadAddressSteps : Obligations.LoadAddressSteps := by
  intro s b rest hx
  refine ⟨fun hc => exec_laLo hc hx, fun hc => exec_laHi hc hx, fun hc hb => ?_⟩
  subst hb
  exact exec_laEoc hc hx

end Sys2Proof.Machine
end

section
/-! The boot gate (spec/40_boot_gate.md R131 to R139): its seven steps, the run to the handoff, the run into the command
loop, and that the second excludes the first. -/

namespace Sys2Proof.Machine

/-! ### The seven steps -/

section
variable {s : State}

theorem blockStep_bgFault (hc : s.cs = .bgFault) :
    blockStep s = .next { s with
      cs := if s.rc.flashFault then .bgEnterCmd else .bgValid
      trace := s.trace ++ [.sampleFlashFault s.params.rcFlashFaultBit s.rc.flashFault] } := by
  rw [blockStep, blockTurn, hc]; rfl

theorem blockStep_bgValid (hc : s.cs = .bgValid) (hf : s.flashReady = true) :
    blockStep s = .next { s with
      cs := if Params.imageValid s.params s.flash then .bgForce else .bgEnterCmd
      trace := s.trace ++ [.imageValid (Params.imageValid s.params s.flash)] } := by
  rw [blockStep, blockTurn, hc]
  exact if_pos hf

theorem blockStep_bgForce (hc : s.cs = .bgForce) :
    blockStep s = .next { s with
      cs := if s.force then .bgEnterCmd else .bgScFreq
      trace := s.trace ++ [.sampleForce s.force] } := by
  rw [blockStep, blockTurn, hc]; rfl

theorem blockStep_bgScFreq (hc : s.cs = .bgScFreq) :
    blockStep s = .next { s with
      cs := .bgScVer, scFreq := s.params.boardFreq
      trace := s.trace ++ [.writeSc s.params.scFreqAddr s.params.boardFreq] } := by
  rw [blockStep, blockTurn, hc]; rfl

theorem blockStep_bgScVer (hc : s.cs = .bgScVer) :
    blockStep s = .next { s with
      cs := .bgJump, scVer := s.params.blVersion
      trace := s.trace ++ [.writeSc s.params.scVerAddr s.params.blVersion] } := by
  rw [blockStep, blockTurn, hc]; rfl

theorem blockStep_bgJump (hc : s.cs = .bgJump) :
    blockStep s = .next { s with cs := .handedOff, trace := s.trace ++ [.handoff s.params.appEntry] } := by
  rw [blockStep, blockTurn, hc]; rfl

theorem blockStep_bgEnterCmd (hc : s.cs = .bgEnterCmd) : blockStep s = .next { s with cs := .idle, cur := 0 } := by
  rw [blockStep, blockTurn, hc]; rfl

end

/-- Settles O23: nothing pending from the environment, each step is the block's own. -/
theorem bootGateSteps : Obligations.BootGateSteps := by
  intro s hw he
  rw [step_of_env_nil hw he]
  exact ⟨blockStep_bgFault, blockStep_bgValid, blockStep_bgForce, blockStep_bgScFreq, blockStep_bgScVer,
    blockStep_bgJump, blockStep_bgEnterCmd⟩

/-! ### The handoff -/

section
variable {s : State}

/-- The three conditions of the handoff (spec/40_boot_gate.md R137). -/
def State.Bootable (s : State) : Prop :=
  s.rc.flashFault = false ∧ Params.imageValid s.params s.flash = true ∧ s.force = false

/-- The three tests, all passed, lead to the first write (spec/40_boot_gate.md R131 to R133). -/
theorem gateTests_reach (hc : s.cs = .bgFault) (hf : s.flashReady = true) (hb : s.Bootable) :
    BlockReaches 3 s { s with
      cs := .bgScFreq
      trace := s.trace ++ [.sampleFlashFault s.params.rcFlashFaultBit false, .imageValid true, .sampleForce false] } := by
  obtain ⟨hfault, hvalid, hforce⟩ := hb
  refine .step (blockStep_bgFault hc) (.step (blockStep_bgValid ?_ hf) (.step (blockStep_bgForce ?_) ?_))
  · simp [hfault]
  · simp [hvalid]
  · simp [BlockReaches, hfault, hvalid, hforce]

/-- The two writes and the jump (spec/40_boot_gate.md R134). -/
theorem gateWrites_reach (hc : s.cs = .bgScFreq) :
    BlockReaches 3 s { s with
      cs := .handedOff, scFreq := s.params.boardFreq, scVer := s.params.blVersion
      trace := s.trace ++ [.writeSc s.params.scFreqAddr s.params.boardFreq,
        .writeSc s.params.scVerAddr s.params.blVersion, .handoff s.params.appEntry] } := by
  refine .step (blockStep_bgScFreq hc) (.step (blockStep_bgScVer rfl) (.step (blockStep_bgJump rfl) ?_))
  simp [BlockReaches]

end

/-- Settles O25: the tests and then the writes. -/
theorem bootGateHandoff : Obligations.BootGateHandoff := by
  intro s hw he hf hc hfault hvalid hforce
  have hrun := (gateTests_reach hc hf ⟨hfault, hvalid, hforce⟩).trans (gateWrites_reach rfl)
  simpa using hrun.reaches hw he

/-! ### The refusal -/

/-- From `s` the block runs into the command loop with the cursor at 0, and changes nothing else but what it observes. -/
def EntersLoop (s : State) : Prop :=
  ∃ n trace, BlockReaches n s { s with cs := .idle, cur := 0, trace := trace }

section
variable {s : State}

theorem EntersLoop.of_step {c : CommandState} {trace : List Event}
    (h : blockStep s = .next { s with cs := c, trace := trace })
    (hu : EntersLoop { s with cs := c, trace := trace }) : EntersLoop s := by
  obtain ⟨n, trace', hr⟩ := hu
  exact ⟨n + 1, trace', .step h hr⟩

theorem entersLoop_enterCmd (hc : s.cs = .bgEnterCmd) : EntersLoop s :=
  ⟨1, s.trace, .step (blockStep_bgEnterCmd hc) (.refl _)⟩

theorem entersLoop_force (hc : s.cs = .bgForce) (hk : s.force = true) : EntersLoop s :=
  .of_step (blockStep_bgForce hc) (entersLoop_enterCmd (if_pos hk))

theorem entersLoop_valid (hc : s.cs = .bgValid) (hf : s.flashReady = true)
    (hno : Params.imageValid s.params s.flash = true → s.force = true) : EntersLoop s := by
  refine .of_step (blockStep_bgValid hc hf) ?_
  by_cases hv : Params.imageValid s.params s.flash = true
  · exact entersLoop_force (if_pos hv) (hno hv)
  · exact entersLoop_enterCmd (if_neg hv)

/-- Whichever of the three tests fails first, the gate goes on to `BG_ENTER_CMD` (spec/40_boot_gate.md R137). -/
theorem entersLoop_fault (hc : s.cs = .bgFault) (hf : s.flashReady = true) (hb : ¬ s.Bootable) : EntersLoop s := by
  refine .of_step (blockStep_bgFault hc) ?_
  by_cases hfault : s.rc.flashFault = true
  · exact entersLoop_enterCmd (if_pos hfault)
  · refine entersLoop_valid (if_neg hfault) hf fun hv => ?_
    by_contra hk
    exact hb ⟨by simpa using hfault, hv, by simpa using hk⟩

end

/-! ### One gate, one end -/

/-- The step is a function, so of two runs from one state the longer goes on from where the shorter ends. -/
theorem reaches_comparable {n m : Nat} {s t u : State} (ht : Reaches n s t) (hu : Reaches m s u) :
    (∃ k, Reaches k t u) ∨ ∃ k, Reaches k u t := by
  induction n generalizing m s with
  | zero => cases ht; exact .inl ⟨m, hu⟩
  | succ n ih =>
    cases m with
    | zero => cases hu; exact .inr ⟨n + 1, ht⟩
    | succ m =>
      obtain ⟨v, hv, ht⟩ := ht
      obtain ⟨w, hw, hu⟩ := hu
      cases hv.symm.trans hw
      exact ih ht hu

theorem blockState_of_env_nil {s : State} (he : s.env = []) : s.blockState = some s := by
  simp [State.blockState, he]

theorem step_env_nil {s t : State} (he : s.env = []) (h : step s = .next t) : t.env = [] :=
  (blockStep_env (blockStep_of_step (blockState_of_env_nil he) h)).trans he

theorem reaches_env_nil {n : Nat} {s t : State} (he : s.env = []) (hr : Reaches n s t) : t.env = [] := by
  induction n generalizing s with
  | zero => cases hr; exact he
  | succ n ih =>
    obtain ⟨u, hu, hr⟩ := hr
    exact ih (step_env_nil he hu) hr

/-- Once the gate has ended, a step of the block changes neither that nor which end it was (spec/10_state.md R31). -/
theorem step_afterGate {s t : State} (he : s.env = []) (hm : s.cs.mode ≠ .boot) (h : step s = .next t) :
    t.cs.mode ≠ .boot ∧ (t.cs.mode = .handedOff ↔ s.cs.mode = .handedOff) := by
  have hmodes := modeChanges s s t (blockState_of_env_nil he) h
  cases hs : s.cs.mode <;> simp only [hs] at hmodes
  case boot => exact absurd hs hm
  case cmd =>
    have ht : t.cs.mode = .cmd ∨ t.cs.mode = .resetPending :=
      hmodes.imp_right fun ⟨_, ht⟩ => congrArg CommandState.mode ht
    rcases ht with ht | ht <;> simp [ht]
  case handedOff | resetPending => simp [hmodes, hs]

theorem reaches_afterGate {n : Nat} {s t : State} (he : s.env = []) (hm : s.cs.mode ≠ .boot) (hr : Reaches n s t) :
    t.cs.mode = .handedOff ↔ s.cs.mode = .handedOff := by
  induction n generalizing s with
  | zero => cases hr; rfl
  | succ n ih =>
    obtain ⟨u, hu, hr⟩ := hr
    obtain ⟨hmu, hiff⟩ := step_afterGate he hm hu
    exact (ih (step_env_nil he hu) hmu hr).trans hiff

/-- Two runs from one state that both end outside the gate agree on whether they handed off. -/
theorem gate_ends_agree {n m : Nat} {s t u : State} (he : s.env = []) (ht : Reaches n s t) (hu : Reaches m s u)
    (hmt : t.cs.mode ≠ .boot) (hmu : u.cs.mode ≠ .boot) : t.cs.mode = .handedOff ↔ u.cs.mode = .handedOff := by
  rcases reaches_comparable ht hu with ⟨k, hr⟩ | ⟨k, hr⟩
  · exact (reaches_afterGate (reaches_env_nil he ht) hmt hr).symm
  · exact reaches_afterGate (reaches_env_nil he hu) hmu hr

/-- Settles O24: a bootable block runs to the handoff; any other runs into the command loop, and then no run of it hands
off. -/
theorem bootGateDecision : Obligations.BootGateDecision := by
  intro s hi he hf hc
  have hloop (hb : ¬ s.Bootable) : ∃ n t, Reaches n s t ∧ t = { s with cs := .idle, cur := 0, trace := t.trace } := by
    obtain ⟨n, trace, hr⟩ := entersLoop_fault hc hf hb
    exact ⟨n, _, hr.reaches hi.params he, rfl⟩
  refine ⟨⟨?_, ?_⟩, hloop⟩
  · rintro ⟨n, t, hr, ht⟩
    by_contra hb
    obtain ⟨m, u, hidle, hu⟩ := hloop hb
    have hmt : t.cs.mode = .handedOff := by rw [ht]; rfl
    have hmu : u.cs.mode = .cmd := by rw [hu]; rfl
    have hagree := gate_ends_agree he hr hidle (by simp [hmt]) (by simp [hmu])
    simp [hmt, hmu] at hagree
  · rintro ⟨hfault, hvalid, hforce⟩
    exact ⟨6, _, bootGateHandoff s hi.params he hf hc hfault hvalid hforce, rfl⟩

end Sys2Proof.Machine
end

section
/-! The framer and dispatcher (spec/41_framing_dispatch.md): the steps that commands share, frame integrity, and the
agreement of the block's step with the transition table R170, row by row. -/

namespace Sys2Proof.Machine

/-! ### The dispatch and the acknowledgement -/

/-- Settles O27: the dispatch of a command goes to its entry. -/
theorem dispatchSteps : Obligations.DispatchSteps := by
  intro s hc
  refine ⟨fun i hz => ?_, exec_idle .loadAddress hc, exec_idle .progFlash hc, exec_idle .progMulti hc,
    exec_idle .readMulti hc, exec_idle .reboot hc⟩
  have hstep := exec_idle i hc
  rwa [entryOf_of_format hz] at hstep

theorem blockStep_ackInsync {s : State} (hc : s.cs = .ackInsync) (htx : s.txReady = true) :
    blockStep s = .next { s with cs := .ackOk, trace := s.trace ++ [.tx s.params.inSync] } := by
  simp only [blockStep, blockTurn, hc]
  exact ackInsync_next.2 (.inr ⟨htx, rfl⟩)

theorem blockStep_ackOk {s : State} (hc : s.cs = .ackOk) (htx : s.txReady = true) :
    blockStep s = .next { s with cs := .idle, trace := s.trace ++ [.tx s.params.okByte] } := by
  simp only [blockStep, blockTurn, hc]
  exact ackOk_next.2 (.inr ⟨htx, rfl⟩)

/-- Settles O26: in the acknowledgement the step of a command is the block's, which is the same for all of them. -/
theorem acknowledgementSteps : Obligations.AcknowledgementSteps := by
  intro i s hi htx
  refine ⟨fun hc => ?_, fun hc => ?_⟩
  · rw [← blockStep_of_ack hi (by simp [hc]), blockStep_ackInsync hc htx]
  · rw [← blockStep_of_ack hi (by simp [hc]), blockStep_ackOk hc htx]

/-! ### The terminator -/

/-- Settles O28: a good terminator leads from the pre-check to the handler. -/
theorem precheckSteps : Obligations.PrecheckSteps := fun _ _ hc hx _ _ => exec_preEoc_good hc hx

section
variable {s : State} {t : Byte} {rest : List Byte} (hx : s.rx = t :: rest) (ht : t ≠ s.params.eoc)
include hx ht

/-- A terminator step that meets another byte than `EOC` aborts, whatever it would have gone on with
(spec/41_framing_dispatch.md R156). -/
theorem takeEoc_bad (cause : AbortCause) (k : State → Outcome) :
    takeEoc cause k s = .next { s with cs := .idle, rx := rest, trace := s.trace ++ [.rx t, .abort cause] } :=
  takeEoc_next.2 (.inr ⟨t, rest, hx, .inr ⟨ht, by simp [State.emit, State.goto]⟩⟩)

theorem exec_preEoc_bad {i : Instr} (hf : i.format = .z) (hc : s.cs = .preEoc) :
    exec i s = .next { s with cs := .idle, rx := rest, trace := s.trace ++ [.rx t, .abort .precheckEoc] } := by
  obtain ⟨k, hk⟩ := exec_preEoc_of_format hf hc
  rw [hk, takeEoc_bad hx ht]

theorem blockStep_handlerEoc_bad (hc : s.cs ∈ [.laEoc, .pfEoc, .pmEoc, .rmEoc]) :
    blockStep s = .next { s with cs := .idle, rx := rest, trace := s.trace ++ [.rx t, .abort .handlerEoc] } := by
  obtain ⟨k, hk⟩ := blockStep_handlerEoc hc
  rw [hk, takeEoc_bad hx ht]

end

/-- Settles O29: a terminator step is one operation, which aborts on a bad byte; in the handlers it is the block's step of
the command that owns the state. -/
theorem badTerminatorAborts : Obligations.BadTerminatorAborts := by
  intro s t rest hx ht
  refine ⟨fun i hf hc => exec_preEoc_bad hx ht hf hc, fun i c hm hc => ?_⟩
  subst hc
  have howner : ∀ p ∈ [(Instr.loadAddress, CommandState.laEoc), (.progFlash, .pfEoc), (.progMulti, .pmEoc),
      (.readMulti, .rmEoc)], p.2.owner = some p.1 := by decide
  rw [← blockStep_of_owner (howner _ hm)]
  exact blockStep_handlerEoc_bad hx ht (List.mem_map_of_mem (f := Prod.snd) hm)

/-! ### Frame integrity -/

/-- In the command loop only the committed states transact on flash or on the output (spec/41_framing_dispatch.md
R163). -/
theorem CommandState.committed_of_port {c : CommandState} (hm : c.mode = .cmd)
    (hp : c.port = some .flash ∨ c.port = some .tx) : c.committed = true := by
  cases c <;> simp_all [CommandState.mode, CommandState.port, CommandState.committed]

theorem entryOf_not_committed (i : Instr) : (entryOf i).committed = false := by cases i <;> rfl

/-- A row enters the committed states only by a good terminator. -/
theorem Row.eoc_of_commits {s t : State} (h : Row s t) (ht : t.cs.committed = true) (hs : s.cs.committed = false) :
    s.rx = s.params.eoc :: t.rx := by
  cases h with
  | preEocGood b rest i c hc hx he => exact he ▸ hx
  | laEocGood b rest hc hx he | pfEocGood b rest hc hx he | pmEocZero b rest hc hx he | pmEocGood b rest hc hx he
  | rmEocZero b rest hc hx he | rmEocGood b rest hc hx he => exact he ▸ hx
  | idle b rest i c hc hx hb hci =>
    have hno := entryOf_not_committed i
    rw [show c = entryOf i from hci] at ht
    simp [hno] at ht
  | _ => simp_all [CommandState.committed]

/-- The rows of the command loop that move the cursor are those of committed states, the good terminator of
`LOAD_ADDRESS` and, in the variant `LA_EARLY_COMMIT`, `LA_HI` (log 12). -/
theorem Row.commits_of_cur {s t : State} (h : Row s t) (hm : s.cs.mode = .cmd) (hne : t.cur ≠ s.cur) :
    s.cs.committed = true ∨ (s.cs = .laEoc ∧ s.rx = s.params.eoc :: t.rx) ∨
      (s.cs = .laHi ∧ s.params.laEarlyCommit = true) := by
  cases h with
  | bgEnterCmd hc => simp [hc, CommandState.mode] at hm
  | laEocGood b rest hc hx he => exact .inr (.inl ⟨hc, he ▸ hx⟩)
  | laHiEarly _ _ hc _ he => exact .inr (.inr ⟨hc, he⟩)
  | pfWrite hc | rfRead hc | pmWriteLast _ hc | pmWrite _ hc | rmRead hc => exact .inl (by rw [hc]; rfl)
  | _ => exact absurd rfl hne

theorem committed_of_flash_writer {c : CommandState} (h : c ∈ [.ceErase, .peErase, .pfWrite, .pmWrite]) :
    c.committed = true := by
  cases c <;> simp_all [CommandState.committed]

/-- A step of the block makes its flash and output transactions on the port of its command state. -/
theorem blockStep_committed_of_event {u t : State} (h : blockStep u = .next t) (hm : u.cs.mode = .cmd) {es : List Event}
    (htrace : t.trace = u.trace ++ es) {e : Event} (he : e ∈ es) (hp : e.port = some .flash ∨ e.port = some .tx) :
    u.cs.committed = true := by
  obtain ⟨es', htrace', hes⟩ := blockStep_trace h
  obtain rfl : es = es' := List.append_cancel_left (htrace.symm.trans htrace')
  have hsome : e.port.isSome := by rcases hp with hp | hp <;> simp [hp]
  have hport := hes.port_eq e (List.mem_filter.2 ⟨he, hsome⟩)
  exact CommandState.committed_of_port hm (hport ▸ hp)

/-- A step of the block enters the committed states only by a good terminator; `PM_DATA`, whatever its index, only stages a
byte. -/
theorem blockStep_eoc_of_commits {u t : State} (h : blockStep u = .next t) (ht : t.cs.committed = true)
    (hs : u.cs.committed = false) : u.rx = u.params.eoc :: t.rx := by
  rcases blockStep_next h with rfl | hrow | ⟨_, _, -, -, -, rfl⟩ | ⟨_, hc, -⟩ | ⟨hc, -⟩
  · simp [hs] at ht
  · exact hrow.eoc_of_commits ht hs
  · split at ht <;> cases ht
  all_goals simp [hc, CommandState.committed] at hs

theorem blockStep_commits_of_cur {u t : State} (h : blockStep u = .next t) (hm : u.cs.mode = .cmd)
    (hne : t.cur ≠ u.cur) : u.cs.committed = true ∨ (u.cs = .laEoc ∧ u.rx = u.params.eoc :: t.rx) ∨
      (u.cs = .laHi ∧ u.params.laEarlyCommit = true) := by
  rcases blockStep_next h with rfl | hrow | ⟨_, _, -, -, -, rfl⟩ | ⟨_, hc, -⟩ | ⟨-, -, rfl⟩
  · exact absurd rfl hne
  · exact hrow.commits_of_cur hm hne
  · exact absurd rfl hne
  · exact .inl (by rw [hc]; rfl)
  · exact absurd rfl hne

/-- Settles O20: by the steps that enter a committed state or move the cursor, the writers of flash, and the port of each
command state. -/
theorem frameIntegrity : Obligations.FrameIntegrity := by
  intro s u t hb h hm
  have hu := blockStep_of_step hb h
  obtain ⟨hflash, -⟩ := externalWriters s u t hb h
  exact ⟨blockStep_eoc_of_commits hu, fun hne => committed_of_flash_writer (hflash hne),
    fun _ htrace _ => blockStep_committed_of_event hu hm htrace, blockStep_commits_of_cur hu hm⟩

/-! ### The rows of the transition table are steps -/

theorem idx_succ_ne {i n : Byte} (h : i.toNat + 1 < n.toNat) : i + 1 ≠ n := by bv_omega

theorem cnt_ne_zero {n : Byte} (h : 0 < n.toNat) : n ≠ 0 := by bv_omega

/-- In `PRE_EOC` the block's step is that of a zero-argument command (spec/41_framing_dispatch.md R152). -/
theorem State.Inv.preEoc {s : State} (hi : s.Inv) (hc : s.cs = .preEoc) :
    ∃ i, s.params.classify s.op = some i ∧ i.format = .z := by
  have hop : (s.params.classify s.op).map Instr.format = some .z := by simpa only [State.PhaseInv, hc] using hi.phase
  exact Option.map_eq_some_iff.1 hop

/-- The step of a command, in a command state that it owns, is the block's. -/
theorem blockStep_of_exec {c : CommandState} {i : Instr} {s t : State} (hc : s.cs = c) (ho : c.owner = some i)
    (h : exec i s = .next t) : blockStep s = .next t :=
  (blockStep_of_owner (hc ▸ ho)).trans h

/-- Every row of the table that applies is the block's step. -/
theorem Row.blockStep_eq {s t : State} (h : Row s t) (hi : s.Inv) : blockStep s = .next t := by
  cases h with
  | bgFaultSet hc hf | bgFaultClear hc hf => simpa [hf] using blockStep_bgFault hc
  | bgValidTrue hc hr hv | bgValidFalse hc hr hv => simpa [hv] using blockStep_bgValid hc hr
  | bgForceActive hc hf | bgForceInactive hc hf => simpa [hf] using blockStep_bgForce hc
  | bgScFreq hc => exact blockStep_bgScFreq hc
  | bgScVer hc => exact blockStep_bgScVer hc
  | bgJump hc => exact blockStep_bgJump hc
  | bgEnterCmd hc => exact blockStep_bgEnterCmd hc
  | idle b rest i c hc hx hb hci =>
    rw [show c = entryOf i from hci]
    subst hb
    exact blockStep_dispatch i hi.params hc hx
  | idleInvalid b rest hc hx hb =>
    simpa only [hc] using blockStep_invalid hc hx ((Params.classify_eq_none hi.params).2 hb)
  | preEocBad b rest hc hx hb =>
    obtain ⟨i, hcl, hf⟩ := hi.preEoc hc
    rw [blockStep_preEoc hc hcl, exec_preEoc_bad hx hb hf hc]
  | preEocGood b rest i c hc hx hb hop hm =>
    subst hb
    rw [blockStep_preEoc hc (hop ▸ Params.classify_opcode hi.params i), exec_preEoc_good hc hx hm]
  | gdId hc htx => exact blockStep_of_exec hc rfl (exec_gdId hc htx)
  | gdFreq hc htx => exact blockStep_of_exec hc rfl (exec_gdFreq hc htx)
  | ceErase hc hf => exact blockStep_of_exec hc rfl (exec_ceErase hc hf)
  | peErase hc hf => exact blockStep_of_exec hc rfl (exec_peErase hc hf)
  | rfRead hc hf => exact blockStep_of_exec hc rfl (exec_rfRead hc hf)
  | rfSend hc htx => exact blockStep_of_exec hc rfl (exec_rfSend hc htx)
  | laLo b rest hc hx => exact blockStep_of_exec hc rfl (exec_laLo hc hx)
  | laHi b rest hc hx he | laHiEarly b rest hc hx he =>
    simpa [he] using blockStep_of_exec hc rfl (exec_laHi hc hx)
  | laEocBad b rest hc hx hb | pfEocBad b rest hc hx hb | pmEocBad b rest hc hx hb | rmEocBad b rest hc hx hb =>
    exact blockStep_handlerEoc_bad hx hb (by simp [hc])
  | laEocGood b rest hc hx hb => subst hb; exact blockStep_of_exec hc rfl (exec_laEoc hc hx)
  | pfData b rest hc hx => exact blockStep_of_exec hc rfl (exec_pfData hc hx)
  | pfEocGood b rest hc hx hb => subst hb; exact blockStep_of_exec hc rfl (exec_pfEoc hc hx)
  | pfWrite hc hf => exact blockStep_of_exec hc rfl (exec_pfWrite hc hf)
  | pmCountOver c rest hc hx ho => simpa only [if_pos ho] using blockStep_of_exec hc rfl (exec_pmCount hc hx)
  | pmCountZero c rest hc hx h0 =>
    subst h0
    exact blockStep_of_exec hc rfl (exec_pmCount hc hx)
  | pmCount c rest hc hx hpos hcap =>
    simpa only [if_neg (not_lt.2 hcap), if_neg (cnt_ne_zero hpos)] using blockStep_of_exec hc rfl (exec_pmCount hc hx)
  | pmDataLast b rest hc hx hlast =>
    simpa only [if_pos (idx_succ_eq hlast)] using
      blockStep_of_exec hc rfl (exec_pmData hc hx (hi.idx_lt_buf (hi.pmData hc)))
  | pmData b rest hc hx hlt =>
    simpa only [if_neg (idx_succ_ne hlt)] using
      blockStep_of_exec hc rfl (exec_pmData hc hx (hi.idx_lt_buf (hi.pmData hc)))
  | pmEocZero b rest hc hx hb h0 =>
    subst hb
    simpa only [if_pos h0] using blockStep_of_exec hc rfl (exec_pmEoc hc hx)
  | pmEocGood b rest hc hx hb hpos =>
    subst hb
    simpa only [if_neg (cnt_ne_zero hpos)] using blockStep_of_exec hc rfl (exec_pmEoc hc hx)
  | pmWriteLast v hc hf hv hlast =>
    simpa only [if_pos (idx_succ_eq hlast)] using blockStep_of_exec hc rfl (exec_pmWrite hc hf hv)
  | pmWrite v hc hf hv hlt =>
    simpa only [if_neg (idx_succ_ne hlt)] using blockStep_of_exec hc rfl (exec_pmWrite hc hf hv)
  | rmCount c rest hc hx => exact blockStep_of_exec hc rfl (exec_rmCount hc hx)
  | rmEocZero b rest hc hx hb h0 =>
    subst hb
    simpa only [if_pos h0] using blockStep_of_exec hc rfl (exec_rmEoc hc hx)
  | rmEocGood b rest hc hx hb hpos =>
    subst hb
    simpa only [if_neg (cnt_ne_zero hpos)] using blockStep_of_exec hc rfl (exec_rmEoc hc hx)
  | rmRead hc hf => exact blockStep_of_exec hc rfl (exec_rmRead hc hf)
  | rmSendLast hc htx he => simpa only [if_pos he] using blockStep_of_exec hc rfl (exec_rmSend hc htx)
  | rmSend hc htx hlt =>
    have hne : s.idx ≠ s.cnt := fun he => by simp [he] at hlt
    simpa only [if_neg hne] using blockStep_of_exec hc rfl (exec_rmSend hc htx)
  | rbSet hc => exact blockStep_of_exec hc rfl (rebootStep s hc)
  | ackInsync hc htx => exact blockStep_ackInsync hc htx
  | ackOk hc htx => exact blockStep_ackOk hc htx

/-! ### A block that does not wait has a row -/

section
variable {s : State} (hw : s.waits = false)
include hw

theorem State.rx_cons_of_not_waits (hp : s.cs.port = some .rx) : ∃ b rest, s.rx = b :: rest := by
  simp only [State.waits, hp, List.isEmpty_eq_false_iff] at hw
  exact List.exists_cons_of_ne_nil hw

theorem State.txReady_of_not_waits (hp : s.cs.port = some .tx) : s.txReady = true := by
  simpa [State.waits, hp] using hw

theorem State.flashReady_of_not_waits (hp : s.cs.port = some .flash) : s.flashReady = true := by
  simpa [State.waits, hp] using hw

end

theorem byte_eq_zero_or_pos (n : Byte) : n = 0 ∨ 0 < n.toNat := by bv_omega

/-- Every zero-argument command has a handler in the table (spec/41_framing_dispatch.md R152). -/
theorem exists_precheck_target {i : Instr} (hf : i.format = .z) :
    ∃ c, (i, c) ∈ [(Instr.getSync, CommandState.ackInsync), (.getDevice, .gdId), (.chipErase, .ceErase),
      (.paramErase, .peErase), (.readFlash, .rfRead)] := by
  cases i <;> simp_all [Instr.format]

/-- In a receiving state the table has a row for every byte. -/
theorem State.Inv.exists_row_of_rx {s : State} {b : Byte} {rest : List Byte} (hi : s.Inv) (hp : s.cs.port = some .rx)
    (hx : s.rx = b :: rest) : ∃ t, Row s t := by
  have heoc := eq_or_ne b s.params.eoc
  cases hc : s.cs <;> simp only [hc, CommandState.port, reduceCtorEq, Option.some.injEq] at hp
  case idle =>
    by_cases hop : ∃ i, b = s.params.opcode i
    · obtain ⟨i, hop⟩ := hop
      exact ⟨_, .idle b rest i _ hc hx hop rfl⟩
    · exact ⟨_, .idleInvalid b rest hc hx (not_exists.1 hop)⟩
  case preEoc =>
    obtain ⟨i, hcl, hf⟩ := hi.preEoc hc
    obtain ⟨c, hm⟩ := exists_precheck_target hf
    rcases heoc with he | he
    · exact ⟨_, .preEocGood b rest i c hc hx he (Params.opcode_of_classify hcl) hm⟩
    · exact ⟨_, .preEocBad b rest hc hx he⟩
  case laLo => exact ⟨_, .laLo b rest hc hx⟩
  case laHi =>
    cases he : s.params.laEarlyCommit with
    | false => exact ⟨_, .laHi b rest hc hx he⟩
    | true => exact ⟨_, .laHiEarly b rest hc hx he⟩
  case laEoc =>
    rcases heoc with he | he
    · exact ⟨_, .laEocGood b rest hc hx he⟩
    · exact ⟨_, .laEocBad b rest hc hx he⟩
  case pfData => exact ⟨_, .pfData b rest hc hx⟩
  case pfEoc =>
    rcases heoc with he | he
    · exact ⟨_, .pfEocGood b rest hc hx he⟩
    · exact ⟨_, .pfEocBad b rest hc hx he⟩
  case pmCount =>
    rcases lt_or_ge s.params.cap b.toNat with ho | hcap
    · exact ⟨_, .pmCountOver b rest hc hx ho⟩
    · rcases byte_eq_zero_or_pos b with h0 | hpos
      · exact ⟨_, .pmCountZero b rest hc hx h0⟩
      · exact ⟨_, .pmCount b rest hc hx hpos hcap⟩
  case pmData =>
    obtain ⟨-, hlt⟩ := hi.pmData hc
    rcases idx_succ_cases hlt with ⟨-, hlast⟩ | ⟨-, hmore⟩
    · exact ⟨_, .pmDataLast b rest hc hx hlast⟩
    · exact ⟨_, .pmData b rest hc hx hmore⟩
  case pmEoc =>
    rcases heoc with he | he
    · rcases byte_eq_zero_or_pos s.cnt with h0 | hpos
      · exact ⟨_, .pmEocZero b rest hc hx he h0⟩
      · exact ⟨_, .pmEocGood b rest hc hx he hpos⟩
    · exact ⟨_, .pmEocBad b rest hc hx he⟩
  case rmCount => exact ⟨_, .rmCount b rest hc hx⟩
  case rmEoc =>
    rcases heoc with he | he
    · rcases byte_eq_zero_or_pos s.cnt with h0 | hpos
      · exact ⟨_, .rmEocZero b rest hc hx he h0⟩
      · exact ⟨_, .rmEocGood b rest hc hx he hpos⟩
    · exact ⟨_, .rmEocBad b rest hc hx he⟩

/-- In a sending state the table has a row when `tx` accepts a byte. -/
theorem State.Inv.exists_row_of_tx {s : State} (hi : s.Inv) (hp : s.cs.port = some .tx) (htx : s.txReady = true) :
    ∃ t, Row s t := by
  cases hc : s.cs <;> simp only [hc, CommandState.port, reduceCtorEq, Option.some.injEq] at hp
  case gdId => exact ⟨_, .gdId hc htx⟩
  case gdFreq => exact ⟨_, .gdFreq hc htx⟩
  case rfSend => exact ⟨_, .rfSend hc htx⟩
  case rmSend =>
    obtain ⟨-, hle⟩ := hi.rmSend hc
    rcases eq_or_ne s.idx s.cnt with he | hne
    · exact ⟨_, .rmSendLast hc htx he⟩
    · exact ⟨_, .rmSend hc htx (by bv_omega)⟩
  case ackInsync => exact ⟨_, .ackInsync hc htx⟩
  case ackOk => exact ⟨_, .ackOk hc htx⟩

/-- In a state that accesses flash the table has a row when flash can complete a request. -/
theorem State.Inv.exists_row_of_flash {s : State} (hi : s.Inv) (hp : s.cs.port = some .flash)
    (hf : s.flashReady = true) : ∃ t, Row s t := by
  cases hc : s.cs <;> simp only [hc, CommandState.port, reduceCtorEq, Option.some.injEq] at hp
  case bgValid =>
    cases hv : Params.imageValid s.params s.flash with
    | false => exact ⟨_, .bgValidFalse hc hf hv⟩
    | true => exact ⟨_, .bgValidTrue hc hf hv⟩
  case ceErase => exact ⟨_, .ceErase hc hf⟩
  case peErase => exact ⟨_, .peErase hc hf⟩
  case rfRead => exact ⟨_, .rfRead hc hf⟩
  case pfWrite => exact ⟨_, .pfWrite hc hf⟩
  case pmWrite =>
    have hb := hi.idx_lt_buf (hi.pmWrite hc)
    obtain ⟨-, hlt⟩ := hi.pmWrite hc
    rcases idx_succ_cases hlt with ⟨-, hlast⟩ | ⟨-, hmore⟩
    · exact ⟨_, .pmWriteLast _ hc hf (List.getElem?_eq_getElem hb) hlast⟩
    · exact ⟨_, .pmWrite _ hc hf (List.getElem?_eq_getElem hb) hmore⟩
  case rmRead => exact ⟨_, .rmRead hc hf⟩

/-- Under the invariant the table has a row for every state in which the block does not wait. -/
theorem State.Inv.exists_row {s : State} (hi : s.Inv) (hw : s.waits = false) : ∃ t, Row s t := by
  cases hp : s.cs.port with
  | none =>
    cases hc : s.cs <;> simp only [hc, CommandState.port, reduceCtorEq] at hp
    case bgEnterCmd => exact ⟨_, .bgEnterCmd hc⟩
    case handedOff | resetPending => simp [State.waits, CommandState.port, hc] at hw
  | some p =>
    cases p
    case rx =>
      obtain ⟨b, rest, hx⟩ := State.rx_cons_of_not_waits hw hp
      exact hi.exists_row_of_rx hp hx
    case tx => exact hi.exists_row_of_tx hp (State.txReady_of_not_waits hw hp)
    case flash => exact hi.exists_row_of_flash hp (State.flashReady_of_not_waits hw hp)
    all_goals cases hc : s.cs <;> simp only [hc, CommandState.port, reduceCtorEq, Option.some.injEq] at hp
    case rstcause.bgFault =>
      cases hf : s.rc.flashFault with
      | false => exact ⟨_, .bgFaultClear hc hf⟩
      | true => exact ⟨_, .bgFaultSet hc hf⟩
    case rstcause.rbSet => exact ⟨_, .rbSet hc⟩
    case force.bgForce =>
      cases hf : s.force with
      | false => exact ⟨_, .bgForceInactive hc hf⟩
      | true => exact ⟨_, .bgForceActive hc hf⟩
    case sc.bgScFreq => exact ⟨_, .bgScFreq hc⟩
    case sc.bgScVer => exact ⟨_, .bgScVer hc⟩
    case handoff.bgJump => exact ⟨_, .bgJump hc⟩

/-- Settles O14: a row that applies is the block's step, and where the block does not wait some row applies. -/
theorem stepIsTableRow : Obligations.StepIsTableRow := by
  intro s hi he hw
  have hrows : ∀ t, Row s t → step s = .next t := fun t h => (step_of_env_nil hi.params he).trans (h.blockStep_eq hi)
  obtain ⟨t, hrow⟩ := hi.exists_row hw
  exact ⟨⟨t, hrows t hrow, hrow⟩, hrows⟩

end Sys2Proof.Machine
end

section
/-! `GET_SYNC`, `GET_DEVICE` and `REBOOT` (spec/42_sync_device.md R180, R181; spec/46_reboot.md R240): the two sends of
`GET_DEVICE`, and what the three commands leave unchanged. -/

namespace Sys2Proof.Machine

/-! ### Steps that touch the serial streams only -/

/-- From `s` to `t` nothing changed but `CS`, the input stream and the observation, which holds the output stream. -/
def SerialOnly (s t : State) : Prop := t = { s with cs := t.cs, rx := t.rx, trace := t.trace }

theorem SerialOnly.flash_eq {s t : State} (h : SerialOnly s t) : t.flash = s.flash :=
  (congrArg State.flash h :)

theorem serialOnly_goto (s : State) (c : CommandState) : SerialOnly s (s.goto c) := rfl

/-- A step that sends one byte, an acknowledgement among them. -/
theorem serialOnly_of_send {b : Byte} {c : CommandState} {s t : State} (h : txByte b (goTo c) s = .next t) :
    SerialOnly s t := by
  rcases txByte_next.1 h with ⟨-, rfl⟩ | ⟨-, hgo⟩
  · rfl
  · obtain rfl := goTo_next.1 hgo
    rfl

/-- A terminator check, whether it waits, goes on or aborts. -/
theorem serialOnly_of_preEoc {c : CommandState} {s t : State} (h : preEoc c s = .next t) : SerialOnly s t := by
  rcases preEoc_next.1 h with ⟨-, rfl⟩ | ⟨_, _, -, ⟨-, rfl⟩ | ⟨-, rfl⟩⟩ <;> rfl

/-! ### The three commands -/

theorem execGetSync_serialOnly {s t : State} (h : execGetSync s = .next t) : SerialOnly s t := by
  rcases execGetSync_next h with ⟨-, rfl⟩ | ⟨-, heoc⟩ | ⟨-, hsend⟩ | ⟨-, hsend⟩
  · exact serialOnly_goto s _
  · exact serialOnly_of_preEoc heoc
  all_goals exact serialOnly_of_send hsend

theorem execGetDevice_serialOnly {s t : State} (h : execGetDevice s = .next t) : SerialOnly s t := by
  rcases execGetDevice_next h with ⟨-, rfl⟩ | ⟨-, heoc⟩ | ⟨-, hsend⟩ | ⟨-, hsend⟩ | ⟨-, hsend⟩ | ⟨-, hsend⟩
  · exact serialOnly_goto s _
  · exact serialOnly_of_preEoc heoc
  all_goals exact serialOnly_of_send hsend

/-- A step of `REBOOT` is its dispatch or `RB_SET`, and neither takes a byte. -/
theorem execReboot_frame {s t : State} (h : execReboot s = .next t) :
    t = { s with cs := t.cs, rc := { s.rc with swReset := t.rc.swReset }, resetRequest := t.resetRequest,
                 trace := t.trace } := by
  rcases execReboot_next h with ⟨-, rfl⟩ | ⟨-, hset⟩
  · rfl
  · obtain rfl := goTo_next.1 hset
    rfl

/-! ### The obligations -/

/-- Settles O31: the two sends of `GET_DEVICE`. -/
theorem getDeviceSteps : Obligations.GetDeviceSteps := fun _ htx => ⟨(exec_gdId · htx), (exec_gdFreq · htx)⟩

/-- Settles O39: every step of `GET_SYNC` and `GET_DEVICE` touches the serial streams only, and `REBOOT` beside its
dispatch only sets `SW_RESET` and the reset request. -/
theorem quietCommandsFrame : Obligations.QuietCommandsFrame := by
  refine fun s t => ⟨fun i hi h => ?_, fun h => ?_⟩
  · have hserial : SerialOnly s t := by
      rcases List.mem_pair.1 hi with rfl | rfl
      · exact execGetSync_serialOnly h
      · exact execGetDevice_serialOnly h
    exact ⟨hserial, fun _ => by rw [hserial.flash_eq]⟩
  · have hframe := execReboot_frame h
    have hflash : t.flash = s.flash := by rw [hframe]
    exact ⟨hframe, fun _ => by rw [hflash]⟩

end Sys2Proof.Machine
end

section
/-! `CHIP_ERASE` and `PARAM_ERASE` (spec/43_erase.md R190, R191): what the two erases leave unchanged. -/

namespace Sys2Proof.Machine

/-- From `s` to `t` nothing changed but `CS`, the serial streams, the observation and flash, and flash only inside
`region` and only in the command state `c`. -/
def ErasesOnly (region : Region) (c : CommandState) (s t : State) : Prop :=
  t = { s with cs := t.cs, rx := t.rx, trace := t.trace, flash := t.flash } ∧
    (∀ a < 65536, region.has a = false → t.flash.read a = s.flash.read a) ∧
    (s.cs ≠ c → ∀ a, t.flash.read a = s.flash.read a)

/-- A step that touches the serial streams only erases nothing. -/
theorem SerialOnly.erasesOnly {region : Region} {c : CommandState} {s t : State} (h : SerialOnly s t) :
    ErasesOnly region c s t :=
  ⟨h.trans (by rw [h.flash_eq]), fun _ _ _ => by rw [h.flash_eq], fun _ _ => by rw [h.flash_eq]⟩

/-- The erase itself, in its command state, whether it waits for the flash driver or fills the region. -/
theorem erasesOnly_of_flashErase {r : RegionName} {next : CommandState} {s t : State}
    (h : flashErase r (goTo next) s = .next t) : ErasesOnly (Params.region s.params r) s.cs s t := by
  rcases flashErase_next.1 h with ⟨-, rfl⟩ | ⟨-, hgo⟩
  · exact (show SerialOnly t t from rfl).erasesOnly
  · obtain rfl := goTo_next.1 hgo
    refine ⟨rfl, fun a ha hout => ?_, fun hne => absurd rfl hne⟩
    simp [Memory.read_fill _ _ _ ha, hout]

theorem execChipErase_erasesOnly {s t : State} (h : execChipErase s = .next t) :
    ErasesOnly s.params.appRegion .ceErase s t := by
  rcases execChipErase_next h with ⟨-, rfl⟩ | ⟨-, heoc⟩ | ⟨hc, herase⟩ | ⟨-, hsend⟩ | ⟨-, hsend⟩
  · exact (serialOnly_goto s _).erasesOnly
  · exact (serialOnly_of_preEoc heoc).erasesOnly
  · exact hc ▸ erasesOnly_of_flashErase herase
  all_goals exact (serialOnly_of_send hsend).erasesOnly

theorem execParamErase_erasesOnly {s t : State} (h : execParamErase s = .next t) :
    ErasesOnly s.params.paramRegion .peErase s t := by
  rcases execParamErase_next h with ⟨-, rfl⟩ | ⟨-, heoc⟩ | ⟨hc, herase⟩ | ⟨-, hsend⟩ | ⟨-, hsend⟩
  · exact (serialOnly_goto s _).erasesOnly
  · exact (serialOnly_of_preEoc heoc).erasesOnly
  · exact hc ▸ erasesOnly_of_flashErase herase
  all_goals exact (serialOnly_of_send hsend).erasesOnly

/-- Settles O40: every step of an erase but the erase itself touches the serial streams only, and the erase fills its
own region and no other address. -/
theorem eraseFrame : Obligations.EraseFrame := fun _ _ => ⟨execChipErase_erasesOnly, execParamErase_erasesOnly⟩

end Sys2Proof.Machine
end

section
/-! Programming, loading the address and reading back (spec/45_multi.md R224): three frames sent one after another, each
starting where the one before it ended. -/

namespace Sys2Proof.Machine

/-! ### One frame after another -/

theorem reaches_inv {n : Nat} {s t : State} (hi : s.Inv) (hr : Reaches n s t) : t.Inv := by
  induction n generalizing s with
  | zero => cases hr; exact hi
  | succ n ih =>
    obtain ⟨u, hu, hr⟩ := hr
    exact ih (step_inv hi hu) hr

/-- The block is in its command loop between two frames, every port able to complete. -/
structure State.Listens (s : State) : Prop where
  inv : s.Inv
  ready : s.Ready
  idle : s.cs = .idle

/-- Every well-formed frame but `REBOOT` leads to a state that can take the next one, with the cursor, flash and response
of its rule (spec/41_framing_dispatch.md R160). -/
theorem State.Listens.frame {s : State} {f : Frame} {rest : List Byte} (hs : s.Listens) (hne : f.instr ≠ .reboot)
    (hf : f.wf s.params.cap = true) (hx : s.rx = encode s.params f ++ rest) :
    ∃ t, Reaches (frameSteps f) s t ∧ t.Listens ∧ t.params = s.params ∧ t.rx = rest ∧ t.cur = s.cursorAfter f ∧
      t.flash = s.flashAfter f ∧ t.sent = s.sent ++ s.response f := by
  obtain ⟨hi, hr, hc⟩ := hs
  obtain ⟨l, hcur, hrun⟩ := frame_reaches hi hr hc hf hx
  exact ⟨_, hrun, ⟨reaches_inv hi hrun, ⟨hr.launched, hr.env, hr.tx, hr.flash⟩, if_neg hne⟩, rfl, rfl, hcur, rfl,
    s.afterFrame_sent f rest⟩

/-! ### The operands of the three frames -/

/-- A count byte holds the length of a payload that fits the transfer buffer (spec/30_encoding.md R119). -/
theorem toNat_countByte {p : Params} {payload : List Byte} (hp : p.wf = true) (hlen : payload.length ≤ p.cap) :
    (BitVec.ofNat 8 payload.length).toNat = payload.length := by
  obtain ⟨-, hcap⟩ := Params.cap_bounds hp
  exact Nat.mod_eq_of_lt (by omega)

theorem progMultiFrame_wf {p : Params} {payload : List Byte} (hp : p.wf = true) (hlen : payload.length ≤ p.cap) :
    (progMultiFrame payload).wf p.cap = true := by
  simp [progMultiFrame, Frame.wf, Instr.format, Format.argsOk, toNat_countByte hp hlen, hlen]

/-- `LOAD_ADDRESS A` carries `A` (spec/30_encoding.md R110, R118). -/
theorem address_loadAddressFrame (a : Addr) : (loadAddressFrame a).address = some a := by
  show some (assemble (a.extractLsb' 0 8) (a.extractLsb' 8 8)) = some a
  rw [assemble_eq_append, BitVec.extractLsb'_append_extractLsb'_eq_extractLsb' (by rfl), BitVec.extractLsb'_eq_self]

/-! ### Reading back -/

/-- Bytes programmed over addresses where `FLASH_PROGRAM` leaves what it is given are read back as they were; no more of
them than there are addresses. -/
theorem bytesAt_programAll {p : Params} {m : Memory} {a : Addr} {vs : List Byte} (hm : m.wf) (hlen : vs.length ≤ 65536)
    (hlaw : ∀ i v, vs[i]? = some v → ∀ old, Params.flashProgram p (a + BitVec.ofNat 16 i) old v = v) :
    bytesAt (programAll p m a vs) a vs.length = vs := by
  refine List.ext_getElem (by simp [bytesAt]) fun i _ hi => ?_
  have hv := List.getElem?_eq_getElem hi
  have hread := programAll_read (p := p) (a := a) hm hlen hv
  rw [hlaw i _ hv] at hread
  simpa [bytesAt] using hread

/-- Settles O48: the payload is programmed from the cursor on, `LOAD_ADDRESS` moves the cursor back to where it was, and
`READ_MULTI` reads as many bytes from there. -/
theorem roundTrip : Obligations.RoundTrip := by
  intro s payload rest hi hr hc hlen hlaw hx
  obtain ⟨-, hcap⟩ := Params.cap_bounds hi.params
  have hcount := toNat_countByte hi.params hlen
  rw [List.append_assoc, List.append_assoc] at hx
  obtain ⟨u, hrun₁, hu, hparams₁, hx₁, -, hflash₁, hsent₁⟩ :=
    State.Listens.frame ⟨hi, hr, hc⟩ (by nofun) (progMultiFrame_wf hi.params hlen) hx
  rw [← hparams₁] at hx₁
  obtain ⟨v, hrun₂, hv, hparams₂, hx₂, hcur₂, hflash₂, hsent₂⟩ := hu.frame (by nofun) (by rfl) hx₁
  rw [← hparams₂] at hx₂
  obtain ⟨t, hrun₃, ht, -, hx₃, -, -, hsent₃⟩ := hv.frame (by nofun) (by rfl) hx₂
  have hcur : v.cur = s.cur := by
    rw [hcur₂]
    exact congrArg (·.getD u.cur) (address_loadAddressFrame s.cur)
  have hflash : v.flash = programAll s.params s.flash s.cur payload := hflash₂.trans hflash₁
  have hread : v.response (readMultiFrame (BitVec.ofNat 8 payload.length)) = payload ++ Params.ack s.params := by
    show bytesAt v.flash v.cur (BitVec.ofNat 8 payload.length).toNat ++ Params.ack v.params = _
    rw [hcount, hcur, hflash, bytesAt_programAll hi.flash (by omega) hlaw, hparams₂, hparams₁]
  have hack : u.response (loadAddressFrame s.cur) = Params.ack s.params := congrArg Params.ack hparams₁
  refine ⟨_, t, reaches_trans (reaches_trans hrun₁ hrun₂) hrun₃, ht.idle, hx₃, ?_⟩
  rw [hsent₃, hread, hsent₂, hack, hsent₁, ← List.append_assoc]
  rfl

end Sys2Proof.Machine
end

section
/-! `LOAD_ADDRESS`, `PROG_FLASH`, `READ_FLASH` and `READ_MULTI` (spec/44_cursor_single.md R200 to R202, spec/45_multi.md
R221): what the four commands leave unchanged. Each step touches the serial streams only, or does so after one write to the
registers or to flash. -/

namespace Sys2Proof.Machine

/-! ### The shared operations, apart from what the command does with their result -/

/-- A step that touches the serial streams only is an update of three fields. -/
theorem SerialOnly.eq_update {s t : State} (h : SerialOnly s t) :
    ∃ c rx trace, t = { s with cs := c, rx := rx, trace := trace } :=
  ⟨_, _, _, h⟩

theorem serialOnly_of_goTo {c : CommandState} {s u t : State} (h : goTo c u = .next t) (hu : SerialOnly s u) :
    SerialOnly s t := by
  obtain ⟨_, _, _, rfl⟩ := hu.eq_update
  rw [goTo_next.1 h]
  rfl

theorem serialOnly_or_of_rxByte {k : Byte → State → Outcome} {s t : State} (h : rxByte k s = .next t) :
    SerialOnly s t ∨ ∃ b rest, k b ({ s with rx := rest }.emit (.rx b)) = .next t := by
  rcases rxByte_next.1 h with ⟨-, rfl⟩ | ⟨b, rest, -, hk⟩
  · exact .inl rfl
  · exact .inr ⟨b, rest, hk⟩

theorem serialOnly_or_of_takeEoc {cause : AbortCause} {k : State → Outcome} {s t : State}
    (h : takeEoc cause k s = .next t) :
    SerialOnly s t ∨ ∃ rest, k ({ s with rx := rest }.emit (.rx s.params.eoc)) = .next t := by
  rcases takeEoc_next.1 h with ⟨-, rfl⟩ | ⟨b, rest, -, ⟨rfl, hk⟩ | ⟨-, rfl⟩⟩
  · exact .inl rfl
  · exact .inr ⟨rest, hk⟩
  · exact .inl rfl

/-! ### The four commands -/

theorem execLoadAddress_cases {s t : State} (h : execLoadAddress s = .next t) :
    SerialOnly s t ∨ (s.cs = .laLo ∧ ∃ b, SerialOnly { s with arg := setLowByte s.arg b } t) ∨
      (s.cs = .laHi ∧ ∃ b, SerialOnly (loadHighByte b s) t) ∨
      (s.cs = .laEoc ∧ SerialOnly { s with cur := s.arg } t) := by
  rcases execLoadAddress_next h with ⟨-, rfl⟩ | ⟨hc, hrx⟩ | ⟨hc, hrx⟩ | ⟨hc, heoc⟩ | ⟨-, hsend⟩ | ⟨-, hsend⟩
  · exact .inl (serialOnly_goto s _)
  · exact (serialOnly_or_of_rxByte hrx).imp_right fun ⟨b, _, hgo⟩ => .inl ⟨hc, b, serialOnly_of_goTo hgo rfl⟩
  · exact (serialOnly_or_of_rxByte hrx).imp_right fun ⟨b, _, hgo⟩ => .inr (.inl ⟨hc, b, serialOnly_of_goTo hgo rfl⟩)
  · exact (serialOnly_or_of_takeEoc heoc).imp_right fun ⟨_, hgo⟩ => .inr (.inr ⟨hc, serialOnly_of_goTo hgo rfl⟩)
  all_goals exact .inl (serialOnly_of_send hsend)

theorem execProgFlash_cases {s t : State} (h : execProgFlash s = .next t) :
    SerialOnly s t ∨ (s.cs = .pfData ∧ ∃ b, SerialOnly { s with data := b } t) ∨
      (s.cs = .pfWrite ∧ SerialOnly (s.programByte s.cur s.data).advance t) := by
  rcases execProgFlash_next h with ⟨-, rfl⟩ | ⟨hc, hrx⟩ | ⟨-, heoc⟩ | ⟨hc, hwrite⟩ | ⟨-, hsend⟩ | ⟨-, hsend⟩
  · exact .inl (serialOnly_goto s _)
  · exact (serialOnly_or_of_rxByte hrx).imp_right fun ⟨b, _, hgo⟩ => .inl ⟨hc, b, serialOnly_of_goTo hgo rfl⟩
  · exact .inl ((serialOnly_or_of_takeEoc heoc).elim id fun ⟨_, hgo⟩ => serialOnly_of_goTo hgo rfl)
  · rcases memWrite_next.1 hwrite with ⟨-, rfl⟩ | ⟨-, hgo⟩
    · exact .inl rfl
    · exact .inr (.inr ⟨hc, serialOnly_of_goTo hgo rfl⟩)
  all_goals exact .inl (serialOnly_of_send hsend)

theorem execReadFlash_cases {s t : State} (h : execReadFlash s = .next t) :
    SerialOnly s t ∨ (s.cs = .rfRead ∧ SerialOnly { s.advance with data := s.flash.read s.cur.toNat } t) := by
  rcases execReadFlash_next h with ⟨-, rfl⟩ | ⟨-, heoc⟩ | ⟨hc, hread⟩ | ⟨-, hsend⟩ | ⟨-, hsend⟩ | ⟨-, hsend⟩
  · exact .inl (serialOnly_goto s _)
  · exact .inl (serialOnly_of_preEoc heoc)
  · rcases memRead_next.1 hread with ⟨-, rfl⟩ | ⟨-, hgo⟩
    · exact .inl rfl
    · exact .inr ⟨hc, serialOnly_of_goTo hgo rfl⟩
  all_goals exact .inl (serialOnly_of_send hsend)

theorem execReadMulti_cases {s t : State} (h : execReadMulti s = .next t) :
    SerialOnly s t ∨ (s.cs = .rmCount ∧ ∃ n, SerialOnly { s with cnt := n } t) ∨
      (s.cs = .rmEoc ∧ SerialOnly { s with idx := 0 } t) ∨
      (s.cs = .rmRead ∧ SerialOnly { s.advance.nextIndex with data := s.flash.read s.cur.toNat } t) := by
  rcases execReadMulti_next h with
    ⟨-, rfl⟩ | ⟨hc, hrx⟩ | ⟨hc, heoc⟩ | ⟨hc, hread⟩ | ⟨-, hsend⟩ | ⟨-, hsend⟩ | ⟨-, hsend⟩
  · exact .inl (serialOnly_goto s _)
  · exact (serialOnly_or_of_rxByte hrx).imp_right fun ⟨n, _, hgo⟩ => .inl ⟨hc, n, serialOnly_of_goTo hgo rfl⟩
  · exact (serialOnly_or_of_takeEoc heoc).imp_right fun ⟨_, hgo⟩ => .inr (.inl ⟨hc, serialOnly_of_goTo hgo rfl⟩)
  · rcases memRead_next.1 hread with ⟨-, rfl⟩ | ⟨-, hgo⟩
    · exact .inl rfl
    · exact .inr (.inr (.inr ⟨hc, serialOnly_of_goTo hgo rfl⟩))
  · rcases txByte_next.1 hsend with ⟨-, rfl⟩ | ⟨-, hgo⟩
    · exact .inl rfl
    · exact .inl (serialOnly_of_goTo hgo rfl)
  all_goals exact .inl (serialOnly_of_send hsend)

/-! ### The obligations

`loadAddressFrame` and `progFlashFrame` are the model's names for two frames on the wire, so the statements of these names
are settled in a namespace of their own. -/

/-- Settles O41: beside the serial streams `LA_LO` writes `ARG`, `LA_HI` writes `ARG` and, only in the variant
`LA_EARLY_COMMIT`, `CUR`, and `LA_EOC` writes `CUR`. -/
theorem Frames.loadAddressFrame : Obligations.LoadAddressFrame := by
  intro s t h
  rcases execLoadAddress_cases h with hs | ⟨hc, b, hs⟩ | ⟨hc, b, hs⟩ | ⟨hc, hs⟩ <;>
    obtain ⟨c, rx, trace, rfl⟩ := hs.eq_update
  · exact ⟨rfl, fun _ => rfl, fun _ => rfl, fun _ _ => rfl⟩
  · exact ⟨rfl, fun _ => rfl, fun hne => absurd (by simp [hc]) hne, fun _ _ => rfl⟩
  · exact ⟨rfl, fun _ => rfl, fun hne => absurd (by simp [hc]) hne, fun _ hno => if_neg fun he => hno ⟨hc, he⟩⟩
  · exact ⟨rfl, fun _ => rfl, fun _ => rfl, fun hne _ => absurd hc hne⟩

/-- Settles O42: beside the serial streams `RF_READ` and `RM_READ` write `DATA` and `CUR`, and the steps of `READ_MULTI`
the count and the index; none writes flash. -/
theorem readingCommandsFrame : Obligations.ReadingCommandsFrame := by
  refine fun s t => ⟨fun h => ?_, fun h => ?_⟩
  · rcases execReadFlash_cases h with hs | ⟨hc, hs⟩ <;> obtain ⟨c, rx, trace, rfl⟩ := hs.eq_update
    · exact ⟨rfl, fun _ => rfl, fun _ => ⟨rfl, rfl⟩⟩
    · exact ⟨rfl, fun _ => rfl, fun hne => absurd hc hne⟩
  · rcases execReadMulti_cases h with hs | ⟨-, n, hs⟩ | ⟨-, hs⟩ | ⟨hc, hs⟩ <;>
      obtain ⟨c, rx, trace, rfl⟩ := hs.eq_update
    iterate 3 exact ⟨rfl, fun _ => rfl, fun _ => ⟨rfl, rfl⟩⟩
    exact ⟨rfl, fun _ => rfl, fun hne => absurd hc hne⟩

/-- Settles O43: beside the serial streams `PF_DATA` writes `DATA`, and `PF_WRITE` programs the cursor's address and
advances the cursor. -/
theorem Frames.progFlashFrame : Obligations.ProgFlashFrame := by
  intro s t hf h
  rcases execProgFlash_cases h with hs | ⟨hc, b, hs⟩ | ⟨hc, hs⟩ <;> obtain ⟨c, rx, trace, rfl⟩ := hs.eq_update
  · exact ⟨rfl, fun _ _ => rfl, fun _ => ⟨rfl, fun _ => rfl⟩, fun _ => rfl⟩
  · exact ⟨rfl, fun _ _ => rfl, fun _ => ⟨rfl, fun _ => rfl⟩, fun hne => absurd hc hne⟩
  · refine ⟨rfl, fun a ha => ?_, fun hne => absurd hc hne, fun _ => rfl⟩
    exact (Memory.read_program s.params hf s.cur s.data a).trans (if_neg ha)

end Sys2Proof.Machine
end

section
/-! `PROG_MULTI` (spec/45_multi.md R220): what a step of the command leaves unchanged. Each step touches the serial streams
only, or does so after one write to the registers, the buffer or flash. -/

namespace Sys2Proof.Machine

theorem progMultiCount_cases {s t : State} (h : progMultiCount s = .next t) :
    SerialOnly s t ∨ ∃ n, SerialOnly { s with cnt := n, idx := 0 } t := by
  rcases progMultiCount_next.1 h with ⟨-, rfl⟩ | ⟨n, _, -, ⟨-, rfl⟩ | ⟨-, rfl⟩⟩
  · exact .inl rfl
  all_goals exact .inr ⟨n, rfl⟩

theorem progMultiData_cases {s t : State} (h : progMultiData s = .next t) :
    SerialOnly s t ∨ ∃ b, SerialOnly { s with buf := s.buf.set s.idx.toNat b, idx := s.idx + 1 } t := by
  rcases progMultiData_next.1 h with ⟨-, rfl⟩ | ⟨b, _, -, -, rfl⟩
  · exact .inl rfl
  · exact .inr ⟨b, rfl⟩

theorem progMultiEoc_cases {s t : State} (h : progMultiEoc s = .next t) :
    SerialOnly s t ∨ SerialOnly { s with idx := 0 } t := by
  rcases progMultiEoc_next.1 h with ⟨-, rfl⟩ | ⟨_, _, -, ⟨-, rfl⟩ | ⟨-, rfl⟩⟩
  · exact .inl rfl
  · exact .inr rfl
  · exact .inl rfl

theorem progMultiWrite_cases {s t : State} (h : progMultiWrite s = .next t) :
    SerialOnly s t ∨ ∃ v, SerialOnly (s.programByte s.cur v).advance.nextIndex t := by
  obtain ⟨v, -, ⟨-, rfl⟩ | ⟨-, rfl⟩⟩ := progMultiWrite_next.1 h
  · exact .inl rfl
  · exact .inr ⟨v, rfl⟩

theorem execProgMulti_cases {s t : State} (h : execProgMulti s = .next t) :
    SerialOnly s t ∨ (s.cs = .pmCount ∧ ∃ n, SerialOnly { s with cnt := n, idx := 0 } t) ∨
      (s.cs = .pmData ∧ ∃ b, SerialOnly { s with buf := s.buf.set s.idx.toNat b, idx := s.idx + 1 } t) ∨
      (s.cs = .pmEoc ∧ SerialOnly { s with idx := 0 } t) ∨
      (s.cs = .pmWrite ∧ ∃ v, SerialOnly (s.programByte s.cur v).advance.nextIndex t) := by
  rcases execProgMulti_next h with
    ⟨-, rfl⟩ | ⟨hc, hcount⟩ | ⟨hc, hdata⟩ | ⟨hc, heoc⟩ | ⟨hc, hwrite⟩ | ⟨-, hsend⟩ | ⟨-, hsend⟩
  · exact .inl (serialOnly_goto s _)
  · exact (progMultiCount_cases hcount).imp_right fun hs => .inl ⟨hc, hs⟩
  · exact (progMultiData_cases hdata).imp_right fun hs => .inr (.inl ⟨hc, hs⟩)
  · exact (progMultiEoc_cases heoc).imp_right fun hs => .inr (.inr (.inl ⟨hc, hs⟩))
  · exact (progMultiWrite_cases hwrite).imp_right fun hs => .inr (.inr (.inr ⟨hc, hs⟩))
  all_goals exact .inl (serialOnly_of_send hsend)

/-! ### The obligation

`progMultiFrame` is the model's name for a frame on the wire, so the statement of this name is settled in a namespace of
its own. -/

/-- Settles O44: beside the serial streams `PM_COUNT` writes the count and the index, `PM_DATA` the buffer at the index,
`PM_EOC` the index, and `PM_WRITE` programs the cursor's address and advances the cursor and the index. -/
theorem Frames.progMultiFrame : Obligations.ProgMultiFrame := by
  intro s t hf h
  rcases execProgMulti_cases h with hs | ⟨hc, n, hs⟩ | ⟨hc, b, hs⟩ | ⟨-, hs⟩ | ⟨hc, v, hs⟩ <;>
    obtain ⟨c, rx, trace, rfl⟩ := hs.eq_update
  · exact ⟨rfl, fun _ _ => rfl, fun _ => ⟨rfl, fun _ => rfl⟩, fun _ => rfl, fun _ _ => rfl, fun _ => rfl⟩
  · exact ⟨rfl, fun _ _ => rfl, fun _ => ⟨rfl, fun _ => rfl⟩, fun _ => rfl, fun _ _ => rfl, fun hne => absurd hc hne⟩
  · exact ⟨rfl, fun _ _ => rfl, fun _ => ⟨rfl, fun _ => rfl⟩, fun hne => absurd hc hne,
      fun _ hj => List.getElem?_set_ne hj.symm, fun _ => rfl⟩
  · exact ⟨rfl, fun _ _ => rfl, fun _ => ⟨rfl, fun _ => rfl⟩, fun _ => rfl, fun _ _ => rfl, fun _ => rfl⟩
  · refine ⟨rfl, fun a ha => ?_, fun hne => absurd hc hne, fun _ => rfl, fun _ _ => rfl, fun _ => rfl⟩
    exact (Memory.read_program s.params hf s.cur v a).trans (if_neg ha)

end Sys2Proof.Machine
end

section
/-! A reset inside the commit phase of `PROG_MULTI` (spec/45_multi.md R222, spec/70_reset_and_hazards.md R280, R290): the
environment lets the block take its steps one by one, and the block's run up to the `j`-th program request. -/

namespace Sys2Proof.Machine

/-! ### The block's step and the environment's pending actions -/

/-- The state with other pending actions of the environment. -/
def State.withEnv (s : State) (e : List EnvAction) : State := { s with env := e }

@[simp] theorem State.withEnv_cs (s : State) (e : List EnvAction) : (s.withEnv e).cs = s.cs := rfl
@[simp] theorem State.withEnv_rx (s : State) (e : List EnvAction) : (s.withEnv e).rx = s.rx := rfl
@[simp] theorem State.withEnv_params (s : State) (e : List EnvAction) : (s.withEnv e).params = s.params := rfl
@[simp] theorem State.withEnv_op (s : State) (e : List EnvAction) : (s.withEnv e).op = s.op := rfl
@[simp] theorem State.withEnv_buf (s : State) (e : List EnvAction) : (s.withEnv e).buf = s.buf := rfl
@[simp] theorem State.withEnv_idx (s : State) (e : List EnvAction) : (s.withEnv e).idx = s.idx := rfl

/-- The outcome with other pending actions in its next state. -/
def Outcome.withEnv (e : List EnvAction) : Outcome → Outcome
  | .next t => .next (t.withEnv e)
  | .fault r => .fault r
  | .refused r => .refused r

section
variable {s : State} {e : List EnvAction}

theorem Outcome.withEnv_ite {p : Prop} [Decidable p] {o₁ o₁' o₂ o₂' : Outcome} (h₁ : o₁' = Outcome.withEnv e o₁)
    (h₂ : o₂' = Outcome.withEnv e o₂) :
    (if p then o₁' else o₂') = Outcome.withEnv e (if p then o₁ else o₂) := by
  rw [h₁, h₂, apply_ite (Outcome.withEnv e)]

/-- A transaction on a port that holds unless it is ready. -/
theorem withEnv_ready {r : Bool} {o o' : Outcome} (ho : o' = Outcome.withEnv e o) :
    (if r then o' else hold (s.withEnv e)) = Outcome.withEnv e (if r then o else hold s) :=
  Outcome.withEnv_ite ho rfl

theorem rxByte_withEnv {k k' : Byte → State → Outcome}
    (hk : ∀ b u, k' b (u.withEnv e) = Outcome.withEnv e (k b u)) :
    rxByte k' (s.withEnv e) = Outcome.withEnv e (rxByte k s) := by
  cases hx : s.rx with
  | nil =>
    rw [rxByte_nil hx, rxByte_nil (by exact hx)]
    rfl
  | cons b rest =>
    rw [rxByte_cons hx, rxByte_cons (by exact hx)]
    exact hk b ({ s with rx := rest }.emit (.rx b))

theorem takeEoc_withEnv {cause : AbortCause} {k k' : State → Outcome}
    (hk : ∀ u, k' (u.withEnv e) = Outcome.withEnv e (k u)) :
    takeEoc cause k' (s.withEnv e) = Outcome.withEnv e (takeEoc cause k s) :=
  rxByte_withEnv fun _ u => Outcome.withEnv_ite (hk u) rfl

theorem intake_withEnv (hc : s.cs = .idle) :
    (intake (s.withEnv e)).outcome = Outcome.withEnv e (intake s).outcome := by
  unfold intake
  simp only [State.withEnv_rx, State.withEnv_params]
  cases s.rx with
  | nil => rfl
  | cons b rest =>
    cases hcl : s.params.classify b with
    | none => simp only [hcl]; rfl
    | some i =>
      simp only [hcl, Turn.outcome]
      rw [exec_idle i (by exact hc), exec_idle i (by exact hc)]
      rfl

theorem precheck_withEnv (hc : s.cs = .preEoc) :
    (precheck (s.withEnv e)).outcome = Outcome.withEnv e (precheck s).outcome := by
  unfold precheck
  simp only [State.withEnv_op, State.withEnv_params]
  cases s.params.classify s.op with
  | none => rfl
  | some i =>
    cases i <;> simp only [Turn.outcome, exec, execGetSync, execGetDevice, execChipErase, execLoadAddress,
      execProgFlash, execReadFlash, execProgMulti, execReadMulti, execParamErase, execReboot, State.withEnv_cs, hc]
    case getSync | getDevice | chipErase | readFlash | paramErase => exact takeEoc_withEnv fun _ => rfl
    all_goals rfl

theorem progMultiWrite_withEnv : progMultiWrite (s.withEnv e) = Outcome.withEnv e (progMultiWrite s) := by
  unfold progMultiWrite
  simp only [State.withEnv_buf, State.withEnv_idx]
  cases s.buf[s.idx.toNat]? with
  | none => rfl
  | some v => exact withEnv_ready rfl

/-- The block's step neither reads nor changes the environment's pending actions. -/
theorem blockStep_withEnv : blockStep (s.withEnv e) = Outcome.withEnv e (blockStep s) := by
  unfold blockStep blockTurn
  simp only [State.withEnv_cs]
  cases hc : s.cs
  case idle => exact intake_withEnv hc
  case preEoc => exact precheck_withEnv hc
  all_goals simp only [Turn.outcome, exec, execGetDevice, execChipErase, execLoadAddress, execProgFlash, execReadFlash,
    execProgMulti, execReadMulti, execParamErase, execReboot, State.withEnv_cs, hc]
  case bgFault | bgForce | bgScFreq | bgScVer | bgJump | bgEnterCmd | rbSet | handedOff | resetPending => rfl
  case bgValid | gdId | gdFreq | ceErase | peErase | rfRead | rfSend | pfWrite | rmRead | rmSend | ackInsync | ackOk =>
    exact withEnv_ready rfl
  case laLo | laHi | pfData | rmCount => exact rxByte_withEnv fun _ _ => rfl
  case laEoc | pfEoc | pmEoc | rmEoc => exact takeEoc_withEnv fun _ => rfl
  case pmCount => exact rxByte_withEnv fun _ _ => Outcome.withEnv_ite rfl (Outcome.withEnv_ite rfl rfl)
  case pmData => exact rxByte_withEnv fun _ _ => Outcome.withEnv_ite rfl rfl
  case pmWrite => exact progMultiWrite_withEnv

end

/-! ### Runs under the environment's `run` marks -/

/-- A `run` mark lets the block take its step and leaves the actions behind it pending (log 4). -/
theorem step_run {s t : State} (hw : s.params.wf = true) (h : blockStep s = .next t) (e : List EnvAction) :
    step (s.withEnv (.run :: e)) = .next (t.withEnv e) :=
  (step_of_blockState (s := s.withEnv (.run :: e)) (u := s.withEnv e) hw rfl).trans (blockStep_withEnv.trans (congrArg (Outcome.withEnv e) h))

theorem BlockReaches.reaches_run {n : Nat} {s t : State} (h : BlockReaches n s t) (hw : s.params.wf = true)
    (e : List EnvAction) : Reaches n (s.withEnv (List.replicate n .run ++ e)) (t.withEnv e) := by
  induction n generalizing s with
  | zero => cases h; rfl
  | succ n ih =>
    obtain ⟨u, hu, hr⟩ := h
    exact reaches_succ.2 ⟨_, step_run hw hu _, ih hr (by rw [blockStep_params hu, hw])⟩

/-! ### A part of the commit phase -/

theorem byte_add_succ (b : Byte) (n : Nat) : b + BitVec.ofNat 8 (n + 1) = b + 1 + BitVec.ofNat 8 n := by
  rw [BitVec.add_assoc, Nat.add_comm, BitVec.ofNat_add]
  rfl

/-- `PM_WRITE` programs `vs`, the next of the staged bytes, with `k` more to come. -/
theorem progMulti_commits_next {vs done free : List Byte} {k : Nat} {s : State}
    (hc : s.cs = if s.idx = s.cnt then .ackInsync else .pmWrite) (hf : s.flashReady = true)
    (hbuf : s.buf = done ++ vs ++ free) (hidx : s.idx.toNat = done.length)
    (hcnt : s.cnt.toNat = s.idx.toNat + (vs.length + k)) :
    BlockReaches vs.length s { s with
      cs := if s.idx + BitVec.ofNat 8 vs.length = s.cnt then .ackInsync else .pmWrite
      cur := s.cur + BitVec.ofNat 16 vs.length, idx := s.idx + BitVec.ofNat 8 vs.length
      flash := programAll s.params s.flash s.cur vs, trace := s.trace ++ programEvents s.cur vs } := by
  induction vs generalizing done s with
  | nil =>
    cases s
    simp_all [BlockReaches, programAll]
  | cons v vs ih =>
    rw [List.length_cons, Nat.add_right_comm] at hcnt
    obtain ⟨hne, hnext, hleft⟩ := idx_succ_of_below hcnt
    rw [if_neg hne] at hc
    have hstep := exec_pmWrite hc hf (b := v) (by simp [hbuf, hidx])
    have hrest := ih (done := done ++ [v]) (s := { s with
      cs := if s.idx + 1 = s.cnt then .ackInsync else .pmWrite
      cur := s.cur + 1, idx := s.idx + 1
      flash := s.flash.write s.cur.toNat (Params.flashProgram s.params s.cur (s.flash.read s.cur.toNat) v)
      trace := s.trace ++ [.memWrite s.cur v] }) rfl hf (by simp [hbuf]) (hnext.trans (by simp [hidx])) hleft
    rw [List.length_cons, addr_add_succ, byte_add_succ]
    simp only [List.append_assoc, List.cons_append, List.nil_append] at hrest
    exact .owned hstep (by rw [hc]; rfl) hrest

@[simp] theorem Event.sentByte_rx (b : Byte) : (Event.rx b).sentByte = none := rfl

theorem encode_progMultiFrame (p : Params) (payload : List Byte) : encode p (progMultiFrame payload) =
    p.opcode .progMulti :: BitVec.ofNat 8 payload.length :: (payload ++ [p.eoc]) := rfl

/-- The block takes the bytes of a `PROG_MULTI` frame and programs the first `j` bytes of the payload; it has sent
nothing (spec/45_multi.md R220, R222). -/
theorem progMulti_programs_first {s : State} {payload rest : List Byte} {j : Nat} (hi : s.Inv)
    (hf : s.flashReady = true) (hc : s.cs = .idle) (hlen : payload.length ≤ s.params.cap) (hj : j ≤ payload.length)
    (hx : s.rx = encode s.params (progMultiFrame payload) ++ rest) :
    ∃ u, BlockReaches (payload.length + 3 + j) s u ∧ u.sent = s.sent ∧
      u.flash = programAll s.params s.flash s.cur (payload.take j) := by
  have hcount := toNat_countByte hi.params hlen
  have htake : (payload.take j).length = j := List.length_take_of_le hj
  rw [encode_progMultiFrame, List.cons_append, List.cons_append, List.append_assoc] at hx
  have hrecv := progMulti_receives hi.params hc hx hcount.symm (hcount.trans_le hlen) hi.buf
  have hrun := hrecv.trans (progMulti_commits_next (vs := payload.take j) (done := [])
    (free := payload.drop j ++ s.buf.drop payload.length) (k := payload.length - j)
    (by simp only [eq_comm (b := BitVec.ofNat 8 payload.length)]) hf (by simp [← List.append_assoc]) rfl
    (by simp [hcount, htake, hj]))
  rw [htake, Nat.add_comm] at hrun
  refine ⟨_, hrun, ?_, rfl⟩
  simp only [State.sent, List.filterMap_append, List.filterMap_cons, Event.sentByte_rx, List.filterMap_nil,
    rxEvents_sent, programEvents_sent, List.append_nil]

/-! ### The obligation -/

/-- Settles O49: the block has programmed the first `j` bytes when the reset comes, and the reset changes neither flash
nor the output stream. -/
theorem resetLeavesPrefix : Obligations.ResetLeavesPrefix := by
  intro s payload rest j kind hi hf hc hlen _ hj hk hx he
  obtain ⟨u, hrun, hsent, hflash⟩ := progMulti_programs_first hi hf hc hlen hj hx
  have hmarked := hrun.reaches_run hi.params [.reset kind]
  rw [← he] at hmarked
  obtain ⟨t, hstep, hcs, htflash, -, -, -, -, -, htsent, -⟩ :=
    resetEffect { u with env := [.reset kind] } kind [] rfl fun h => absurd h hk
  refine ⟨t, ?_, hcs, htsent.trans hsent, htflash.trans hflash⟩
  rw [show payload.length + 4 + j = payload.length + 3 + j + 1 by omega]
  exact reaches_trans hmarked (reaches_succ.2 ⟨t, hstep, rfl⟩)

end Sys2Proof.Machine
end

section
/-! Waiting for the reset that `REBOOT` requested (spec/46_reboot.md R240, R241): in `RESET_PENDING` every step is the
environment's action and nothing else, so a run up to the reset leaves command state, flash and observation alone. -/

namespace Sys2Proof.Machine

/-- An action of the environment other than a reset reaches ports and input stream only. -/
theorem applyEnv_of_ne_reset {a : EnvAction} (ha : ∀ k, a ≠ .reset k) (s : State) :
    (applyEnv a s).cs = s.cs ∧ (applyEnv a s).trace = s.trace := by
  cases a with
  | reset kind => exact absurd rfl (ha kind)
  | _ => exact ⟨rfl, rfl⟩

/-- In `RESET_PENDING` the block has no step of its own: with an action pending, a step is that action, the `run` mark
among them (spec/46_reboot.md R241). -/
theorem step_resetPending {s : State} {a : EnvAction} {rest : List EnvAction} (hi : s.Inv) (hc : s.cs = .resetPending)
    (he : s.env = a :: rest) : step s = .next (applyEnv a { s with env := rest }) := by
  by_cases ha : a = .run
  · subst ha
    have hb : s.blockState = some { s with env := rest } := by simp [State.blockState, he]
    rw [step_of_blockState hi.params hb]
    exact blockStep_of_waits (hi.of_blockState hb) (by simp [State.waits, CommandState.port, hc])
  · exact step_env he ha

/-- While no reset comes, `RESET_PENDING` lasts, and neither flash nor the observation changes. -/
theorem resetPending_lasts {s : State} {acts rest : List EnvAction} (hi : s.Inv) (hc : s.cs = .resetPending)
    (hacts : ∀ a ∈ acts, ∀ k, a ≠ .reset k) (he : s.env = acts ++ rest) :
    ∃ u, Reaches acts.length s u ∧ u.cs = .resetPending ∧ u.flash = s.flash ∧ u.trace = s.trace ∧ u.env = rest := by
  induction acts generalizing s with
  | nil => exact ⟨s, reaches_zero.2 rfl, hc, rfl, rfl, he⟩
  | cons a acts ih =>
    obtain ⟨ha, hrest⟩ := List.forall_mem_cons.1 hacts
    have hstep := step_resetPending hi hc he
    obtain ⟨hcs, htrace⟩ := applyEnv_of_ne_reset ha { s with env := acts ++ rest }
    obtain ⟨-, hflash, henv⟩ := applyEnv_spec a { s with env := acts ++ rest }
    obtain ⟨u, hr, huc, huflash, hutrace, hue⟩ := ih (step_inv hi hstep) (hcs.trans hc) hrest henv
    exact ⟨u, reaches_succ.2 ⟨_, hstep, hr⟩, huc, huflash.trans hflash, hutrace.trans htrace, hue⟩

/-- In `RESET_PENDING` a software reset has been requested (spec/46_reboot.md R240). -/
theorem State.Inv.resetPending {s : State} (hi : s.Inv) (hc : s.cs = .resetPending) : s.resetRequest = true := by
  simpa only [State.PhaseInv, hc] using hi.phase

/-- Settles O51: the first `n` actions leave the block in `RESET_PENDING`; after all of them its request is still
pending, so the reset controller lets the software reset through. -/
theorem rebootThenReset : Obligations.RebootThenReset := by
  intro s acts rest hi hc hacts he
  constructor
  · intro n hn
    obtain ⟨u, hr, huc, hflash, htrace, -⟩ := resetPending_lasts (acts := acts.take n)
      (rest := acts.drop n ++ .reset .software :: rest) hi hc (fun a ha => hacts a (List.mem_of_mem_take ha))
      (by rw [he, ← List.append_assoc, List.take_append_drop])
    rw [List.length_take_of_le hn] at hr
    exact ⟨u, hr, huc, hflash, htrace⟩
  · obtain ⟨u, hr, huc, hflash, -, hue⟩ := resetPending_lasts hi hc hacts he
    obtain ⟨t, hstep, htc, htflash, -, -, -, -, -, -, -, hte⟩ :=
      resetEffect u .software rest hue fun _ => (reaches_inv hi hr).resetPending huc
    exact ⟨t, reaches_trans hr (reaches_succ.2 ⟨t, hstep, reaches_zero.2 rfl⟩), htc, htflash.trans hflash, hte⟩

end Sys2Proof.Machine
end
